-- ==== Sys2Proof/Word.lean ====
section
/-! DEFINITION. The byte, the one word type of the EUART core (20_memory.md R49: no value in the core is wider
than one byte except cursors and counts, which are naturals). -/

namespace Sys2Proof

/-- A byte: an 8-bit unsigned value, bit 7 the most significant (00_scope.md §6). -/
abbrev Byte := BitVec 8

end Sys2Proof
end

