-- ==== Sys2Proof/Config.lean ====
section
/-! DEFINITION. What an instance of the core fixes: the named constants of 00_scope.md R7 and the switch `INTERLEAVE`
of 20_memory.md R57, as the fields of one structure with the spec's defaults; which values of the constants make an
instance; and the parameter values that `State.reset` starts from (notes/assumptions/2.md). Every definition that uses a
constant takes it from a `Config`, and State holds the one of its machine, so that a constant an audit changes changes
every byte derived from it (30_encoding.md R80). -/

namespace Sys2Proof

/-- 20_memory.md R57: how the micro-steps of the two contexts may interleave. -/
inductive Interleave where
  /-- P operations are indivisible and may run between any two micro-steps of a K operation (the default). -/
  | preempt
  /-- The micro-steps of P and K operations interleave in any order that keeps each context's own order, but for the
  orders that 70_reset_and_hazards.md R173 rules out (notes/assumptions/7.md). -/
  | concurrent
  /-- Every operation is indivisible. -/
  | atomic
  /-- The text of R57's `concurrent` alone, with no order left out; the model's own setting, DESIGN CHOICE,
  notes/assumptions/7.md. -/
  | anyOrder
deriving DecidableEq, Repr

/-- The parameters of an instance. The defaults are R7's values and R57's setting. -/
structure Config where
  /-- R7: size in bytes of a packet's in-memory image. -/
  PACKET_DATA_LENGTH : Nat := 16
  /-- R7: number of leading image bytes the CRC covers (90_conflicts.md C1, C2: from offset 0, always). -/
  PACKET_LENGTH : Nat := PACKET_DATA_LENGTH - 2
  /-- R7: size of the `data` field, greatest legal `length`. -/
  MAX_PAYLOAD : Nat := 14
  /-- R7: fill byte of `data` beyond `length`. -/
  FILL : Byte := 0xFF
  /-- R7: payload byte of the RETX sentinel. -/
  RETX_MARK : Byte := 0x11
  /-- R7: payload byte of the ACK sentinel. -/
  ACK_MARK : Byte := 0x12
  /-- R7: CRC-8 polynomial. -/
  CRC_POLY : Byte := 0x07
  /-- R7: CRC-8 initial value. -/
  CRC_SEED : Byte := 0x00
  /-- R57: the spec takes `preempt` as the hardware's setting. -/
  INTERLEAVE : Interleave := .preempt
deriving DecidableEq, Repr

/-- Every parameter at its default. -/
def Config.default : Config := {}

/-- Which values of the constants the rules have a meaning for: the identity of R7 between the image and its fields, a
CRC that does not cover its own byte, a `length` of one byte that can count a marker's payload, two markers that differ.
The first is R7's, the others are DEDUCED (notes/assumptions/13.md). -/
structure Config.Valid (cfg : Config) : Prop where
  image_size : cfg.PACKET_DATA_LENGTH = 1 + cfg.MAX_PAYLOAD + 1
  crc_span : cfg.PACKET_LENGTH ≤ 1 + cfg.MAX_PAYLOAD
  payload_pos : 1 ≤ cfg.MAX_PAYLOAD
  payload_le : cfg.MAX_PAYLOAD ≤ 255
  marks_differ : cfg.ACK_MARK ≠ cfg.RETX_MARK

/-- `N_LINES` of `State.reset` (R8 leaves it open; DESIGN CHOICE, notes/assumptions/2.md). -/
def Config.RESET_N_LINES : Nat := 1

/-- `PQ_CAP` of the lines of `State.reset` (R6 leaves it open; DESIGN CHOICE, notes/assumptions/2.md). -/
def Config.RESET_PQ_CAP : Nat := 4

end Sys2Proof
end

