-- ==== Sys2Proof/Syntax.lean ====
section
/-! DEFINITION. The instructions: one constructor per row of spec/opcode_table.json (13 operations of 30_encoding.md
R82, three frame encodings of R72 and R76, the image layout of R68), the packet image they carry, the contexts that
issue them and the pseudo-operations of R86. -/

namespace Sys2Proof

/-- 30_encoding.md R68: a packet, held as its image of `PACKET_DATA_LENGTH` bytes with no gaps.
Offset 0 is `length`, the next `MAX_PAYLOAD` bytes are `data`, the last one is `crc`. That `data` has its size is a
check (`Image.Sized`), since the size is a parameter. -/
structure Image where
  length : Byte
  data   : List Byte
  crc    : Byte
deriving DecidableEq, Repr

/-- R68: the `data` field has its size. -/
abbrev Image.Sized (cfg : Config) (p : Image) : Prop := p.data.length = cfg.MAX_PAYLOAD

/-- Who issues an operation (60_exceptions.md R157): the two execution contexts of a line and its initialisation. -/
inductive Context where
  /-- P: the interrupt context, sole writer of the ring buffer. -/
  | producer
  /-- K: the polled context, sole reader of the ring buffer and driver of everything else. -/
  | consumer
  /-- Initialisation, before P and K run. -/
  | init
deriving DecidableEq, Repr

/-- One constructor per row of the opcode table. `line` names the line the operation acts on (R82: every operation
also takes the line it acts on). -/
inductive Instr where
  /-- RB.SETUP, 40_ring_buffer.md R87. -/
  | rbSetup (line capacity : Nat)
  /-- RB.WRITE, 40_ring_buffer.md R88. -/
  | rbWrite (line : Nat) (byte : Byte)
  /-- RB.READ, 40_ring_buffer.md R89. -/
  | rbRead (line : Nat)
  /-- RB.ISEMPTY, 40_ring_buffer.md R90. -/
  | rbIsEmpty (line : Nat)
  /-- CRC8, 41_crc8.md R98; it acts on no line (45_line_api.md R137). -/
  | crc8 (bytes : List Byte) (length : Nat)
  /-- ASM.STEP, 42_assembler.md R103. -/
  | asmStep (line : Nat)
  /-- ASM.POLL, 42_assembler.md R113. -/
  | asmPoll (line : Nat)
  /-- PQ.ENQ, 43_packet_queue.md R121. -/
  | pqEnq (line : Nat) (packet : Image)
  /-- PQ.DEQ, 43_packet_queue.md R122. -/
  | pqDeq (line : Nat)
  /-- PQ.AVAIL, 43_packet_queue.md R123. -/
  | pqAvail (line : Nat)
  /-- TX.FRAME, 44_frame_tx.md R129. -/
  | txFrame (line : Nat) (packet : Image)
  /-- TX.SEND, 44_frame_tx.md R130. -/
  | txSend (line : Nat) (bytes : List Byte)
  /-- LINE.INIT, 45_line_api.md R135. -/
  | lineInit (line capacity : Nat) (allocOk : Bool)
  /-- FRAME.DATA, 30_encoding.md R72: a frame of `data.length` data bytes that is not a sentinel frame. -/
  | frameData (line : Nat) (data : List Byte) (crc : Byte)
  /-- FRAME.ACK, 30_encoding.md R76: the frame of the ACK sentinel, `01 12 C4` with the defaults. -/
  | frameAck (line : Nat)
  /-- FRAME.RETX, 30_encoding.md R76: the frame of the RETX sentinel, `01 11 7F` with the defaults. -/
  | frameRetx (line : Nat)
  /-- PACKET.IMAGE, 30_encoding.md R68: a packet image. -/
  | packetImage (image : Image)
deriving DecidableEq, Repr

/-- The row's mnemonic in spec/opcode_table.json. -/
def Instr.mnemonic : Instr → String
  | .rbSetup _ _ => "RB.SETUP"
  | .rbWrite _ _ => "RB.WRITE"
  | .rbRead _ => "RB.READ"
  | .rbIsEmpty _ => "RB.ISEMPTY"
  | .crc8 _ _ => "CRC8"
  | .asmStep _ => "ASM.STEP"
  | .asmPoll _ => "ASM.POLL"
  | .pqEnq _ _ => "PQ.ENQ"
  | .pqDeq _ => "PQ.DEQ"
  | .pqAvail _ => "PQ.AVAIL"
  | .txFrame _ _ => "TX.FRAME"
  | .txSend _ _ => "TX.SEND"
  | .lineInit _ _ _ => "LINE.INIT"
  | .frameData _ _ _ => "FRAME.DATA"
  | .frameAck _ => "FRAME.ACK"
  | .frameRetx _ => "FRAME.RETX"
  | .packetImage _ => "PACKET.IMAGE"

/-- The line an instruction acts on; CRC8 and PACKET.IMAGE act on none. -/
def Instr.line? : Instr → Option Nat
  | .rbSetup n _ => some n
  | .rbWrite n _ => some n
  | .rbRead n => some n
  | .rbIsEmpty n => some n
  | .crc8 _ _ => none
  | .asmStep n => some n
  | .asmPoll n => some n
  | .pqEnq n _ => some n
  | .pqDeq n => some n
  | .pqAvail n => some n
  | .txFrame n _ => some n
  | .txSend n _ => some n
  | .lineInit n _ _ => some n
  | .frameData n _ _ => some n
  | .frameAck n => some n
  | .frameRetx n => some n
  | .packetImage _ => none

/-- The context column of R82 and the operation table of R157: the one context that may issue the instruction;
`none` where any may. A frame arrives by RB.WRITE (R9), so P issues it. -/
def Instr.context? : Instr → Option Context
  | .rbSetup _ _ => some .init
  | .rbWrite _ _ => some .producer
  | .rbRead _ => some .consumer
  | .rbIsEmpty _ => some .consumer
  | .crc8 _ _ => none
  | .asmStep _ => some .consumer
  | .asmPoll _ => some .consumer
  | .pqEnq _ _ => some .consumer
  | .pqDeq _ => some .consumer
  | .pqAvail _ => some .consumer
  | .txFrame _ _ => some .consumer
  | .txSend _ _ => some .consumer
  | .lineInit _ _ _ => some .init
  | .frameData _ _ _ => some .producer
  | .frameAck _ => some .producer
  | .frameRetx _ => some .producer
  | .packetImage _ => none

/-- 30_encoding.md R82: the 4-bit operation-select code; the frame and image rows have none. -/
def Instr.opCode? : Instr → Option Nat
  | .rbSetup _ _ => some 0x0
  | .rbWrite _ _ => some 0x1
  | .rbRead _ => some 0x2
  | .rbIsEmpty _ => some 0x3
  | .crc8 _ _ => some 0x4
  | .asmStep _ => some 0x5
  | .asmPoll _ => some 0x6
  | .pqEnq _ _ => some 0x7
  | .pqDeq _ => some 0x8
  | .pqAvail _ => some 0x9
  | .txFrame _ _ => some 0xA
  | .txSend _ _ => some 0xB
  | .lineInit _ _ _ => some 0xC
  | .frameData _ _ _ => none
  | .frameAck _ => none
  | .frameRetx _ => none
  | .packetImage _ => none

/-- 30_encoding.md R86: the names the source uses that expand to operations and have no code of their own.
Their expansions are in Machine/LineApi.lean. -/
inductive Pseudo where
  | readNextPacket (line : Nat)
  | sendText (line : Nat) (bytes : List Byte)
  | packetAvailable (line : Nat)
  | dequeuePacket (line : Nat)
  | sendAck (line : Nat)
  | sendRetx (line : Nat)
deriving DecidableEq, Repr

end Sys2Proof
end

