-- ==== Sys2Proof/Machine/Operands.lean ====
section
/-! DEFINITION. The operand forms and what is computed from them alone: the views of a packet image (30_encoding.md
R68), the CRC-8 function (41_crc8.md R97, R98), `mkpkt` (R75), the frame on the wire (R72), the image rebuilt from a
frame (R74), the two sentinel images (R76) and the classes of a received image (R77). -/

namespace Sys2Proof

/-! ## The image and its bytes -/

/-- R68: the image bytes, offset 0 first. -/
def Image.bytes (p : Image) : List Byte :=
  p.length :: (p.data ++ [p.crc])

/-- R68, read the other way: the image whose byte at offset `i` is `bs[i]` (zero past the end of `bs`). -/
def Image.ofBytes (cfg : Config) (bs : List Byte) : Image where
  length := bs.getD 0 0
  data   := (List.range cfg.MAX_PAYLOAD).map fun i => bs.getD (1 + i) 0
  crc    := bs.getD (1 + cfg.MAX_PAYLOAD) 0

/-- The `data` field with `P`, at most `MAX_PAYLOAD` bytes, in front and `FILL` in the rest (R70). -/
def padded (cfg : Config) (P : List Byte) : List Byte :=
  P ++ List.replicate (cfg.MAX_PAYLOAD - P.length) cfg.FILL

/-! ## CRC-8 -/

/-- One of the eight rounds of R97: the high bit is tested before the shift, the bit shifted out is discarded. -/
def crc8Round (cfg : Config) (c : Byte) : Byte :=
  if c.getLsbD 7 then (c <<< 1) ^^^ cfg.CRC_POLY else c <<< 1

/-- R97: the byte-update step, `c` the running value and `b` the next input byte. -/
def crc8Upd (cfg : Config) (c b : Byte) : Byte :=
  let r := crc8Round cfg
  r (r (r (r (r (r (r (r (c ^^^ b))))))))

/-- R98: the checksum of `bytes[0 .. length)`, for `length ≤ bytes.length` (Machine/Crc.lean refuses the rest). -/
def crc8 (cfg : Config) (bytes : List Byte) (length : Nat) : Byte :=
  (bytes.take length).foldl (crc8Upd cfg) cfg.CRC_SEED

/-- R71: the CRC of an image, over its first `PACKET_LENGTH` bytes whatever its `length`. -/
def Image.computedCrc (cfg : Config) (p : Image) : Byte :=
  crc8 cfg p.bytes cfg.PACKET_LENGTH

/-! ## Building an image and a frame -/

/-- R75: the image of a payload of at most `MAX_PAYLOAD` bytes. No rule applies it to more. -/
def mkpkt (cfg : Config) (P : List Byte) : Image :=
  let p : Image := { length := BitVec.ofNat 8 P.length, data := padded cfg P, crc := 0 }
  { p with crc := p.computedCrc cfg }

/-- R72: the frame of a packet, `length`, the declared data bytes, `crc`. -/
def wire (p : Image) : List Byte :=
  p.length :: (p.data.take p.length.toNat ++ [p.crc])

/-- R74: the image a receiver rebuilds from the frame with data bytes `data` and last byte `crc`. -/
def fromWire (cfg : Config) (data : List Byte) (crc : Byte) : Image where
  length := BitVec.ofNat 8 data.length
  data   := padded cfg data
  crc    := crc

/-- R72, the frame as bytes: the count of the data bytes, the data bytes, the CRC byte. -/
def frameBytes (data : List Byte) (crc : Byte) : List Byte :=
  BitVec.ofNat 8 data.length :: (data ++ [crc])

/-- R76: the ACK sentinel image. -/
def ackImage (cfg : Config) : Image := mkpkt cfg [cfg.ACK_MARK]

/-- R76: the RETX sentinel image. -/
def retxImage (cfg : Config) : Image := mkpkt cfg [cfg.RETX_MARK]

/-- R76 and the row FRAME.ACK: the ACK sentinel on the wire, computed from R75 as R80 asks. That it is `01 12 C4` with
the defaults, as the table writes it, is a statement (Obligations.SentinelImagesAndFrames). -/
def ackFrame (cfg : Config) : List Byte := wire (ackImage cfg)

/-- R76 and the row FRAME.RETX: the RETX sentinel on the wire; `01 11 7F` with the defaults. -/
def retxFrame (cfg : Config) : List Byte := wire (retxImage cfg)

/-! ## Classes of a received image -/

/-- R77: the four classes. -/
inductive FrameClass where
  | corrupt
  | retx
  | ack
  | ordinary
deriving DecidableEq, Repr

/-- R77, R78: the class of an image, tested in the order of R77; equality of images is equality of all their
bytes. `retx` and `ack` are the sentinel images it is compared with. -/
def classify (cfg : Config) (retx ack p : Image) : FrameClass :=
  if p.computedCrc cfg ≠ p.crc then .corrupt
  else if p = retx then .retx
  else if p = ack then .ack
  else .ordinary

end Sys2Proof
end

