-- ==== Sys2Proof/WellFormed.lean ====
section
/-! DEFINITION. Which instruction terms stand for an encoding the spec gives. An operand that is legal as an encoding
and outside an operation's contract (CRC8's range, TX.FRAME's length) is well-formed here: the operation itself refuses
it, as the spec says. -/

namespace Sys2Proof

/-- A FRAME.DATA term is a frame of R72 (at most `MAX_PAYLOAD` data bytes) and not one of the two frames of R76, which
have rows of their own; a packet has its size (R68), and the one of a PACKET.IMAGE term a legal `length` (R69). -/
def Instr.wellFormed (cfg : Config) : Instr → Bool
  | .rbSetup _ _ => true
  | .rbWrite _ _ => true
  | .rbRead _ => true
  | .rbIsEmpty _ => true
  | .crc8 _ _ => true
  | .asmStep _ => true
  | .asmPoll _ => true
  | .pqEnq _ p => decide (p.Sized cfg)
  | .pqDeq _ => true
  | .pqAvail _ => true
  | .txFrame _ p => decide (p.Sized cfg)
  | .txSend _ _ => true
  | .lineInit _ _ _ => true
  | .frameData _ data crc =>
    decide (data.length ≤ cfg.MAX_PAYLOAD) && !(frameBytes data crc == ackFrame cfg) &&
      !(frameBytes data crc == retxFrame cfg)
  | .frameAck _ => true
  | .frameRetx _ => true
  | .packetImage p => decide (p.Sized cfg) && decide (p.length.toNat ≤ cfg.MAX_PAYLOAD)

end Sys2Proof
end

