-- ==== Sys2Proof/Decode.lean ====
section
/-! DEFINITION. Decoding bytes into instructions, total and rejecting by name, and the encoder.

Three encoding spaces. The FRAME rows are frames on the wire of a line (30_encoding.md R72 to R76), the IMAGE row is
the image bytes (R68): both bit for bit the spec's. The OP rows are requests: the spec gives them only the
4-bit code `op` (R81, R82) and lets the operands "travel beside the code"; how a request's operands lie in bytes is the
model's own (DESIGN CHOICE, notes/assumptions/5.md): a byte whose low four bits are `op` and whose high four bits are
zero, then the operands in the order of R82, the line first. -/

namespace Sys2Proof

/-- Which encoding a run of bytes is in. Bytes on the wire arrive on a line. -/
inductive Space where
  | request
  | wire (line : Nat)
  | image
deriving DecidableEq, Repr

/-- Why bytes are not an instruction. -/
inductive Reject where
  /-- 30_encoding.md R83: `op` = 0xD, 0xE, 0xF select nothing. -/
  | noSuchOperation
  /-- The high four bits of a request's first byte are not zero (the model's layout). -/
  | highBits
  /-- The bytes end before the instruction does. -/
  | truncated
  /-- A natural number written with more bytes than it needs (the model's layout). -/
  | longNat
  /-- A bool operand that is neither 0 nor 1 (the model's layout). -/
  | badBool
  /-- A frame's or an image's `length` above `MAX_PAYLOAD` (R69, R79: not legal). That a FRAME row is refused for it is
  the model's choice, notes/assumptions/4.md. -/
  | illegalLength
deriving DecidableEq, Repr

/-! ## Reading operands (R84: the five operand forms) -/

/-- One byte. -/
def takeByte : List Byte → Except Reject (Byte × List Byte)
  | [] => .error .truncated
  | b :: bs => .ok (b, bs)

/-- `n` bytes. -/
def takeBytes (n : Nat) (bs : List Byte) : Except Reject (List Byte × List Byte) :=
  if bs.length < n then .error .truncated else .ok (bs.take n, bs.drop n)

/-- A natural number of any size: seven bits a byte, the least significant first, the high bit set in every byte but
the last. -/
def takeNat : List Byte → Except Reject (Nat × List Byte)
  | [] => .error .truncated
  | b :: bs =>
    if b.toNat < 128 then .ok (b.toNat, bs)
    else
      match takeNat bs with
      | .error e => .error e
      | .ok (n, rest) => if n = 0 then .error .longNat else .ok (b.toNat - 128 + 128 * n, rest)

/-- A bool, one byte 0 or 1. -/
def takeBool : List Byte → Except Reject (Bool × List Byte)
  | [] => .error .truncated
  | b :: bs => if b = 0 then .ok (false, bs) else if b = 1 then .ok (true, bs) else .error .badBool

/-- A packet image, its bytes in the order of R68. -/
def takeImage (cfg : Config) (bs : List Byte) : Except Reject (Image × List Byte) := do
  let (im, rest) ← takeBytes cfg.PACKET_DATA_LENGTH bs
  return (Image.ofBytes cfg im, rest)

/-- A byte sequence of any length: its length, then its bytes. -/
def takeSeq (bs : List Byte) : Except Reject (List Byte × List Byte) := do
  let (n, rest) ← takeNat bs
  takeBytes n rest

/-! ## The three spaces -/

/-- The operands of the operation with code `op` (R82). -/
def decodeOperands (cfg : Config) (op : Nat) (bs : List Byte) : Except Reject (Instr × List Byte) :=
  match op with
  | 0x0 => do
    let (n, bs) ← takeNat bs
    let (c, bs) ← takeNat bs
    return (.rbSetup n c, bs)
  | 0x1 => do
    let (n, bs) ← takeNat bs
    let (b, bs) ← takeByte bs
    return (.rbWrite n b, bs)
  | 0x2 => do
    let (n, bs) ← takeNat bs
    return (.rbRead n, bs)
  | 0x3 => do
    let (n, bs) ← takeNat bs
    return (.rbIsEmpty n, bs)
  | 0x4 => do
    let (p, bs) ← takeSeq bs
    let (k, bs) ← takeNat bs
    return (.crc8 p k, bs)
  | 0x5 => do
    let (n, bs) ← takeNat bs
    return (.asmStep n, bs)
  | 0x6 => do
    let (n, bs) ← takeNat bs
    return (.asmPoll n, bs)
  | 0x7 => do
    let (n, bs) ← takeNat bs
    let (p, bs) ← takeImage cfg bs
    return (.pqEnq n p, bs)
  | 0x8 => do
    let (n, bs) ← takeNat bs
    return (.pqDeq n, bs)
  | 0x9 => do
    let (n, bs) ← takeNat bs
    return (.pqAvail n, bs)
  | 0xA => do
    let (n, bs) ← takeNat bs
    let (p, bs) ← takeImage cfg bs
    return (.txFrame n p, bs)
  | 0xB => do
    let (n, bs) ← takeNat bs
    let (p, bs) ← takeSeq bs
    return (.txSend n p, bs)
  | 0xC => do
    let (n, bs) ← takeNat bs
    let (c, bs) ← takeNat bs
    let (a, bs) ← takeBool bs
    return (.lineInit n c a, bs)
  | _ => .error .noSuchOperation

/-- A request: the code, then its operands (R81 to R84). -/
def decodeRequest (cfg : Config) : List Byte → Except Reject (Instr × List Byte)
  | [] => .error .truncated
  | b :: bs => if 16 ≤ b.toNat then .error .highBits else decodeOperands cfg b.toNat bs

/-- R72, R73: a frame on the wire of line `line`: its first byte says how many data bytes follow, the byte after them
is the CRC byte. The two frames of R76 have rows of their own. R72 defines a frame only for a `length` of at most
`MAX_PAYLOAD`, so bytes that begin with a greater one are no FRAME row and are refused (`malformed illegalLength`): the
model's choice, DESIGN CHOICE, safe, notes/assumptions/4.md. Such bytes reach the core all the same, one by one, as
RB.WRITEs or arrivals, and it is then the assembler that stores `MAX_PAYLOAD` of them and faults (R79, R107). -/
def decodeFrame (cfg : Config) (line : Nat) : List Byte → Except Reject (Instr × List Byte)
  | [] => .error .truncated
  | L :: bs =>
    if cfg.MAX_PAYLOAD < L.toNat then .error .illegalLength
    else do
      let (data, bs) ← takeBytes L.toNat bs
      let (crc, bs) ← takeByte bs
      if frameBytes data crc = ackFrame cfg then return (.frameAck line, bs)
      else if frameBytes data crc = retxFrame cfg then return (.frameRetx line, bs)
      else return (.frameData line data crc, bs)

/-- R68, R69: the bytes of an image with a legal `length`; that another `length` refuses the row is the model's choice,
notes/assumptions/4.md. -/
def decodeImage (cfg : Config) (bs : List Byte) : Except Reject (Instr × List Byte) := do
  let (p, bs) ← takeImage cfg bs
  if cfg.MAX_PAYLOAD < p.length.toNat then .error .illegalLength
  else return (.packetImage p, bs)

/-- The instruction at the front of `bs`, and the bytes after it. -/
def decode (cfg : Config) : Space → List Byte → Except Reject (Instr × List Byte)
  | .request, bs => decodeRequest cfg bs
  | .wire line, bs => decodeFrame cfg line bs
  | .image, bs => decodeImage cfg bs

/-! ## The encoder -/

/-- The bytes of a natural number, at most `fuel` of them before the last. -/
def natBytesUpTo : Nat → Nat → List Byte
  | 0, n => [BitVec.ofNat 8 n]
  | fuel + 1, n =>
    if n < 128 then [BitVec.ofNat 8 n] else BitVec.ofNat 8 (128 + n % 128) :: natBytesUpTo fuel (n / 128)

/-- The bytes of a natural number in the form `takeNat` reads. -/
def natBytes (n : Nat) : List Byte := natBytesUpTo n n

/-- A byte sequence in the form `takeSeq` reads. -/
def seqBytes (p : List Byte) : List Byte := natBytes p.length ++ p

/-- A bool in the form `takeBool` reads. -/
def boolBytes (a : Bool) : List Byte := [if a then 1 else 0]

/-- The space an instruction is encoded in. -/
def Instr.space : Instr → Space
  | .rbSetup _ _ => .request
  | .rbWrite _ _ => .request
  | .rbRead _ => .request
  | .rbIsEmpty _ => .request
  | .crc8 _ _ => .request
  | .asmStep _ => .request
  | .asmPoll _ => .request
  | .pqEnq _ _ => .request
  | .pqDeq _ => .request
  | .pqAvail _ => .request
  | .txFrame _ _ => .request
  | .txSend _ _ => .request
  | .lineInit _ _ _ => .request
  | .frameData n _ _ => .wire n
  | .frameAck n => .wire n
  | .frameRetx n => .wire n
  | .packetImage _ => .image

/-- The bytes of a well-formed instruction. -/
def encode (cfg : Config) : Instr → List Byte
  | .rbSetup n c => 0x00 :: (natBytes n ++ natBytes c)
  | .rbWrite n b => 0x01 :: (natBytes n ++ [b])
  | .rbRead n => 0x02 :: natBytes n
  | .rbIsEmpty n => 0x03 :: natBytes n
  | .crc8 p k => 0x04 :: (seqBytes p ++ natBytes k)
  | .asmStep n => 0x05 :: natBytes n
  | .asmPoll n => 0x06 :: natBytes n
  | .pqEnq n p => 0x07 :: (natBytes n ++ p.bytes)
  | .pqDeq n => 0x08 :: natBytes n
  | .pqAvail n => 0x09 :: natBytes n
  | .txFrame n p => 0x0A :: (natBytes n ++ p.bytes)
  | .txSend n p => 0x0B :: (natBytes n ++ seqBytes p)
  | .lineInit n c a => 0x0C :: (natBytes n ++ natBytes c ++ boolBytes a)
  | .frameData _ data crc => frameBytes data crc
  | .frameAck _ => ackFrame cfg
  | .frameRetx _ => retxFrame cfg
  | .packetImage p => p.bytes

/-! ## Words of the opcode table -/

/-- The bytes of `w` in `n` bytes, the most significant first. -/
def bytesMsbFirst : Nat → Nat → List Byte
  | 0, _ => []
  | n + 1, w => bytesMsbFirst n (w / 256) ++ [BitVec.ofNat 8 w]

/-- Where a table row of `nbits` bits is encoded (DESIGN CHOICE, safe, notes/assumptions/6.md): up to 8 bits a request
(the OP rows), 128 bits an image, any other whole number of bytes a frame on the wire of line 0. -/
def tableSpace (nbits : Nat) : Option Space :=
  if nbits ≤ 8 then some .request
  else if nbits = 128 then some .image
  else if nbits % 8 = 0 then some (.wire 0)
  else none

/-- The bytes of a table word: a frame's and an image's bits are written in the table in the order they are sent, the
first byte leftmost, so its first byte is the most significant of `w`. The operand bytes that the table gives no bits
are zero (at most a code, a line of one byte and an image are read). -/
def tableBytes (cfg : Config) (nbits w : Nat) : List Byte :=
  bytesMsbFirst ((nbits + 7) / 8) w ++ List.replicate (2 + cfg.PACKET_DATA_LENGTH) 0

/-- The instruction the decoder reads from a word of the opcode table, with the defaults for which the table gives its
words (R80). -/
def decodeTableWord (nbits w : Nat) : Option Instr :=
  match tableSpace nbits with
  | none => none
  | some sp =>
    match decode Config.default sp (tableBytes Config.default nbits w) with
    | .ok (i, _) => some i
    | .error _ => none

end Sys2Proof
end

