-- ==== Sys2Proof/Machine/State.lean ====
section
/-! DEFINITION. The state of the core as plain data: per line every element of 10_state.md (R13 to R30), and the
model's own inputs and outputs (the schedule of R62 and R64, the RX source's bytes and the interleaving plan of R57, the
responses of R82, the log of raised conditions of R144). The reasons a step stops. The state after power-on (R34,
R164). -/

namespace Sys2Proof.Machine

/-! ## Memories (20_memory.md R46) -/

/-- A memory: entries in strictly rising order of index. An index with no entry holds no value (R15, R26). -/
abbrev Memory (α : Type) := List (Nat × α)

/-! ## Units of a line (00_scope.md R1) -/

/-- Unit RB, the byte ring buffer (R13 to R19). -/
structure RingBuffer where
  /-- `rb.configured`, R13. -/
  configured : Bool
  /-- `rb.cap`, R14: the capacity `C`. -/
  cap : Nat
  /-- `rb.wr`, R16: the write cursor. -/
  wr : Nat
  /-- `rb.rd`, R17: the read cursor. -/
  rd : Nat
  /-- `rb.full`, R18: the full flag. -/
  full : Bool
  /-- `rb.buf`, R15: the backing array. -/
  buf : Memory Byte
deriving DecidableEq, Repr

/-- `asm.phase`, R22: two bits with the four values 0 to 3 of the spec's numbering. -/
inductive Phase where
  /-- 0. -/
  | awaitingLength
  /-- 1. -/
  | awaitingData
  /-- 2. -/
  | awaitingCrc
  /-- 3: none of the three named values. -/
  | unrecognised
deriving DecidableEq, Repr

/-- Unit ASM, the packet assembler (R22 to R25). -/
structure Assembler where
  /-- `asm.phase`, R22. -/
  phase : Phase
  /-- `asm.pkt`, R23: the partially built packet. -/
  pkt : Image
  /-- `asm.cnt`, R24: data bytes received so far in the current frame. -/
  cnt : Byte
deriving DecidableEq, Repr

/-- Unit PQ, the packet queue (R26 to R28); it has no full flag (90_conflicts.md C3). -/
structure PacketQueue where
  /-- `PQ_CAP`, 00_scope.md R6: the number of slots `Q`, fixed when the line is built. -/
  cap : Nat
  /-- `pq.slot`, R26. -/
  slot : Memory Image
  /-- `pq.wr`, R27: the write index. -/
  wr : Nat
  /-- `pq.rd`, R28: the read index. -/
  rd : Nat
deriving DecidableEq, Repr

/-- The micro-step an RB.WRITE in progress makes next (R55; `w1` starts the operation). -/
inductive WriteStep where
  | w2
  | w3
  | w4
deriving DecidableEq, Repr

/-- An RB.WRITE of context P between its micro-steps; only `concurrent` and the model's `anyOrder` show one (R57). -/
structure PendingWrite where
  byte : Byte
  next : WriteStep
deriving DecidableEq, Repr

/-- Context P of a line with its RX source: the model's own state (R31, R57, R64; DESIGN CHOICE,
notes/assumptions/3.md). -/
structure Producer where
  /-- The bytes the RX source has yet to deliver while operations of context K are in progress, next first. -/
  rx : List Byte
  /-- For each point, in order, at which context P may run inside an operation of context K: how many steps it takes
  there (whole operations under `preempt`, micro-steps under `concurrent` and `anyOrder`). Past its end, none. -/
  plan : List Nat
  /-- The RB.WRITE in progress. -/
  busy : Option PendingWrite
  /-- The responses RB.WRITE has given to context P, oldest first (R88). -/
  replies : List Bool
deriving DecidableEq, Repr

/-! ## Conditions (60_exceptions.md R144, R151) -/

/-- R145: the cause of a ConfigError, in its response. -/
inductive ConfigCause where
  | invalidLine
  | invalidCapacity
  | allocationFailure
deriving DecidableEq, Repr

/-- R151: the five conditions, an enumerated type with no numeric codes (D18). -/
inductive Condition where
  /-- R145. -/
  | configError (cause : ConfigCause)
  /-- R146. -/
  | frameCorruption
  /-- R147. -/
  | queueFull
  /-- R148; the dropped byte. -/
  | overrun (byte : Byte)
  /-- R149. -/
  | protocolDesync
deriving DecidableEq, Repr

/-- One line instance (R8): the two bits of R13, the sentinels, the units, the outputs, and its context P. -/
structure Line where
  /-- `line.configured`, R13. -/
  configured : Bool
  rb : RingBuffer
  /-- `ack_pkt`, R21. -/
  ackPkt : Image
  /-- `retx_pkt`, R21. -/
  retxPkt : Image
  asm : Assembler
  pq : PacketQueue
  /-- `last_tx`, R29; `none` is the spec's own value "no frame sent yet". -/
  lastTx : Option Image
  /-- `tx`, R30: the bytes handed to the TX sink so far, oldest first. -/
  tx : List Byte
  /-- Context P. -/
  p : Producer
  /-- The conditions raised on this line by its running operations, oldest first (R144: a mark a model can log). -/
  raised : List Condition
deriving DecidableEq, Repr

/-! ## The machine -/

/-- The progress mark of ASM.STEP (R103). -/
inductive Mark where
  | idle
  | progress
deriving DecidableEq, Repr

/-- R84: the forms of a response. -/
inductive Response where
  /-- The operation gives no response. -/
  | unit
  | ok
  | configError (cause : ConfigCause)
  | bool (b : Bool)
  | byte (b : Byte)
  | optByte (b : Option Byte)
  | optPacket (p : Option Image)
  | mark (m : Mark)
  /-- Of a frame's arrival: the responses of its RB.WRITEs, in order. -/
  | bools (bs : List Bool)
  /-- Of PACKET.IMAGE: the class of the image. -/
  | frameClass (c : FrameClass)
deriving DecidableEq, Repr

/-- One entry of the schedule (R62, R64: the order of operations is an input, chosen by the contexts). -/
inductive Entry where
  /-- Context `ctx` issues the instruction encoded by `bytes` in the space `space`. -/
  | issue (ctx : Context) (space : Space) (bytes : List Byte)
  /-- Context P of line `line` takes one step on the RX source's next byte. -/
  | arrive (line : Nat)
deriving DecidableEq, Repr

/-- The whole machine. -/
structure State where
  /-- The line instances; `N_LINES` (R8) is their number. -/
  lines : List Line
  /-- The parameters of the instance (R7's constants and R57's switch `INTERLEAVE`), which no step changes. -/
  config : Config
  /-- The context that issues the operation now executed (R157: the core sees only which context issues it). -/
  ctx : Context
  /-- What the contexts will issue, next first. -/
  schedule : List Entry
  /-- The response of the operation executed last. -/
  resp : Response
  /-- The ConfigErrors raised by set-up operations, oldest first; they write no state of any line (R145). -/
  raised : List Condition
deriving DecidableEq, Repr

/-! ## Why a step stops -/

/-- R159: the reasons a running operation faults for, exactly two. -/
inductive Fault where
  /-- Raised by ASM.STEP (and ASM.POLL) in phase AwaitingData when a data byte past the end of `data` is due (R107).
  Safe: the hardware does something the source does not describe, the model says nothing of it. -/
  | lengthOutOfRange
  /-- Raised by RB.READ at `r2` and by PQ.DEQ when the element was never stored (R15, 93_implementation_defined.md U2).
  Safe: the model claims nothing of the value. -/
  | readOfNoValue
deriving DecidableEq, Repr

/-- R160, and the model's own reasons. A refused operation changes no state. All are safe. -/
inductive Refusal where
  /-- Raised by exec for an instruction that has no meaning yet; no arm does. Safe. -/
  | notModelled (mnemonic : String)
  /-- Operation on a line or ring buffer not yet set up (R137). Safe. -/
  | notConfigured
  /-- Second RB.SETUP or LINE.INIT (R137). Safe. -/
  | alreadyConfigured
  /-- Line number out of range in an operation other than LINE.INIT (R136). Safe. -/
  | noSuchLine
  /-- Operation-select code 0xD to 0xF (R83), raised by step. Safe. -/
  | noSuchOperation
  /-- Operation issued by a context R157 does not allow, or by a second producer (R158). Safe. -/
  | wrongContext
  /-- TX.FRAME with `packet.length > MAX_PAYLOAD` (R129). Safe. -/
  | frameTooLong
  /-- CRC8 with `length > len(bytes)` (R98). Safe. -/
  | badRange
  /-- Bytes that encode no instruction, for a reason other than R83's; raised by step (DESIGN CHOICE,
  notes/assumptions/5.md). Safe. -/
  | malformed (why : Reject)
deriving DecidableEq, Repr

/-! ## After power-on (10_state.md R34, 70_reset_and_hazards.md R164) -/

/-- The value the model names for a packet image that the spec gives none (notes/assumptions/1.md). -/
def zeroImage (cfg : Config) : Image where
  length := 0
  data   := List.replicate cfg.MAX_PAYLOAD 0
  crc    := 0

/-- A line at power-on: both bits of R13 false, `tx` empty, the memories without a value; every register that R34
gives no value holds zero (`none` for `last_tx`), DESIGN CHOICE, notes/assumptions/1.md. `q` is its `PQ_CAP`. That its RX
source has no byte pending (`rx`, R9, R31) and context P no step to take inside an operation of context K (`plan`, R57, R64)
is the model's choice too, DESIGN CHOICE, notes/assumptions/3.md: the spec leaves both to the model as parameters. -/
def Line.powerOn (cfg : Config) (q : Nat) : Line where
  configured := false
  rb := { configured := false, cap := 0, wr := 0, rd := 0, full := false, buf := [] }
  ackPkt := zeroImage cfg
  retxPkt := zeroImage cfg
  asm := { phase := .awaitingLength, pkt := zeroImage cfg, cnt := 0 }
  pq := { cap := q, slot := [], wr := 0, rd := 0 }
  lastTx := none
  tx := []
  p := { rx := [], plan := [], busy := none, replies := [] }
  raised := []

/-- The machine right after power-on: nothing scheduled, no line configured, every parameter at its default. -/
def State.reset : State where
  lines := List.replicate Config.RESET_N_LINES (Line.powerOn Config.default Config.RESET_PQ_CAP)
  config := Config.default
  ctx := .init
  schedule := []
  resp := .unit
  raised := []

end Sys2Proof.Machine
end

