-- ==== Sys2Proof/Machine/Ops.lean ====
section
/-! DEFINITION. The named operations over memories, lines and the machine that the meanings share: reading and writing
a memory element, raising a condition (60_exceptions.md R144, the core's only "exception"; R156, R161: nothing is
saved, entered or returned from), sending bytes, the checks an operation's contract makes before it runs (R157, R160),
and running an operation on the line it names (45_line_api.md R143). -/

namespace Sys2Proof.Machine

/-! ## Memories (MemRead and MemWrite of 00_scope.md §7, with n = 1) -/

/-- The value at index `a`; `none` where the element holds no value. -/
def Memory.read {α : Type} : Memory α → Nat → Option α
  | [], _ => none
  | (k, v) :: m, a => if k = a then some v else Memory.read m a

/-- The memory with `v` at index `a`. -/
def Memory.write {α : Type} : Memory α → Nat → α → Memory α
  | [], a, v => [(a, v)]
  | (k, w) :: m, a, v =>
    if a < k then (a, v) :: (k, w) :: m
    else if a = k then (a, v) :: m
    else (k, w) :: Memory.write m a v

/-- The canonical form: indices strictly rising. An unlisted element holds no value, so no entry can equal it. -/
def Memory.wf {α : Type} : Memory α → Bool
  | [] => true
  | (k, _) :: m => m.all (fun e => decide (k < e.1)) && Memory.wf m

/-! ## Cursors -/

/-- 40_ring_buffer.md R94, 43_packet_queue.md R126: add one, keep the low bits. -/
def advance (cursor cap : Nat) : Nat := (cursor + 1) &&& (cap - 1)

/-! ## Lines -/

/-- R144: mark that a condition was raised on the line. Nothing else of the line changes. -/
def Line.raise (c : Condition) (l : Line) : Line :=
  { l with raised := l.raised ++ [c] }

/-- The RX source with `bs` left to deliver. -/
def Producer.withRx (bs : List Byte) (p : Producer) : Producer := { p with rx := bs }

/-- The plan with the points of `ns` left. -/
def Producer.withPlan (ns : List Nat) (p : Producer) : Producer := { p with plan := ns }

/-- Context P with the RB.WRITE `w` in progress, or none. -/
def Producer.withBusy (w : Option PendingWrite) (p : Producer) : Producer := { p with busy := w }

/-- Context P with one more response. -/
def Producer.withReply (b : Bool) (p : Producer) : Producer := { p with replies := p.replies ++ [b] }

/-- RB.WRITE's response to context P. -/
def Line.reply (b : Bool) (l : Line) : Line := { l with p := l.p.withReply b }

/-- 00_scope.md R10: `byte_send` of each byte of `bs` in order; it always succeeds. -/
def Line.byteSend (bs : List Byte) (l : Line) : Line :=
  { l with tx := l.tx ++ bs }

/-! ## The machine -/

/-- The machine with line `n` replaced by `l`. -/
def State.setLine (n : Nat) (l : Line) (s : State) : State :=
  { s with lines := s.lines.set n l }

/-- The machine with the response `r`. -/
def State.respond (r : Response) (s : State) : State :=
  { s with resp := r }

/-- R145: a ConfigError; no state of any line is written, the cause is in the response. -/
def State.configError (c : ConfigCause) (s : State) : State :=
  { s with resp := .configError c, raised := s.raised ++ [.configError c] }

/-- What an operation on a line ends in: the line after it and its response, or a stop (00_scope.md R12). -/
abbrev LineResult := Host.Outcome (Line × Response) Fault Refusal

/-- A line operation's own answer as the response `r` makes of it. -/
def answering {α : Type} (r : α → Response) : Host.Outcome (Line × α) Fault Refusal → LineResult
  | .next x => .next (x.1, r x.2)
  | .fault e => .fault e
  | .refused e => .refused e

/-- Run `f` on line `n` and on nothing else (R143); a number that names no line is refused (R136). -/
def onLine (n : Nat) (f : Line → LineResult) (s : State) : Host.Outcome State Fault Refusal :=
  match s.lines[n]? with
  | none => .refused .noSuchLine
  | some l =>
    match f l with
    | .next r => .next ((s.setLine n r.1).respond r.2)
    | .fault e => .fault e
    | .refused e => .refused e

/-- R157, R158: refuse an operation issued by a context that may not issue it; the first of the checks (DESIGN CHOICE,
safe, notes/assumptions/8.md). -/
def requireContext (c : Context) (s : State) (k : Host.Outcome State Fault Refusal) :
    Host.Outcome State Fault Refusal :=
  if s.ctx = c then k else .refused .wrongContext

/-- R137: an operation of the assembler, the queue, the transmit path or the application, refused until LINE.INIT has
completed. -/
def whenConfigured (f : Line → LineResult) (l : Line) : LineResult :=
  if l.configured then f l else .refused .notConfigured

/-- An operation of context K on a configured line. -/
def consumerOp (n : Nat) (f : Line → LineResult) (s : State) : Host.Outcome State Fault Refusal :=
  requireContext .consumer s (onLine n (whenConfigured f) s)

end Sys2Proof.Machine
end

