-- ==== Sys2Proof/Machine/FrameTx.lean ====
section
/-! DEFINITION. The frame transmit path TX.FRAME and TX.SEND (44_frame_tx.md R129, R130). -/

namespace Sys2Proof.Machine

/-- R129: TX.FRAME, which appends `wire p` to `tx` and caches the whole image, for every frame sent (D12). -/
def txFrame (cfg : Config) (p : Image) (l : Line) : Host.Outcome Line Fault Refusal :=
  if cfg.MAX_PAYLOAD < p.length.toNat then .refused .frameTooLong
  else .next { l.byteSend (wire p) with lastTx := some p }

/-- The loop of R130: at most `fuel` chunks of `MAX_PAYLOAD` bytes, the last one shorter, each sent as a frame. -/
def txSendUpTo (cfg : Config) : Nat → List Byte → Line → Host.Outcome Line Fault Refusal
  | 0, _, l => .next l
  | fuel + 1, bytes, l =>
    if bytes.isEmpty then .next l
    else
      match txFrame cfg (mkpkt cfg (bytes.take cfg.MAX_PAYLOAD)) l with
      | .next l' => txSendUpTo cfg fuel (bytes.drop cfg.MAX_PAYLOAD) l'
      | .fault e => .fault e
      | .refused e => .refused e

/-- R130: TX.SEND; a payload of `L` bytes has at most `L` chunks. -/
def txSend (cfg : Config) (bytes : List Byte) (l : Line) : Host.Outcome Line Fault Refusal :=
  txSendUpTo cfg bytes.length bytes l

/-- A line operation that gives no response. -/
def noResponse (f : Line → Host.Outcome Line Fault Refusal) (l : Line) : LineResult :=
  match f l with
  | .next l' => .next (l', .unit)
  | .fault e => .fault e
  | .refused e => .refused e

/-- TX.FRAME `packet` (R129). -/
def execTxFrame (line : Nat) (packet : Image) (s : State) : Host.Outcome State Fault Refusal :=
  consumerOp line (noResponse (txFrame s.config packet)) s

/-- TX.SEND `bytes` (R130). -/
def execTxSend (line : Nat) (bytes : List Byte) (s : State) : Host.Outcome State Fault Refusal :=
  consumerOp line (noResponse (txSend s.config bytes)) s

end Sys2Proof.Machine
end

