-- ==== Sys2Proof/Machine/Flags.lean ====
section
/-! DEFINITION. The one stored flag and the predicates computed from the state (10_state.md R33): the full flag's
rules (R18), ring buffer empty and full (R19), queue empty and full (R28), powers of two (40_ring_buffer.md R95). -/

namespace Sys2Proof.Machine

/-- R95: true exactly for 1, 2, 4, 8, … -/
def isPow2 (c : Nat) : Bool := decide (1 ≤ c) && (c &&& (c - 1)) == 0

/-- The emptiness test of RB.READ (R89, micro-step `r1`): cursors equal and not full. -/
def RingBuffer.isEmptyForRead (rb : RingBuffer) : Bool := rb.rd == rb.wr && !rb.full

/-- RB.ISEMPTY's test (R90): the cursors alone. -/
def RingBuffer.cursorsEqual (rb : RingBuffer) : Bool := rb.rd == rb.wr

/-- R88, micro-step `w4`: the flag after a write whose cursor has been advanced; never cleared here. -/
def RingBuffer.fullAfterWrite (rb : RingBuffer) : Bool := rb.wr == rb.rd || rb.full

/-- R19: the number of live bytes, `C` when full, else `(wr - rd) & (C - 1)`. The hardware never computes it (R94). -/
def RingBuffer.count (rb : RingBuffer) : Nat :=
  if rb.full then rb.cap else (rb.wr + rb.cap - rb.rd) &&& (rb.cap - 1)

/-- R19: the live bytes, oldest first. -/
def RingBuffer.live (rb : RingBuffer) : List Byte :=
  (List.range rb.count).filterMap fun k => rb.buf.read ((rb.rd + k) &&& (rb.cap - 1))

/-- PQ.ENQ's full test (R121): the next write index would equal the read index. -/
def PacketQueue.isFull (q : PacketQueue) : Bool := advance q.wr q.cap == q.rd

/-- PQ.DEQ's emptiness test (R122). -/
def PacketQueue.isEmpty (q : PacketQueue) : Bool := q.rd == q.wr

/-- R28: the number of queued packets. -/
def PacketQueue.count (q : PacketQueue) : Nat := (q.wr + q.cap - q.rd) &&& (q.cap - 1)

/-- R26 to R28: the queued packets, oldest first. -/
def PacketQueue.live (q : PacketQueue) : List Image :=
  (List.range q.count).filterMap fun k => q.slot.read ((q.rd + k) &&& (q.cap - 1))

end Sys2Proof.Machine
end

