-- ==== Sys2Proof/Machine/PacketQueue.lean ====
section
/-! DEFINITION. The packet queue operations PQ.ENQ, PQ.DEQ, PQ.AVAIL (43_packet_queue.md R121 to R123). -/

namespace Sys2Proof.Machine

/-- R121: the queue with `p` stored at the write index, the index advanced. -/
def PacketQueue.put (p : Image) (q : PacketQueue) : PacketQueue :=
  { q with slot := q.slot.write q.wr p, wr := advance q.wr q.cap }

/-- R122: the queue with the read index advanced; the slot is not cleared. -/
def PacketQueue.drop (q : PacketQueue) : PacketQueue := { q with rd := advance q.rd q.cap }

/-- R121: PQ.ENQ and its response. -/
def pqEnq (p : Image) (l : Line) : Line × Bool :=
  if l.pq.isFull then (l, false)
  else ({ l with pq := l.pq.put p }, true)

/-- R122: PQ.DEQ. A slot that was never filled holds no value (R26, 93_implementation_defined.md U2;
DEDUCED, notes/assumptions/10.md). -/
def pqDeq (l : Line) : Host.Outcome (Line × Option Image) Fault Refusal :=
  if l.pq.isEmpty then .next (l, none)
  else
    match l.pq.slot.read l.pq.rd with
    | none => .fault .readOfNoValue
    | some p => .next ({ l with pq := l.pq.drop }, some p)

/-- R123: PQ.AVAIL. -/
def pqAvail (l : Line) : Bool := !l.pq.isEmpty

/-- PQ.ENQ `packet` (R121): the packet is stored as given. -/
def execPqEnq (line : Nat) (packet : Image) (s : State) : Host.Outcome State Fault Refusal :=
  consumerOp line (fun l => let r := pqEnq packet l; .next (r.1, .bool r.2)) s

/-- PQ.DEQ (R122). -/
def execPqDeq (line : Nat) (s : State) : Host.Outcome State Fault Refusal :=
  consumerOp line (fun l => answering .optPacket (pqDeq l)) s

/-- PQ.AVAIL (R123). -/
def execPqAvail (line : Nat) (s : State) : Host.Outcome State Fault Refusal :=
  consumerOp line (fun l => .next (l, .bool (pqAvail l))) s

end Sys2Proof.Machine
end

