-- ==== Sys2Proof/Machine/RingBuffer.lean ====
section
/-! DEFINITION. The ring buffer operations RB.SETUP, RB.WRITE, RB.READ, RB.ISEMPTY (40_ring_buffer.md R87 to R90),
written over their micro-steps (20_memory.md R55), and how context P runs between the micro-steps of context K under each
setting of `INTERLEAVE` (R57). -/

namespace Sys2Proof.Machine

/-! ## Micro-steps -/

/-- R88 `w2`: store the byte at the write cursor. -/
def RingBuffer.w2 (b : Byte) (rb : RingBuffer) : RingBuffer := { rb with buf := rb.buf.write rb.wr b }

/-- R88 `w3`: advance the write cursor. -/
def RingBuffer.w3 (rb : RingBuffer) : RingBuffer := { rb with wr := advance rb.wr rb.cap }

/-- R88 `w4`: set the full flag if the new write cursor equals the read cursor; never clear it. -/
def RingBuffer.w4 (rb : RingBuffer) : RingBuffer := { rb with full := rb.fullAfterWrite }

/-- R89 `r3`: advance the read cursor. -/
def RingBuffer.r3 (rb : RingBuffer) : RingBuffer := { rb with rd := advance rb.rd rb.cap }

/-- R89 `r4`: clear the full flag, unconditionally. -/
def RingBuffer.r4 (rb : RingBuffer) : RingBuffer := { rb with full := false }

/-- `w2`, `w3`, `w4` with nothing between them. -/
def RingBuffer.store (b : Byte) (rb : RingBuffer) : RingBuffer := ((rb.w2 b).w3).w4

/-! ## Context P -/

/-- R88: RB.WRITE with nothing between its micro-steps, and its response. -/
def rbWrite (b : Byte) (l : Line) : Line × Bool :=
  if l.rb.full then ((l.raise (.overrun b)).reply false, false)
  else (Line.reply true { l with rb := l.rb.store b }, true)

/-- One micro-step of context P (R55): the next one of the RB.WRITE in progress, or `w1` of one that takes the RX
source's next byte; nothing when there is neither. -/
def pMicro (l : Line) : Line :=
  match l.p.busy with
  | some ⟨b, .w2⟩ => { l with rb := l.rb.w2 b, p := l.p.withBusy (some ⟨b, .w3⟩) }
  | some ⟨b, .w3⟩ => { l with rb := l.rb.w3, p := l.p.withBusy (some ⟨b, .w4⟩) }
  | some ⟨_, .w4⟩ => Line.reply true { l with rb := l.rb.w4, p := l.p.withBusy none }
  | none =>
    match l.p.rx with
    | [] => l
    | b :: rest =>
      if l.rb.full then (Line.raise (.overrun b) { l with p := l.p.withRx rest }).reply false
      else { l with p := (l.p.withRx rest).withBusy (some ⟨b, .w2⟩) }

/-- One whole operation of context P: an RB.WRITE of the RX source's next byte; nothing when there is no byte. It does
not begin while an RB.WRITE is in progress (R58: two P operations never overlap). -/
def pWhole (l : Line) : Line :=
  match l.p.busy, l.p.rx with
  | none, b :: rest => (rbWrite b { l with p := l.p.withRx rest }).1
  | _, _ => l

/-- One step of context P under a setting of `INTERLEAVE`. -/
def pStep : Interleave → Line → Line
  | .concurrent, l => pMicro l
  | .preempt, l => pWhole l
  | .atomic, l => pWhole l
  | .anyOrder, l => pMicro l

/-- A point inside an operation of context K at which context P may run (R57): as many steps as the plan says; under
`atomic` there is no such point. -/
def gap (m : Interleave) (l : Line) : Line :=
  match m, l.p.plan with
  | .atomic, _ => l
  | _, [] => l
  | m, n :: ns => (pStep m)^[n] { l with p := l.p.withPlan ns }

/-- What context K's `r3` is about to take is the only byte there is, and the `w4` of the write that stored it is still
to come. -/
def takesUnflagged (l : Line) : Bool :=
  l.p.busy.map (·.next) == some .w4 && advance l.rb.rd l.rb.cap == l.rb.wr

/-- Before context K's `r4`, when its `r3` has taken such a byte (`unflagged`): context P's `w4`, if it is still to come.
Under `concurrent` this leaves out the orders of R57 in which that `w4` comes after `r4`, and no others: it would find the
cursors equal and set the flag of an empty buffer for good, and the next read would load a slot never stored or deliver
a byte twice, which 70_reset_and_hazards.md R173 (kept by 90_conflicts.md C13) rules out (DEDUCED,
notes/assumptions/7.md). -/
def settle (m : Interleave) (unflagged : Bool) (l : Line) : Line :=
  match m with
  | .preempt => l
  | .concurrent => if unflagged ∧ l.p.busy.map (·.next) = some .w4 then pMicro l else l
  | .atomic => l
  | .anyOrder => l

/-! ## Context K -/

/-- R89: RB.READ, with context P's points before `r1`, `r2`, `r3` and `r4`; refused on a ring buffer that is not set
up (R137). `r1` reads `rb.wr` and `rb.full` in one micro-step (D4, R172). -/
def rbRead (m : Interleave) (l : Line) : Host.Outcome (Line × Option Byte) Fault Refusal :=
  if l.rb.configured then
    let l1 := gap m l
    if l1.rb.isEmptyForRead then .next (l1, none)
    else
      let l2 := gap m l1
      match l2.rb.buf.read l2.rb.rd with
      | none => .fault .readOfNoValue
      | some b =>
        let l3 := gap m l2
        let l4 := settle m (takesUnflagged l3) (gap m { l3 with rb := l3.rb.r3 })
        .next ({ l4 with rb := l4.rb.r4 }, some b)
  else .refused .notConfigured

/-- R90: RB.ISEMPTY, with context P's point before `e1`. -/
def rbIsEmpty (m : Interleave) (l : Line) : LineResult :=
  if l.rb.configured then
    let l1 := gap m l
    .next (l1, .bool l1.rb.cursorsEqual)
  else .refused .notConfigured

/-! ## Set-up -/

/-- R87: the ring buffer after set-up. Its elements hold no value (R15). -/
def RingBuffer.setup (cap : Nat) : RingBuffer :=
  { configured := true, cap := cap, wr := 0, rd := 0, full := false, buf := [] }

/-! ## Meanings -/

/-- RB.SETUP `capacity` (R87). -/
def execRbSetup (line capacity : Nat) (s : State) : Host.Outcome State Fault Refusal :=
  requireContext .init s <|
    match s.lines[line]? with
    | none => .refused .noSuchLine
    | some l =>
      if l.rb.configured then .refused .alreadyConfigured
      else if !isPow2 capacity then .next (s.configError .invalidCapacity)
      else .next ((s.setLine line { l with rb := RingBuffer.setup capacity }).respond .ok)

/-- What a P operation requires of a line: a ring buffer that is set up (R137) and no other RB.WRITE in progress on it
(R58, R158: a second producer is refused). -/
def producerOp (n : Nat) (f : Line → LineResult) (s : State) : Host.Outcome State Fault Refusal :=
  requireContext .producer s <|
    onLine n (fun l =>
      if !l.rb.configured then .refused .notConfigured
      else if l.p.busy.isSome then .refused .wrongContext
      else f l) s

/-- RB.WRITE `byte` (R88), issued whole: no micro-step of context K falls inside it. -/
def execRbWrite (line : Nat) (byte : Byte) (s : State) : Host.Outcome State Fault Refusal :=
  producerOp line (fun l => let r := rbWrite byte l; .next (r.1, .bool r.2)) s

/-- RB.READ (R89). -/
def execRbRead (line : Nat) (s : State) : Host.Outcome State Fault Refusal :=
  requireContext .consumer s (onLine line (fun l => answering .optByte (rbRead s.config.INTERLEAVE l)) s)

/-- RB.ISEMPTY (R90). -/
def execRbIsEmpty (line : Nat) (s : State) : Host.Outcome State Fault Refusal :=
  requireContext .consumer s (onLine line (rbIsEmpty s.config.INTERLEAVE) s)

end Sys2Proof.Machine
end

