-- ==== Sys2Proof/Machine/Assembler.lean ====
section
/-! DEFINITION. The packet assembler, ASM.STEP and ASM.POLL (42_assembler.md R103 to R116). -/

namespace Sys2Proof.Machine

/-- The assembler in phase `ph`. -/
def Assembler.toPhase (ph : Phase) (a : Assembler) : Assembler := { a with phase := ph }

/-- R104, R105: the assembler once the byte `b` is accepted as a length; any byte is. -/
def Assembler.takeLength (cfg : Config) (b : Byte) (a : Assembler) : Assembler where
  phase := .awaitingData
  pkt   := { length := b, data := List.replicate cfg.MAX_PAYLOAD cfg.FILL, crc := a.pkt.crc }
  cnt   := 0

/-- R106: the assembler once the byte `b` is stored as the next data byte; the phase stays. ASM.STEP stores only inside
the data field (R107). -/
def Assembler.takeData (b : Byte) (a : Assembler) : Assembler where
  phase := a.phase
  pkt   := { length := a.pkt.length, data := a.pkt.data.set a.cnt.toNat b, crc := a.pkt.crc }
  cnt   := a.cnt + 1

/-- R108: the assembler once the byte `b` is taken as the CRC byte. -/
def Assembler.takeCrc (b : Byte) (a : Assembler) : Assembler where
  phase := a.phase
  pkt   := { length := a.pkt.length, data := a.pkt.data, crc := b }
  cnt   := a.cnt

/-- R116: the return to `AwaitingLength` after every completed or rejected frame. -/
def Line.restartAsm (l : Line) : Line := { l with asm := l.asm.toPhase .awaitingLength }

/-- R109 to R112: what is done with a completed frame, by its class (R77), before the phase is reset. -/
def completeFrame (cfg : Config) (l : Line) : Host.Outcome Line Fault Refusal :=
  match classify cfg l.retxPkt l.ackPkt l.asm.pkt with
  | .corrupt => txFrame cfg l.retxPkt (l.raise .frameCorruption)
  | .retx => txFrame cfg l.retxPkt l
  | .ack => .next l
  | .ordinary =>
    match pqEnq l.asm.pkt l with
    | (l', true) => txFrame cfg l'.ackPkt l'
    | (l', false) => .next (l'.raise .queueFull)

/-- R103, R117: one transition; the fault of R107 is tested before the byte is read (R154). -/
def asmStep (cfg : Config) (l : Line) : Host.Outcome (Line × Mark) Fault Refusal :=
  match l.asm.phase with
  | .awaitingLength =>
    match rbRead cfg.INTERLEAVE l with
    | .next (l', none) => .next (l', .idle)
    | .next (l', some b) => .next ({ l' with asm := l'.asm.takeLength cfg b }, .progress)
    | .fault e => .fault e
    | .refused e => .refused e
  | .awaitingData =>
    if l.asm.cnt.toNat < l.asm.pkt.length.toNat then
      if l.asm.cnt.toNat < cfg.MAX_PAYLOAD then
        match rbRead cfg.INTERLEAVE l with
        | .next (l', none) => .next (l', .idle)
        | .next (l', some b) => .next ({ l' with asm := l'.asm.takeData b }, .progress)
        | .fault e => .fault e
        | .refused e => .refused e
      else .fault .lengthOutOfRange
    else .next ({ l with asm := l.asm.toPhase .awaitingCrc }, .progress)
  | .awaitingCrc =>
    match rbRead cfg.INTERLEAVE l with
    | .next (l', none) => .next (l', .idle)
    | .next (l', some b) =>
      match completeFrame cfg { l' with asm := l'.asm.takeCrc b } with
      | .next l'' => .next (l''.restartAsm, .progress)
      | .fault e => .fault e
      | .refused e => .refused e
    | .fault e => .fault e
    | .refused e => .refused e
  | .unrecognised => .next ((l.raise .protocolDesync).restartAsm, .progress)

/-- R113: ASM.STEP until it is idle, at most `fuel` times: the line and the last step's mark, which is `Progress` only
when the bound is used up. -/
def asmPollUpTo (cfg : Config) : Nat → Line → Host.Outcome (Line × Mark) Fault Refusal
  | 0, l => .next (l, .progress)
  | fuel + 1, l =>
    match asmStep cfg l with
    | .next (l', .idle) => .next (l', .idle)
    | .next (l', .progress) => asmPollUpTo cfg fuel l'
    | .fault e => .fault e
    | .refused e => .refused e

/-- R114: more ASM.STEPs than a poll of a line with cursors inside its array can make, the bytes that context P may
still add to it counted in. -/
def pollFuel (l : Line) : Nat := 2 * (l.rb.cap + 1) * (l.p.rx.length + 2) + 3

/-- R113: ASM.POLL. -/
def asmPoll (cfg : Config) (l : Line) : Host.Outcome (Line × Mark) Fault Refusal :=
  asmPollUpTo cfg (pollFuel l) l

/-- The response of a poll: none when it has ended; the mark `Progress` when it was cut at its bound, and the next
ASM.POLL goes on with it. The model's own (DESIGN CHOICE, safe, notes/assumptions/12.md); from a state that meets the
invariants no poll is cut (Obligations.AsmPollEnds). -/
def pollResponse : Mark → Response
  | .idle => .unit
  | .progress => .mark .progress

/-- ASM.STEP (R103). -/
def execAsmStep (line : Nat) (s : State) : Host.Outcome State Fault Refusal :=
  consumerOp line (fun l => answering .mark (asmStep s.config l)) s

/-- ASM.POLL (R113). -/
def execAsmPoll (line : Nat) (s : State) : Host.Outcome State Fault Refusal :=
  consumerOp line (fun l => answering pollResponse (asmPoll s.config l)) s

end Sys2Proof.Machine
end

