-- ==== Sys2Proof/Machine/Crc.lean ====
section
/-! DEFINITION. The meaning of CRC8 (41_crc8.md R98). The function itself is in Machine/Operands.lean. -/

namespace Sys2Proof.Machine

/-- CRC8 `bytes`, `length` (R98): pure, issued by any context, of no line (R99, R137); a count beyond the sequence is
refused. -/
def execCrc8 (bytes : List Byte) (length : Nat) (s : State) : Host.Outcome State Fault Refusal :=
  if length ≤ bytes.length then .next (s.respond (.byte (crc8 s.config bytes length)))
  else .refused .badRange

end Sys2Proof.Machine
end

