-- ==== Sys2Proof/Machine/Frames.lean ====
section
/-! DEFINITION. The meanings of the encoding rows FRAME.DATA, FRAME.ACK, FRAME.RETX and PACKET.IMAGE. The spec gives
these rows as encodings, not as operations; what executing one means is DESIGN CHOICE, safe, notes/assumptions/4.md. A
frame is what a peer sends: its bytes reach the core "only through RB.WRITE, issued by context P, one call per
arrived byte, in arrival order" (00_scope.md R9). An image is data: executing it answers its class (30_encoding.md R77). -/

namespace Sys2Proof.Machine

/-- R9: an RB.WRITE of each byte in order, and their responses. -/
def deliver : List Byte → Line → Line × List Bool
  | [], l => (l, [])
  | b :: bs, l =>
    let r := rbWrite b l
    let rs := deliver bs r.1
    (rs.1, r.2 :: rs.2)

/-- The arrival of `bs` on a line. -/
def arrival (line : Nat) (bs : List Byte) (s : State) : Host.Outcome State Fault Refusal :=
  producerOp line (fun l => let r := deliver bs l; .next (r.1, .bools r.2)) s

/-- FRAME.DATA (R72): the frame arrives. -/
def execFrameData (line : Nat) (data : List Byte) (crc : Byte) (s : State) : Host.Outcome State Fault Refusal :=
  arrival line (frameBytes data crc) s

/-- FRAME.ACK (R76): the ACK sentinel's frame arrives. -/
def execFrameAck (line : Nat) (s : State) : Host.Outcome State Fault Refusal :=
  arrival line (ackFrame s.config) s

/-- FRAME.RETX (R76): the RETX sentinel's frame arrives. -/
def execFrameRetx (line : Nat) (s : State) : Host.Outcome State Fault Refusal :=
  arrival line (retxFrame s.config) s

/-- PACKET.IMAGE (R68): the class of the image against the two sentinels (R76, R77); no element of the core changes. -/
def execPacketImage (image : Image) (s : State) : Host.Outcome State Fault Refusal :=
  .next (s.respond (.frameClass (classify s.config (retxImage s.config) (ackImage s.config) image)))

end Sys2Proof.Machine
end

