-- ==== Sys2Proof/Machine/LineInit.lean ====
section
/-! DEFINITION. Line initialisation, LINE.INIT (45_line_api.md R135). -/

namespace Sys2Proof.Machine

/-- R135, from the point on where nothing can fail: every element gets its initial value (10_state.md R34).
`asm.pkt` is not written; the memories hold no value. `Q`, context P and the log are the model's own and stay. -/
def initLine (cfg : Config) (cap : Nat) (l : Line) : Line :=
  { l with
    configured := true
    rb := RingBuffer.setup cap
    ackPkt := ackImage cfg
    retxPkt := retxImage cfg
    asm := { phase := .awaitingLength, pkt := l.asm.pkt, cnt := 0 }
    pq := { cap := l.pq.cap, slot := [], wr := 0, rd := 0 }
    lastTx := none
    tx := [] }

/-- LINE.INIT `line`, `capacity`, `alloc_ok` (R135): line number, then already configured, then capacity, then
allocation; all checks come before any write. -/
def execLineInit (line capacity : Nat) (allocOk : Bool) (s : State) : Host.Outcome State Fault Refusal :=
  requireContext .init s <|
    match s.lines[line]? with
    | none => .next (s.configError .invalidLine)
    | some l =>
      if l.configured || l.rb.configured then .refused .alreadyConfigured
      else if !isPow2 capacity then .next (s.configError .invalidCapacity)
      else if !allocOk then .next (s.configError .allocationFailure)
      else .next ((s.setLine line (initLine s.config capacity l)).respond .ok)

end Sys2Proof.Machine
end

