-- ==== Sys2Proof/Machine/Dispatch.lean ====
section
/-! DEFINITION. exec: one arm per instruction, each one call of its meaning. -/

namespace Sys2Proof.Machine

def exec (i : Instr) (s : State) : Host.Outcome State Fault Refusal :=
  match i with
  | .rbSetup line capacity => Sys2Proof.Machine.execRbSetup line capacity s
  | .rbWrite line byte => Sys2Proof.Machine.execRbWrite line byte s
  | .rbRead line => Sys2Proof.Machine.execRbRead line s
  | .rbIsEmpty line => Sys2Proof.Machine.execRbIsEmpty line s
  | .crc8 bytes length => Sys2Proof.Machine.execCrc8 bytes length s
  | .asmStep line => Sys2Proof.Machine.execAsmStep line s
  | .asmPoll line => Sys2Proof.Machine.execAsmPoll line s
  | .pqEnq line packet => Sys2Proof.Machine.execPqEnq line packet s
  | .pqDeq line => Sys2Proof.Machine.execPqDeq line s
  | .pqAvail line => Sys2Proof.Machine.execPqAvail line s
  | .txFrame line packet => Sys2Proof.Machine.execTxFrame line packet s
  | .txSend line bytes => Sys2Proof.Machine.execTxSend line bytes s
  | .lineInit line capacity allocOk => Sys2Proof.Machine.execLineInit line capacity allocOk s
  | .frameData line data crc => Sys2Proof.Machine.execFrameData line data crc s
  | .frameAck line => Sys2Proof.Machine.execFrameAck line s
  | .frameRetx line => Sys2Proof.Machine.execFrameRetx line s
  | .packetImage image => Sys2Proof.Machine.execPacketImage image s

end Sys2Proof.Machine
end

