-- ==== Sys2Proof/Machine/Fetch.lean ====
section
/-! DEFINITION. Taking the next entry of the schedule (20_memory.md R62, R64): what step fetches, and what a step of
context P does when the schedule says so. -/

namespace Sys2Proof.Machine

/-- R83: a reserved code is refused by the spec's name; other bytes that encode no instruction by the model's. -/
def refusalOf : Reject → Refusal
  | .noSuchOperation => .noSuchOperation
  | .highBits => .malformed .highBits
  | .truncated => .malformed .truncated
  | .longNat => .malformed .longNat
  | .badBool => .malformed .badBool
  | .illegalLength => .malformed .illegalLength

/-- The machine with the first entry of the schedule taken off and `c` the issuing context. -/
def State.fetched (c : Context) (rest : List Entry) (s : State) : State :=
  { s with ctx := c, schedule := rest }

/-- Context P of line `n` takes one step (R64), refused until the ring buffer is set up (R137, R165). -/
def arrive (n : Nat) (s : State) : Host.Outcome State Fault Refusal :=
  onLine n (fun l =>
    if l.rb.configured then .next (pStep s.config.INTERLEAVE l, .unit) else .refused .notConfigured) s

/-- The context an instruction is issued by when nothing else says: the one R157 allows, K where any may. -/
def defaultContext (i : Instr) : Context := i.context?.getD .consumer

/-- The schedule entry that holds a word of the opcode table. -/
def tableEntry (cfg : Config) (nbits w : Nat) : Entry :=
  .issue ((decodeTableWord nbits w).elim .consumer defaultContext) ((tableSpace nbits).getD .request)
    (tableBytes cfg nbits w)

end Sys2Proof.Machine
end

