-- ==== Sys2Proof/Machine/LineApi.lean ====
section
/-! DEFINITION. The application interface (45_line_api.md R138 to R141) and the assembler's two sends (30_encoding.md
R86): pseudo-operations, each the operations it expands to. -/

namespace Sys2Proof.Machine

/-- R138: READ_NEXT_PACKET is ASM.POLL, then PQ.DEQ; the response is PQ.DEQ's. -/
def readNextPacket (line : Nat) (s : State) : Host.Outcome State Fault Refusal :=
  match execAsmPoll line s with
  | .next s' => execPqDeq line s'
  | .fault e => .fault e
  | .refused e => .refused e

/-- R139: SEND_TEXT is TX.SEND. -/
def sendText (line : Nat) (bytes : List Byte) (s : State) : Host.Outcome State Fault Refusal :=
  execTxSend line bytes s

/-- R140: PACKET_AVAILABLE is PQ.AVAIL. -/
def packetAvailable (line : Nat) (s : State) : Host.Outcome State Fault Refusal :=
  execPqAvail line s

/-- R141: DEQUEUE_PACKET is PQ.DEQ. -/
def dequeuePacket (line : Nat) (s : State) : Host.Outcome State Fault Refusal :=
  execPqDeq line s

/-- R86: SEND_ACK is TX.FRAME `ack_pkt`. -/
def sendAck (line : Nat) (s : State) : Host.Outcome State Fault Refusal :=
  consumerOp line (fun l => noResponse (txFrame s.config l.ackPkt) l) s

/-- R86: SEND_RETX is TX.FRAME `retx_pkt`. -/
def sendRetx (line : Nat) (s : State) : Host.Outcome State Fault Refusal :=
  consumerOp line (fun l => noResponse (txFrame s.config l.retxPkt) l) s

/-- R86: a pseudo-operation is its expansion. -/
def execPseudo (p : Pseudo) (s : State) : Host.Outcome State Fault Refusal :=
  match p with
  | .readNextPacket n => readNextPacket n s
  | .sendText n bytes => sendText n bytes s
  | .packetAvailable n => packetAvailable n s
  | .dequeuePacket n => dequeuePacket n s
  | .sendAck n => sendAck n s
  | .sendRetx n => sendRetx n s

end Sys2Proof.Machine
end

