-- ==== Sys2Proof/Machine/Step.lean ====
section
/-! DEFINITION. One step of the machine: the next entry of the schedule. -/

namespace Sys2Proof.Machine

/-- The next entry of the schedule is taken off it. An issued instruction is decoded and executed in its issuing
context, and bytes of its entry after it are dropped with the entry (DESIGN CHOICE, notes/assumptions/5.md); an arrival is
one step of context P. With nothing scheduled the core is idle and nothing changes (60_exceptions.md R162: an idle core is
one on which no operation is issued). -/
def step (s : State) : Host.Outcome State Fault Refusal :=
  match s.schedule with
  | [] => .next s
  | .arrive n :: rest => arrive n (s.fetched .producer rest)
  | .issue c sp bytes :: rest =>
    match decode s.config sp bytes with
    | .ok r => exec r.1 (s.fetched c rest)
    | .error e => .refused (refusalOf e)

/-- The word of the opcode table scheduled next, in front of what is scheduled already. -/
def State.withFetchWord (s : State) (nbits w : Nat) : State :=
  { s with schedule := tableEntry s.config nbits w :: s.schedule }

end Sys2Proof.Machine
end

