-- ==== Sys2Proof/Safety.lean ====
section
/-! DEFINITION. The terms claims about runs are written in: which states the machine is in between operations (the
invariants), when no step of context P falls inside an operation of context K, what a finite program of instructions
answers. -/

namespace Sys2Proof.Machine

/-! ## Invariants of one unit -/

/-- The number of elements from the read cursor up to but not including the write cursor. -/
def RingBuffer.distance (rb : RingBuffer) : Nat := (rb.wr + rb.cap - rb.rd) &&& (rb.cap - 1)

/-- 10_state.md R14, R16, R17, 20_memory.md R47: the capacity is a power of two, the cursors and every stored element
lie inside the array, the memory is in canonical form. -/
structure RingBuffer.Bounded (rb : RingBuffer) : Prop where
  cap_pow2 : isPow2 rb.cap = true
  wr_lt : rb.wr < rb.cap
  rd_lt : rb.rd < rb.cap
  buf_wf : rb.buf.wf = true
  buf_lt : ∀ e ∈ rb.buf, e.1 < rb.cap

/-- 70_reset_and_hazards.md R173 (a): the elements from the read cursor up to the write cursor have been stored, all of
them when the flag is set; and 10_state.md R19: `full` implies equal cursors. -/
structure RingBuffer.Stored (rb : RingBuffer) : Prop where
  live_stored : ∀ k < rb.distance, rb.buf.read ((rb.rd + k) &&& (rb.cap - 1)) ≠ none
  full_stored : rb.full = true → ∀ a < rb.cap, rb.buf.read a ≠ none
  full_equal : rb.full = true → rb.wr = rb.rd

/-- 00_scope.md R6, 10_state.md R26 to R28: `Q` is a power of two and at least 2, the indices and every filled slot lie
inside the queue, the memory is in canonical form, the queued slots have been filled. -/
structure PacketQueue.Inv (q : PacketQueue) : Prop where
  cap_pow2 : isPow2 q.cap = true
  cap_ge : 2 ≤ q.cap
  wr_lt : q.wr < q.cap
  rd_lt : q.rd < q.cap
  slot_wf : q.slot.wf = true
  slot_lt : ∀ e ∈ q.slot, e.1 < q.cap
  live_filled : ∀ k < q.count, q.slot.read ((q.rd + k) &&& (q.cap - 1)) ≠ none

/-- The first `n` data bytes are whatever they are, the others hold `FILL`. -/
def FilledFrom (cfg : Config) (n : Nat) (p : Image) : Prop :=
  ∃ received : List Byte, received.length = n ∧ n ≤ cfg.MAX_PAYLOAD ∧ p.data = padded cfg received

/-- 42_assembler.md R104 to R107, R115: the phase is one of the three; inside a frame the counter is at most
`MAX_PAYLOAD` and at most `length` (equal to it once the CRC byte is due), and the data bytes not yet received hold `FILL`
(R105). -/
structure Assembler.Inv (cfg : Config) (a : Assembler) : Prop where
  recognised : a.phase ≠ .unrecognised
  inData : a.phase = .awaitingData → a.cnt.toNat ≤ a.pkt.length.toNat ∧ FilledFrom cfg a.cnt.toNat a.pkt
  inCrc : a.phase = .awaitingCrc → a.cnt = a.pkt.length ∧ FilledFrom cfg a.cnt.toNat a.pkt

/-- A packet that TX.FRAME sends: its image has its size and its `length` is legal (30_encoding.md R68, R69). -/
structure Sendable (cfg : Config) (p : Image) : Prop where
  sized : p.Sized cfg
  legal : p.length.toNat ≤ cfg.MAX_PAYLOAD

/-- 44_frame_tx.md R129, R132, 10_state.md R29: `tx` is a sequence of whole frames and `last_tx` is the last of them. -/
def Line.TxWhole (cfg : Config) (l : Line) : Prop :=
  ∃ sent : List Image, (∀ p ∈ sent, Sendable cfg p) ∧ l.tx = sent.flatMap wire ∧ l.lastTx = sent.getLast?

/-! ## Invariants of a line and of the machine -/

/-- What holds of a line under every setting of `INTERLEAVE`. -/
structure Line.Inv (cfg : Config) (l : Line) : Prop where
  rb_bounded : l.rb.configured = true → l.rb.Bounded
  rb_configured : l.configured = true → l.rb.configured = true
  busy_configured : l.p.busy ≠ none → l.rb.configured = true
  sentinels : l.configured = true → l.ackPkt = ackImage cfg ∧ l.retxPkt = retxImage cfg
  queue_size : isPow2 l.pq.cap = true ∧ 2 ≤ l.pq.cap
  queue : l.configured = true → l.pq.Inv
  assembler : l.configured = true → l.asm.Inv cfg
  tx_whole : l.TxWhole cfg
  queue_sized : l.configured = true → ∀ e ∈ l.pq.slot, e.2.Sized cfg

/-- 40_ring_buffer.md R88: what an RB.WRITE between its micro-steps has done. It began on a buffer that was not full and
only it sets the flag; after `w2` its byte is stored; after `w3`, cursors that are equal mean that it has filled the
buffer (70_reset_and_hazards.md R172). -/
structure Line.WriteInProgress (l : Line) : Prop where
  not_full : l.p.busy ≠ none → l.rb.full = false
  byte_stored : l.p.busy.map (·.next) = some .w3 → l.rb.buf.read l.rb.wr ≠ none
  filled : l.p.busy.map (·.next) = some .w4 → l.rb.wr = l.rb.rd → ∀ a < l.rb.cap, l.rb.buf.read a ≠ none

/-- What holds of a line besides under each of the three settings of R57: the elements a read can reach have been stored
(70_reset_and_hazards.md R173 (a)), also when an RB.WRITE is between its micro-steps, which only `concurrent` shows. -/
structure Line.Sound (m : Interleave) (l : Line) : Prop where
  setting : m ≠ .anyOrder
  busy_concurrent : m ≠ .concurrent → l.p.busy = none
  rb_stored : l.rb.configured = true → l.rb.Stored
  writing : l.WriteInProgress

/-- The parameters make an instance and every line keeps its invariant. -/
structure State.Inv (s : State) : Prop where
  valid : s.config.Valid
  lines : ∀ l ∈ s.lines, l.Inv s.config

/-- Every line is sound. -/
def State.Sound (s : State) : Prop := ∀ l ∈ s.lines, l.Sound s.config.INTERLEAVE

/-! ## What a claim takes as its premise -/

/-- No step of context P falls inside an operation of context K on this line: no RB.WRITE is in progress, and the
setting is `atomic` or the plan holds no step. -/
abbrev Quiet (m : Interleave) (l : Line) : Prop := l.p.busy = none ∧ (m = .atomic ∨ l.p.plan = [])

/-- Context `c` issues an operation on line `n`, whose state is `l`. -/
abbrev State.IssuesOn (s : State) (c : Context) (n : Nat) (l : Line) : Prop := s.ctx = c ∧ s.lines[n]? = some l

/-- The state after an operation on line `n` that leaves the line as `l` and answers `r`: nothing else changes. -/
def State.after (s : State) (n : Nat) (l : Line) (r : Response) : State :=
  (s.setLine n l).respond r

/-- Line `n` is one for which `P` holds. -/
def State.LineIs (s : State) (n : Nat) (P : Line → Prop) : Prop := ∃ l, s.lines[n]? = some l ∧ P l

/-- What an operation requires, which R160 refuses it for when it is missing: a context that may issue it (R157), a line
(R136) that is set up as far as the operation needs (R137) and on which no other RB.WRITE is in progress (R158), and its
own operands (R98, R129). Nothing in it is about what a buffer, the queue or the assembler holds, or about what another
operation has left held: no operation waits (20_memory.md R61, R65). -/
def Issuable (i : Instr) (s : State) : Prop :=
  (∀ c, i.context? = some c → s.ctx = c) ∧
  match i with
  | .rbSetup n _ => s.LineIs n fun l => l.rb.configured = false
  | .rbWrite n _ => s.LineIs n fun l => l.rb.configured = true ∧ l.p.busy = none
  | .rbRead n => s.LineIs n fun l => l.rb.configured = true
  | .rbIsEmpty n => s.LineIs n fun l => l.rb.configured = true
  | .crc8 bytes length => length ≤ bytes.length
  | .asmStep n => s.LineIs n fun l => l.configured = true
  | .asmPoll n => s.LineIs n fun l => l.configured = true
  | .pqEnq n _ => s.LineIs n fun l => l.configured = true
  | .pqDeq n => s.LineIs n fun l => l.configured = true
  | .pqAvail n => s.LineIs n fun l => l.configured = true
  | .txFrame n p => s.LineIs n fun l => l.configured = true ∧ p.length.toNat ≤ s.config.MAX_PAYLOAD
  | .txSend n _ => s.LineIs n fun l => l.configured = true
  | .lineInit n _ _ => ∀ l, s.lines[n]? = some l → l.configured = false ∧ l.rb.configured = false
  | .frameData n _ _ => s.LineIs n fun l => l.rb.configured = true ∧ l.p.busy = none
  | .frameAck n => s.LineIs n fun l => l.rb.configured = true ∧ l.p.busy = none
  | .frameRetx n => s.LineIs n fun l => l.rb.configured = true ∧ l.p.busy = none
  | .packetImage _ => True

/-! ## Programs -/

/-- The instructions of a program executed in order, each in its own context: the last state and the responses, or
the first stop. -/
def runProgram : List (Context × Instr) → State → Host.Outcome (State × List Response) Fault Refusal
  | [], s => .next (s, [])
  | (c, i) :: rest, s =>
    match exec i { s with ctx := c } with
    | .fault e => .fault e
    | .refused e => .refused e
    | .next s' =>
      match runProgram rest s' with
      | .fault e => .fault e
      | .refused e => .refused e
      | .next (t, rs) => .next (t, s'.resp :: rs)

/-- Instructions that all work on one line, each in the one context `c`. -/
def allIn (c : Context) (is : List Instr) : List (Context × Instr) := is.map fun i => (c, i)

/-- The line after `k` ASM.STEPs that all answered `Progress`; `none` if one did not. -/
def progressSteps (cfg : Config) : Nat → Line → Option Line
  | 0, l => some l
  | k + 1, l =>
    match asmStep cfg l with
    | .next (l', .progress) => progressSteps cfg k l'
    | _ => none

/-! ## What a user of the ring buffer sees (20_memory.md R59) -/

/-- The ring buffer instruction `some b` (write `b`, by context P) or `none` (read, by context K) on line `n`. -/
def ringOp (n : Nat) : Option Byte → Context × Instr
  | some b => (.producer, .rbWrite n b)
  | none => (.consumer, .rbRead n)

/-- The bytes that RB.WRITE accepted: those it answered true for. -/
def accepted : List (Option Byte) → List Response → List Byte
  | some b :: ops, .bool true :: rs => b :: accepted ops rs
  | _ :: ops, _ :: rs => accepted ops rs
  | _, _ => []

/-- The bytes that RB.READ returned. -/
def delivered : List Response → List Byte
  | .optByte (some b) :: rs => b :: delivered rs
  | _ :: rs => delivered rs
  | [] => []

/-! ## What the peer and the application see of the assembler -/

/-- The parts of a line that a received frame can change besides the assembler itself: the queued packets, the bytes
sent, the last frame sent, and the conditions raised. -/
structure LinkView where
  queue  : List Image
  tx     : List Byte
  lastTx : Option Image
  raised : List Condition
deriving DecidableEq, Repr

def Line.view (l : Line) : LinkView where
  queue  := l.pq.live
  tx     := l.tx
  lastTx := l.lastTx
  raised := l.raised

/-- 42_assembler.md R109 to R112, on the view alone: what receiving the frame of `data` and `crc` does, for a queue of
`Q` slots. -/
def LinkView.receive (cfg : Config) (Q : Nat) (v : LinkView) (frame : List Byte × Byte) : LinkView :=
  let p := fromWire cfg frame.1 frame.2
  let retx : LinkView := { v with tx := v.tx ++ retxFrame cfg, lastTx := some (retxImage cfg) }
  if p.computedCrc cfg ≠ frame.2 then { retx with raised := v.raised ++ [.frameCorruption] }
  else if frame.1 = [cfg.RETX_MARK] then retx
  else if frame.1 = [cfg.ACK_MARK] then v
  else if v.queue.length < Q - 1 then
    { v with queue := v.queue ++ [p], tx := v.tx ++ ackFrame cfg, lastTx := some (ackImage cfg) }
  else { v with raised := v.raised ++ [.queueFull] }

/-- R130, R131: the chunks of a payload, every one of `MAX_PAYLOAD` bytes but the last. -/
def chunks (cfg : Config) (P : List Byte) : List (List Byte) :=
  (List.range ((P.length + (cfg.MAX_PAYLOAD - 1)) / cfg.MAX_PAYLOAD)).map fun i =>
    (P.drop (cfg.MAX_PAYLOAD * i)).take cfg.MAX_PAYLOAD

/-- A line between frames, of an instance whose parameters make one: configured, in `AwaitingLength`, both invariants
kept, no step of context P inside an operation of context K. -/
structure BetweenFrames (cfg : Config) (l : Line) : Prop where
  valid : cfg.Valid
  configured : l.configured = true
  phase : l.asm.phase = .awaitingLength
  inv : l.Inv cfg
  sound : l.Sound cfg.INTERLEAVE
  quiet : Quiet cfg.INTERLEAVE l

end Sys2Proof.Machine
end

