-- ==== Sys2Proof/Certificates/Slice0/Obligations.lean ====
section
/-! DEFINITION. What is claimed of the model: each statement formalises rules of the spec, named in its docstring. -/

open Sys2Proof Sys2Proof.Machine

/-! ## Encoding -/

/-- For every instance of the core, every well-formed instruction is read back whole from its encoding, whatever bytes
follow. Frames and images are 30_encoding.md R68, R72, R76; the layout of a request is the model's choice, since R81 leaves
it open (DESIGN CHOICE, notes/assumptions/5.md). -/
def Obligations.DecodeOfEncodeIsIdentity : Prop :=
  ∀ (cfg : Config) (i : Instr) (rest : List Byte), cfg.Valid → i.wellFormed cfg = true →
    decode cfg i.space (encode cfg i ++ rest) = .ok (i, rest)

/-- Each byte string has at most one meaning in a space, and every instruction decoded is well-formed and encoded by
exactly the bytes it was read from. Over the request space this is about the model's own byte layout, which is the
model's choice (DESIGN CHOICE, notes/assumptions/5.md); over frames and images about 30_encoding.md R68, R72; what is
reserved or illegal (R69, R79, R83) is never read as a neighbour (that an illegal length refuses a FRAME row is the model's
choice, notes/assumptions/4.md). -/
def Obligations.EncodeOfDecodeIsIdentity : Prop :=
  ∀ (cfg : Config) (sp : Space) (bs rest : List Byte) (i : Instr), cfg.Valid → decode cfg sp bs = .ok (i, rest) →
    i.wellFormed cfg = true ∧ i.space = sp ∧ encode cfg i ++ rest = bs

/-- Words written out from the spec's tables (30_encoding.md R82, R76, R72, R68) decode to the rows they stand for. That a
word of 8 bits is a request on line 0 with operand bytes of zero, one of 128 bits an image, any other a frame, the most
significant byte first, is the model's choice (DESIGN CHOICE, notes/assumptions/6.md, with the request layout of
notes/assumptions/5.md). -/
def Obligations.TableWordsDecodeToTheirRows : Prop :=
  decodeTableWord 8 0x0 = some (.rbSetup 0 0) ∧ decodeTableWord 8 0x1 = some (.rbWrite 0 0) ∧
  decodeTableWord 8 0x2 = some (.rbRead 0) ∧ decodeTableWord 8 0x3 = some (.rbIsEmpty 0) ∧
  decodeTableWord 8 0x4 = some (.crc8 [] 0) ∧ decodeTableWord 8 0x5 = some (.asmStep 0) ∧
  decodeTableWord 8 0x6 = some (.asmPoll 0) ∧
  decodeTableWord 8 0x7 = some (.pqEnq 0 { length := 0, data := List.replicate 14 0, crc := 0 }) ∧
  decodeTableWord 8 0x8 = some (.pqDeq 0) ∧ decodeTableWord 8 0x9 = some (.pqAvail 0) ∧
  decodeTableWord 8 0xA = some (.txFrame 0 { length := 0, data := List.replicate 14 0, crc := 0 }) ∧
  decodeTableWord 8 0xB = some (.txSend 0 []) ∧
  decodeTableWord 8 0xC = some (.lineInit 0 0 false) ∧ decodeTableWord 24 0x0112C4 = some (.frameAck 0) ∧
  decodeTableWord 24 0x01117F = some (.frameRetx 0) ∧ decodeTableWord 16 0x00A3 = some (.frameData 0 [] 0xA3) ∧
  decodeTableWord 32 0x024869B3 = some (.frameData 0 [0x48, 0x69] 0xB3) ∧
  decodeTableWord 128 0x024869FFFFFFFFFFFFFFFFFFFFFFFFB3 =
    some (.packetImage { length := 2, data := [0x48, 0x69] ++ List.replicate 12 0xFF, crc := 0xB3 })

/-- 30_encoding.md R83: a request whose operation code is 0xD, 0xE or 0xF is refused with `NoSuchOperation`. -/
def Obligations.ReservedOperationCodesRefused : Prop :=
  ∀ (s : State) (c : Context) (op : Byte) (bs : List Byte) (rest : List Entry),
    0xD ≤ op.toNat → op.toNat ≤ 0xF → s.schedule = .issue c .request (op :: bs) :: rest →
    step s = .refused .noSuchOperation

/-! ## Steps -/

/-- A step runs the decoded instruction: when the next entry of the schedule holds the encoding of a well-formed
instruction, step is exec of it in the entry's context, the entry taken off the schedule. An arrival is one step of
context P on its line (20_memory.md R64), refused before the ring buffer is set up (70_reset_and_hazards.md R165,
45_line_api.md R137) and on no line (R136). The spec makes the order of operations an input (R62, R64); that State holds it
as a schedule is the model's choice (DESIGN CHOICE, notes/assumptions/3.md), and so are that an entry's bytes after the
decoded instruction are dropped (DESIGN CHOICE, notes/assumptions/5.md) and that with nothing scheduled a step changes
nothing (DEDUCED from 60_exceptions.md R162, notes/assumptions/14.md). -/
def Obligations.StepExecutesTheScheduledInstruction : Prop :=
  (∀ (s : State) (c : Context) (i : Instr) (trailing : List Byte) (rest : List Entry), s.config.Valid →
    i.wellFormed s.config = true → s.schedule = .issue c i.space (encode s.config i ++ trailing) :: rest →
    step s = exec i { s with ctx := c, schedule := rest }) ∧
  (∀ (s : State) (n : Nat) (rest : List Entry), s.schedule = .arrive n :: rest →
    (s.lines[n]? = none → step s = .refused .noSuchLine) ∧
    (∀ l : Line, s.lines[n]? = some l →
      (l.rb.configured = false → step s = .refused .notConfigured) ∧
      (l.rb.configured = true → step s =
        .next { s with
          ctx := .producer
          schedule := rest
          lines := s.lines.set n (pStep s.config.INTERLEAVE l)
          resp := .unit }))) ∧
  (∀ s : State, s.schedule = [] → step s = .next s)

/-! ## Reset -/

/-- 10_state.md R34, 70_reset_and_hazards.md R164: after power-on both bits of every line are false and `tx` is empty;
the memories hold no value. The constants have R7's values (00_scope.md) and the setting is `preempt`, R57's default
(20_memory.md). That State holds them, and the one line it has, is the model's choice (DESIGN CHOICE,
notes/assumptions/2.md), and so is the empty schedule (DESIGN CHOICE, notes/assumptions/6.md). -/
def Obligations.ResetIsPowerOn : Prop :=
  State.reset.schedule = [] ∧
  State.reset.config =
    { PACKET_DATA_LENGTH := 16, PACKET_LENGTH := 14, MAX_PAYLOAD := 14, FILL := 0xFF, RETX_MARK := 0x11,
      ACK_MARK := 0x12, CRC_POLY := 0x07, CRC_SEED := 0x00, INTERLEAVE := .preempt } ∧
  0 < State.reset.lines.length ∧
  ∀ l ∈ State.reset.lines, l.configured = false ∧ l.rb.configured = false ∧ l.tx = [] ∧
    (∀ a, l.rb.buf.read a = none) ∧ (∀ a, l.pq.slot.read a = none)

/-- The state after reset meets the invariants that every step keeps. -/
def Obligations.ResetMeetsInvariants : Prop :=
  State.reset.Inv ∧ State.reset.Sound

/-! ## Ring buffer -/

/-- 40_ring_buffer.md R95: `is_pow2` is true exactly for 1, 2, 4, 8, … -/
def Obligations.IsPow2HoldsExactlyOfPowersOfTwo : Prop :=
  ∀ c : Nat, isPow2 c = true ↔ ∃ k : Nat, c = 2 ^ k

/-- 40_ring_buffer.md R94, 10_state.md R14: a cursor advances by one and keeps the low bits, which is modulo the capacity;
it stays below it, and goes from `C - 1` to 0. -/
def Obligations.CursorAdvancesModuloCapacity : Prop :=
  ∀ C cursor : Nat, isPow2 C = true → cursor < C →
    advance cursor C = (cursor + 1) &&& (C - 1) ∧ advance cursor C = (cursor + 1) % C ∧ advance cursor C < C ∧
    advance (C - 1) C = 0

/-- 40_ring_buffer.md R87: RB.SETUP, code 0x0: refused on a ring buffer already set up; ConfigError, nothing written, for
a capacity that is not a power of two (0 is not, 1 is); else the buffer set up and empty, with no element holding a
value, and nothing else of the line changed (`line.configured` is not touched). -/
def Obligations.RbSetupSetsUpOrFails : Prop :=
  ∀ (s : State) (n c : Nat) (l : Line), s.IssuesOn .init n l →
    (l.rb.configured = true → exec (.rbSetup n c) s = .refused .alreadyConfigured) ∧
    (l.rb.configured = false → isPow2 c = false → exec (.rbSetup n c) s =
      .next { s with resp := .configError .invalidCapacity, raised := s.raised ++ [.configError .invalidCapacity] }) ∧
    (l.rb.configured = false → isPow2 c = true → exec (.rbSetup n c) s =
      .next (s.after n { l with rb := { configured := true, cap := c, wr := 0, rd := 0, full := false, buf := [] } } .ok)) ∧
    isPow2 0 = false ∧ isPow2 1 = true ∧ (encode s.config (.rbSetup n c)).head? = some 0x0

/-- 40_ring_buffer.md R88: RB.WRITE, code 0x1: on a full buffer the byte is dropped, Overrun raised, no state written
and false returned; else the byte is stored at the write cursor, the cursor advanced modulo the capacity, and the flag
set if the advanced cursor equals the read cursor. -/
def Obligations.RbWriteStoresOrDrops : Prop :=
  ∀ (s : State) (n : Nat) (b : Byte) (l : Line), s.IssuesOn .producer n l → l.rb.configured = true → l.p.busy = none →
    (l.rb.full = true → exec (.rbWrite n b) s =
      .next (s.after n ((l.raise (.overrun b)).reply false) (.bool false))) ∧
    (l.rb.full = false → exec (.rbWrite n b) s =
      .next (s.after n
        (Line.reply true { l with rb :=
          { configured := l.rb.configured, cap := l.rb.cap, wr := (l.rb.wr + 1) &&& (l.rb.cap - 1), rd := l.rb.rd,
            full := decide ((l.rb.wr + 1) &&& (l.rb.cap - 1) = l.rb.rd), buf := l.rb.buf.write l.rb.wr b } })
        (.bool true))) ∧
    (encode s.config (.rbWrite n b)).head? = some 0x1

/-- 40_ring_buffer.md R88, 60_exceptions.md R157: what RB.WRITE leaves unchanged: every other line, and of its own line
everything but the byte at the write cursor, the write cursor, the flag (set, never cleared), context P's record of
responses and the log; on a full buffer not even those but the record and the log. -/
def Obligations.RbWriteFrame : Prop :=
  ∀ (s t : State) (n : Nat) (b : Byte), exec (.rbWrite n b) s = .next t →
    (∀ k, k ≠ n → t.lines[k]? = s.lines[k]?) ∧
    t.config = s.config ∧ t.ctx = s.ctx ∧ t.schedule = s.schedule ∧ t.raised = s.raised ∧
    ∃ l l' : Line, s.lines[n]? = some l ∧ t.lines[n]? = some l' ∧
      (∀ a, (l.rb.full = true ∨ a ≠ l.rb.wr) → l'.rb.buf.read a = l.rb.buf.read a) ∧
      l'.rb.rd = l.rb.rd ∧ l'.rb.cap = l.rb.cap ∧ l'.rb.configured = l.rb.configured ∧
      (l.rb.full = true → l'.rb = l.rb) ∧ (l'.rb.full = l.rb.full ∨ l'.rb.full = true) ∧
      l'.configured = l.configured ∧ l'.ackPkt = l.ackPkt ∧ l'.retxPkt = l.retxPkt ∧ l'.asm = l.asm ∧
      l'.pq = l.pq ∧ l'.lastTx = l.lastTx ∧ l'.tx = l.tx ∧ l'.p.rx = l.p.rx ∧ l'.p.plan = l.p.plan ∧
      l'.p.busy = l.p.busy

/-- 40_ring_buffer.md R89: RB.READ, code 0x2, with no step of context P inside it: `none` and nothing written when the
cursors are equal and the flag clear; else the byte at the read cursor, the cursor advanced modulo the capacity and the
flag cleared unconditionally; a fault when the element holds no value. -/
def Obligations.RbReadReturnsTheOldestByte : Prop :=
  ∀ (s : State) (n : Nat) (l : Line), s.IssuesOn .consumer n l → l.rb.configured = true → Quiet s.config.INTERLEAVE l →
    (l.rb.rd = l.rb.wr ∧ l.rb.full = false → exec (.rbRead n) s = .next (s.after n l (.optByte none))) ∧
    (¬ (l.rb.rd = l.rb.wr ∧ l.rb.full = false) → ∀ b, l.rb.buf.read l.rb.rd = some b → exec (.rbRead n) s =
      .next (s.after n
        { l with rb :=
          { configured := l.rb.configured, cap := l.rb.cap, wr := l.rb.wr, rd := (l.rb.rd + 1) &&& (l.rb.cap - 1),
            full := false, buf := l.rb.buf } }
        (.optByte (some b)))) ∧
    (¬ (l.rb.rd = l.rb.wr ∧ l.rb.full = false) → l.rb.buf.read l.rb.rd = none →
      exec (.rbRead n) s = .fault .readOfNoValue) ∧
    (encode s.config (.rbRead n)).head? = some 0x2

/-- 70_reset_and_hazards.md R173 (a): whatever context P does inside it, RB.READ completes on a line that meets the
invariants, under each of the three settings of `INTERLEAVE`, and changes only the ring buffer, context P's own state and
the log of its line. Under `concurrent` this holds because the model follows R173, which 90_conflicts.md C13 keeps, and
leaves out the orders of R57 that would break it (DEDUCED, notes/assumptions/7.md). What context P does inside the read is
the line's `rx` and `plan` (DESIGN CHOICE, notes/assumptions/3.md). -/
def Obligations.RbReadCompletesWhateverTheProducerDoes : Prop :=
  ∀ (s : State) (n : Nat) (l : Line), s.IssuesOn .consumer n l → l.rb.configured = true → l.Inv s.config →
    l.Sound s.config.INTERLEAVE →
    ∃ (l' : Line) (r : Option Byte), exec (.rbRead n) s = .next (s.after n l' (.optByte r)) ∧
      l'.configured = l.configured ∧ l'.rb.configured = l.rb.configured ∧ l'.rb.cap = l.rb.cap ∧
      l'.ackPkt = l.ackPkt ∧ l'.retxPkt = l.retxPkt ∧ l'.asm = l.asm ∧ l'.pq = l.pq ∧ l'.lastTx = l.lastTx ∧
      l'.tx = l.tx

/-- 40_ring_buffer.md R90: RB.ISEMPTY, code 0x3, compares the cursors, as the steps of context P before `e1` leave them,
and does not look at the flag; nothing else happens, and with no such step nothing changes. -/
def Obligations.RbIsEmptyComparesTheCursors : Prop :=
  ∀ (s : State) (n : Nat) (l : Line), s.IssuesOn .consumer n l → l.rb.configured = true →
    exec (.rbIsEmpty n) s = .next (s.after n (gap s.config.INTERLEAVE l)
      (.bool (decide ((gap s.config.INTERLEAVE l).rb.rd = (gap s.config.INTERLEAVE l).rb.wr)))) ∧
    (Quiet s.config.INTERLEAVE l → exec (.rbIsEmpty n) s = .next (s.after n l (.bool (decide (l.rb.rd = l.rb.wr))))) ∧
    (encode s.config (.rbIsEmpty n)).head? = some 0x3

/-- 40_ring_buffer.md R91, 10_state.md R19: with no overlap the ring buffer is a bounded queue of `C` bytes. -/
def Obligations.RingBufferIsABoundedQueue : Prop :=
  ∀ (s : State) (n : Nat) (l : Line), s.lines[n]? = some l → l.rb.configured = true → l.Inv s.config →
    l.Sound s.config.INTERLEAVE → Quiet s.config.INTERLEAVE l →
    l.rb.live.length = l.rb.count ∧ l.rb.count ≤ l.rb.cap ∧
    (∀ b, s.ctx = .producer → l.rb.count < l.rb.cap → ∃ l' : Line,
      exec (.rbWrite n b) s = .next (s.after n l' (.bool true)) ∧ l'.rb.live = l.rb.live ++ [b] ∧
      l'.rb.count = l.rb.count + 1 ∧ (l'.rb.full = true ↔ l.rb.count + 1 = l.rb.cap) ∧ l'.rb.Bounded ∧ l'.rb.Stored) ∧
    (∀ b, s.ctx = .producer → l.rb.count = l.rb.cap → ∃ l' : Line,
      exec (.rbWrite n b) s = .next (s.after n l' (.bool false)) ∧ l'.rb = l.rb) ∧
    (s.ctx = .consumer → 0 < l.rb.count → ∃ (b : Byte) (l' : Line),
      exec (.rbRead n) s = .next (s.after n l' (.optByte (some b))) ∧ l.rb.live = b :: l'.rb.live ∧
      l'.rb.count = l.rb.count - 1 ∧ l'.rb.full = false ∧ l'.rb.Bounded ∧ l'.rb.Stored) ∧
    (s.ctx = .consumer → l.rb.count = 0 → exec (.rbRead n) s = .next (s.after n l (.optByte none)))

/-- 40_ring_buffer.md R92: from set-up the buffer reports empty, accepts exactly `C` writes, refuses the next, and
yields the bytes in order. -/
def Obligations.RingBufferHoldsExactlyItsCapacity : Prop :=
  ∀ (s : State) (n c : Nat) (l : Line) (bs : List Byte) (extra : Byte), s.lines[n]? = some l →
    l.rb.configured = false → Quiet s.config.INTERLEAVE l → isPow2 c = true → bs.length = c →
    ∃ t : State, runProgram
        ([(.init, .rbSetup n c), (.consumer, .rbIsEmpty n)] ++ allIn .producer (bs.map (.rbWrite n)) ++
          [(.producer, .rbWrite n extra)] ++ List.replicate c (.consumer, .rbRead n) ++ [(.consumer, .rbRead n)]) s =
      .next (t, [.ok, .bool true] ++ List.replicate c (.bool true) ++ [.bool false] ++
        bs.map (fun b => .optByte (some b)) ++ [.optByte none])

/-- 40_ring_buffer.md R93, 20_memory.md R59: with no overlap, whatever the order of reads and writes, the bytes live at
the start followed by those accepted are the bytes returned followed by those live at the end: each once, in order. -/
def Obligations.RingBufferDeliversInOrder : Prop :=
  ∀ (ops : List (Option Byte)) (s : State) (n : Nat) (l : Line), s.lines[n]? = some l → l.rb.configured = true →
    l.Inv s.config → l.Sound s.config.INTERLEAVE → Quiet s.config.INTERLEAVE l →
    ∃ (t : State) (rs : List Response) (l' : Line), runProgram (ops.map (ringOp n)) s = .next (t, rs) ∧
      t.lines[n]? = some l' ∧ l.rb.live ++ accepted ops rs = delivered rs ++ l'.rb.live

/-! ## CRC-8 -/

/-- 41_crc8.md R97: the running value XOR the byte, then eight rounds of shift, with XOR of the polynomial when the high
bit was set; the rule's two examples, with the default polynomial. -/
def Obligations.Crc8UpdateIsEightRounds : Prop :=
  (∀ (cfg : Config) (c b : Byte), crc8Upd cfg c b =
    (fun x : Byte =>
      if x.toNat / 128 = 1 then BitVec.ofNat 8 (x.toNat * 2) ^^^ cfg.CRC_POLY else BitVec.ofNat 8 (x.toNat * 2))^[8]
      (c ^^^ b)) ∧
  crc8Upd Config.default 0x00 0x01 = 0x07 ∧ crc8Upd Config.default 0x00 0x80 = 0x89

/-- 41_crc8.md R98, R99, R102: CRC8, code 0x4, answers the fold of the update step over the first `length` bytes from the
seed, in any context and with no effect on any state; a count beyond the sequence is refused; with the default seed
leading zero bytes do not count; the reference value, and the value over the nine ASCII digits. -/
def Obligations.Crc8AnswersThePureFunction : Prop :=
  (∀ (s : State) (bytes : List Byte) (length : Nat),
    (length ≤ bytes.length →
      exec (.crc8 bytes length) s = .next { s with resp := .byte (crc8 s.config bytes length) }) ∧
    (bytes.length < length → exec (.crc8 bytes length) s = .refused .badRange) ∧
    crc8 s.config bytes 0 = s.config.CRC_SEED ∧
    (∀ h : length < bytes.length,
      crc8 s.config bytes (length + 1) = crc8Upd s.config (crc8 s.config bytes length) bytes[length]) ∧
    (s.config.CRC_SEED = 0x00 → ∀ k, crc8 s.config (0x00 :: bytes) (k + 1) = crc8 s.config bytes k) ∧
    (encode s.config (.crc8 bytes length)).head? = some 0x4) ∧
  crc8 Config.default [0x01, 0x02, 0x03] 3 = 0x48 ∧
  crc8 Config.default [0x31, 0x32, 0x33, 0x34, 0x35, 0x36, 0x37, 0x38, 0x39] 9 = 0xF4

/-- 41_crc8.md R101, of the polynomial and the seed it names: (a) the CRC of a byte-wise XOR is the XOR of the CRCs; (b) a
sequence followed by its CRC has CRC 0; (c) a change of any single bit of the input changes the output; (d) the bytes past
the count do not matter. -/
def Obligations.Crc8IsLinearAndSeesEverySingleBit : Prop :=
  ∀ cfg : Config, cfg.CRC_POLY = 0x07 → cfg.CRC_SEED = 0x00 →
  (∀ a b : List Byte, a.length = b.length →
    crc8 cfg (List.zipWith (· ^^^ ·) a b) a.length = crc8 cfg a a.length ^^^ crc8 cfg b b.length) ∧
  (∀ m : List Byte, crc8 cfg (m ++ [crc8 cfg m m.length]) (m.length + 1) = 0x00) ∧
  (∀ (m : List Byte) (i bit : Nat) (h : i < m.length), bit < 8 →
    crc8 cfg (m.set i (m[i] ^^^ BitVec.twoPow 8 bit)) m.length ≠ crc8 cfg m m.length) ∧
  (∀ m tail : List Byte, crc8 cfg (m ++ tail) m.length = crc8 cfg m m.length)

/-! ## Images and frames -/

/-- 30_encoding.md R75: `mkpkt` writes the count, the payload, `FILL` and the CRC of the first `PACKET_LENGTH` bytes; the
rule's example with the defaults, image and frame. -/
def Obligations.MkpktBuildsTheImage : Prop :=
  (∀ (cfg : Config) (P : List Byte), cfg.Valid → P.length ≤ cfg.MAX_PAYLOAD →
    (mkpkt cfg P).bytes = BitVec.ofNat 8 P.length ::
      (P ++ List.replicate (cfg.MAX_PAYLOAD - P.length) cfg.FILL ++ [(mkpkt cfg P).crc]) ∧
    (mkpkt cfg P).crc = crc8 cfg (mkpkt cfg P).bytes cfg.PACKET_LENGTH ∧
    (mkpkt cfg P).bytes.length = cfg.PACKET_DATA_LENGTH) ∧
  (mkpkt Config.default [0x48, 0x69]).bytes = [0x02, 0x48, 0x69] ++ List.replicate 12 0xFF ++ [0xB3] ∧
  wire (mkpkt Config.default [0x48, 0x69]) = [0x02, 0x48, 0x69, 0xB3]

/-- 44_frame_tx.md R128, 30_encoding.md R72, R74: the frame of a payload is its count, its bytes and the CRC, `length + 2`
bytes, and pads are not sent; the image rebuilt from a frame has the count, the data bytes, `FILL` and the CRC byte, so
from the frame of a payload it is the payload's image. -/
def Obligations.FrameCarriesAPayloadWithoutItsPads : Prop :=
  ∀ (cfg : Config) (P : List Byte) (c : Byte), cfg.Valid → P.length ≤ cfg.MAX_PAYLOAD →
    wire (mkpkt cfg P) = BitVec.ofNat 8 P.length :: (P ++ [crc8 cfg (mkpkt cfg P).bytes cfg.PACKET_LENGTH]) ∧
    (wire (mkpkt cfg P)).length = P.length + 2 ∧
    (fromWire cfg P c).bytes =
      BitVec.ofNat 8 P.length :: (P ++ List.replicate (cfg.MAX_PAYLOAD - P.length) cfg.FILL ++ [c]) ∧
    fromWire cfg P (mkpkt cfg P).crc = mkpkt cfg P

/-- 30_encoding.md R76, R80, 10_state.md R21: the sentinel images and their frames follow from the marker, `FILL` and the
CRC, whatever values an instance gives them; with the defaults they are the bytes the rule and the opcode table write. -/
def Obligations.SentinelImagesAndFrames : Prop :=
  (∀ cfg : Config, cfg.Valid →
    (ackImage cfg).bytes = [0x01, cfg.ACK_MARK] ++ List.replicate (cfg.MAX_PAYLOAD - 1) cfg.FILL ++ [(ackImage cfg).crc] ∧
    (retxImage cfg).bytes =
      [0x01, cfg.RETX_MARK] ++ List.replicate (cfg.MAX_PAYLOAD - 1) cfg.FILL ++ [(retxImage cfg).crc] ∧
    (ackImage cfg).crc = crc8 cfg (ackImage cfg).bytes cfg.PACKET_LENGTH ∧
    (retxImage cfg).crc = crc8 cfg (retxImage cfg).bytes cfg.PACKET_LENGTH ∧
    ackFrame cfg = [0x01, cfg.ACK_MARK, (ackImage cfg).crc] ∧ retxFrame cfg = [0x01, cfg.RETX_MARK, (retxImage cfg).crc]) ∧
  (ackImage Config.default).bytes = [0x01, 0x12] ++ List.replicate 13 0xFF ++ [0xC4] ∧
  (retxImage Config.default).bytes = [0x01, 0x11] ++ List.replicate 13 0xFF ++ [0x7F] ∧
  ackFrame Config.default = [0x01, 0x12, 0xC4] ∧ retxFrame Config.default = [0x01, 0x11, 0x7F]

/-- 30_encoding.md R77, R78: the four classes of an image, in their order, equality being of all its bytes; for an image
that came over the wire the comparison with a sentinel reduces to the length and the marker byte. PACKET.IMAGE answers the
class and changes nothing else (the model's choice, DESIGN CHOICE, notes/assumptions/4.md). -/
def Obligations.ClassOfAReceivedImage : Prop :=
  (∀ (s : State) (p : Image), s.config.Valid → p.Sized s.config →
    ∃ c : FrameClass, exec (.packetImage p) s = .next { s with resp := .frameClass c } ∧
      (c = .corrupt ↔ crc8 s.config p.bytes s.config.PACKET_LENGTH ≠ p.crc) ∧
      (c = .retx ↔ crc8 s.config p.bytes s.config.PACKET_LENGTH = p.crc ∧ p.bytes = (retxImage s.config).bytes) ∧
      (c = .ack ↔ crc8 s.config p.bytes s.config.PACKET_LENGTH = p.crc ∧ p.bytes = (ackImage s.config).bytes)) ∧
  (∀ (cfg : Config) (data : List Byte) (crc : Byte), cfg.Valid → data.length ≤ cfg.MAX_PAYLOAD →
    crc8 cfg (fromWire cfg data crc).bytes cfg.PACKET_LENGTH = crc →
      (fromWire cfg data crc = retxImage cfg ↔ data = [cfg.RETX_MARK]) ∧
      (fromWire cfg data crc = ackImage cfg ↔ data = [cfg.ACK_MARK]))

/-- 70_reset_and_hazards.md R176, 90_conflicts.md C1, with the defaults: `data[13]` is outside the CRC; every other payload
bit is covered. -/
def Obligations.OnlyTheFourteenthPayloadByteIsUncovered : Prop :=
  ∀ p : Image, p.Sized Config.default →
    (∀ b : Byte,
      ({ p with data := p.data.set 13 b } : Image).computedCrc Config.default = p.computedCrc Config.default) ∧
    (∀ (i bit : Nat) (h : i < p.data.length), i < 13 → bit < 8 →
      ({ p with data := p.data.set i (p.data[i] ^^^ BitVec.twoPow 8 bit) } : Image).computedCrc Config.default ≠
        p.computedCrc Config.default)

/-! ## Packet assembler -/

/-- 42_assembler.md R104, R105: in `AwaitingLength` any byte read is taken as the length, the data bytes are all set to
`FILL`, the counter to 0, and the phase becomes `AwaitingData`; with no byte nothing of the line but what the read itself
did changes. -/
def Obligations.AsmTakesALengthByte : Prop :=
  ∀ (s : State) (n : Nat) (l l' : Line), s.IssuesOn .consumer n l → l.configured = true →
    l.asm.phase = .awaitingLength →
    (∀ b, rbRead s.config.INTERLEAVE l = .next (l', some b) → exec (.asmStep n) s =
      .next (s.after n
        { l' with asm :=
          { phase := .awaitingData,
            pkt := { length := b, data := List.replicate s.config.MAX_PAYLOAD s.config.FILL, crc := l.asm.pkt.crc },
            cnt := 0 } }
        (.mark .progress))) ∧
    (rbRead s.config.INTERLEAVE l = .next (l', none) → exec (.asmStep n) s = .next (s.after n l' (.mark .idle)))

/-- 42_assembler.md R106, R107: in `AwaitingData` a byte read is stored at the counter, which is incremented; with no
byte the assembler is suspended in place; once the counter has reached `length` the phase becomes `AwaitingCrc` with no
byte read; a data byte past the `MAX_PAYLOAD` there is room for faults, whatever the buffer holds. -/
def Obligations.AsmTakesADataByte : Prop :=
  ∀ (s : State) (n : Nat) (l l' : Line), s.IssuesOn .consumer n l → l.configured = true →
    l.asm.phase = .awaitingData →
    (l.asm.cnt.toNat < l.asm.pkt.length.toNat → l.asm.cnt.toNat < s.config.MAX_PAYLOAD →
      (∀ b, rbRead s.config.INTERLEAVE l = .next (l', some b) → exec (.asmStep n) s =
        .next (s.after n
          { l' with asm :=
            { phase := .awaitingData
              pkt := { length := l.asm.pkt.length
                       data := l.asm.pkt.data.set l.asm.cnt.toNat b
                       crc := l.asm.pkt.crc }
              cnt := l.asm.cnt + 1 } }
          (.mark .progress))) ∧
      (rbRead s.config.INTERLEAVE l = .next (l', none) → exec (.asmStep n) s = .next (s.after n l' (.mark .idle)))) ∧
    (l.asm.cnt.toNat < l.asm.pkt.length.toNat → s.config.MAX_PAYLOAD ≤ l.asm.cnt.toNat →
      exec (.asmStep n) s = .fault .lengthOutOfRange) ∧
    (l.asm.pkt.length.toNat ≤ l.asm.cnt.toNat → exec (.asmStep n) s =
      .next (s.after n { l with asm := { phase := .awaitingCrc, pkt := l.asm.pkt, cnt := l.asm.cnt } }
        (.mark .progress))) ∧
    (encode s.config (.asmStep n)).head? = some 0x5

/-- 42_assembler.md R108 to R112, R116: in `AwaitingCrc`, with no byte, nothing of the line but what the read itself did
changes and the answer is `Idle`; a byte read becomes the `crc`, the phase `AwaitingLength`, and the frame is, in this
order: corrupt (FrameCorruption raised, a RETX frame sent), the RETX sentinel (a RETX frame sent), the ACK sentinel
(nothing), or ordinary (queued and an ACK frame sent, or on a full queue dropped, QueueFull raised and nothing sent). That
a RETX frame is answered by a RETX frame is the spec's decision D25 (R110). -/
def Obligations.AsmCompletesAFrame : Prop :=
  ∀ (s : State) (n : Nat) (l l' : Line), s.IssuesOn .consumer n l → s.config.Valid → l.configured = true →
    l.asm.phase = .awaitingCrc → l.ackPkt = ackImage s.config → l.retxPkt = retxImage s.config →
    (rbRead s.config.INTERLEAVE l = .next (l', none) → exec (.asmStep n) s = .next (s.after n l' (.mark .idle))) ∧
    ∀ b, rbRead s.config.INTERLEAVE l = .next (l', some b) →
      let pkt : Image := { length := l.asm.pkt.length, data := l.asm.pkt.data, crc := b }
      let done : Line := { l' with asm := { phase := .awaitingLength, pkt := pkt, cnt := l.asm.cnt } }
      let sentRetx : Line := { done with tx := l.tx ++ retxFrame s.config, lastTx := some (retxImage s.config) }
      (crc8 s.config pkt.bytes s.config.PACKET_LENGTH ≠ b → exec (.asmStep n) s =
        .next (s.after n { sentRetx with raised := l'.raised ++ [.frameCorruption] } (.mark .progress))) ∧
      (crc8 s.config pkt.bytes s.config.PACKET_LENGTH = b → pkt = retxImage s.config →
        exec (.asmStep n) s = .next (s.after n sentRetx (.mark .progress))) ∧
      (crc8 s.config pkt.bytes s.config.PACKET_LENGTH = b → pkt = ackImage s.config →
        exec (.asmStep n) s = .next (s.after n done (.mark .progress))) ∧
      (crc8 s.config pkt.bytes s.config.PACKET_LENGTH = b → pkt ≠ retxImage s.config → pkt ≠ ackImage s.config →
        ((l.pq.wr + 1) &&& (l.pq.cap - 1) ≠ l.pq.rd → exec (.asmStep n) s =
          .next (s.after n
            { done with
              pq := { cap := l.pq.cap, slot := l.pq.slot.write l.pq.wr pkt, wr := (l.pq.wr + 1) &&& (l.pq.cap - 1),
                      rd := l.pq.rd }
              tx := l.tx ++ ackFrame s.config
              lastTx := some (ackImage s.config) }
            (.mark .progress))) ∧
        ((l.pq.wr + 1) &&& (l.pq.cap - 1) = l.pq.rd → exec (.asmStep n) s =
          .next (s.after n { done with raised := l'.raised ++ [.queueFull] } (.mark .progress))))

/-- 42_assembler.md R115: an unrecognised phase raises ProtocolDesync and becomes `AwaitingLength`; no byte is read,
nothing is sent or queued. -/
def Obligations.AsmRecoversFromAnUnrecognisedPhase : Prop :=
  ∀ (s : State) (n : Nat) (l : Line), s.IssuesOn .consumer n l → l.configured = true → l.asm.phase = .unrecognised →
    exec (.asmStep n) s =
      .next (s.after n
        { l with
          asm := { phase := .awaitingLength, pkt := l.asm.pkt, cnt := l.asm.cnt }
          raised := l.raised ++ [.protocolDesync] }
        (.mark .progress))

/-- 42_assembler.md R103, R107, 70_reset_and_hazards.md R173 (a): whatever context P does inside it, under each of the
three settings of `INTERLEAVE`, ASM.STEP completes on a configured line that meets the invariants, in every phase, unless a
data byte past the room there is for one is due; it writes neither a sentinel nor the capacities. Under `concurrent` this
holds because the model follows R173, which 90_conflicts.md C13 keeps, and leaves out the orders of R57 that would break it
(DEDUCED, notes/assumptions/7.md). -/
def Obligations.AsmStepCompletesUnlessALengthIsOutOfRange : Prop :=
  ∀ (s : State) (n : Nat) (l : Line), s.IssuesOn .consumer n l → s.config.Valid → l.configured = true →
    l.Inv s.config → l.Sound s.config.INTERLEAVE →
    (¬ (l.asm.phase = .awaitingData ∧ l.asm.cnt.toNat < l.asm.pkt.length.toNat ∧
        s.config.MAX_PAYLOAD ≤ l.asm.cnt.toNat) →
      ∃ (l' : Line) (m : Mark), exec (.asmStep n) s = .next (s.after n l' (.mark m)) ∧
        l'.configured = l.configured ∧ l'.rb.configured = l.rb.configured ∧ l'.rb.cap = l.rb.cap ∧
        l'.ackPkt = l.ackPkt ∧ l'.retxPkt = l.retxPkt ∧ l'.pq.cap = l.pq.cap ∧ l'.pq.rd = l.pq.rd)

/-- 42_assembler.md R113: ASM.POLL, code 0x6, is ASM.STEP repeated until one answers `Idle`; a fault of one of them is a
fault of ASM.POLL and the only one there is. From a state that meets the invariants both hold without a bound. In any
other state a poll may be cut at the model's own step bound, and then answers the mark `Progress` (the model's choice,
DESIGN CHOICE, notes/assumptions/12.md). For `concurrent` the invariants are kept as notes/assumptions/7.md says (DEDUCED). -/
def Obligations.AsmPollRepeatsStepsUntilIdle : Prop :=
  (∀ (s : State) (n : Nat) (l : Line), s.IssuesOn .consumer n l → s.config.Valid → l.configured = true →
    l.Inv s.config → l.Sound s.config.INTERLEAVE →
    (∀ t : State, exec (.asmPoll n) s = .next t ↔
      ∃ (last l' : Line) (k : Nat), progressSteps s.config k l = some last ∧
        asmStep s.config last = .next (l', .idle) ∧ t = s.after n l' .unit) ∧
    (∀ e : Fault, exec (.asmPoll n) s = .fault e ↔
      ∃ (last : Line) (k : Nat), progressSteps s.config k l = some last ∧ asmStep s.config last = .fault e)) ∧
  (∀ (s t : State) (n : Nat), exec (.asmPoll n) s = .next t →
    ∃ (l last : Line) (k : Nat), s.lines[n]? = some l ∧ progressSteps s.config k l = some last ∧
      ((∃ l' : Line, asmStep s.config last = .next (l', .idle) ∧ t = s.after n l' .unit) ∨
        t = s.after n last (.mark .progress))) ∧
  (∀ (s : State) (n : Nat) (e : Fault), exec (.asmPoll n) s = .fault e →
    ∃ (l last : Line) (k : Nat), s.lines[n]? = some l ∧ progressSteps s.config k l = some last ∧
      asmStep s.config last = .fault e) ∧
  (∀ (cfg : Config) (n : Nat), (encode cfg (.asmPoll n)).head? = some 0x6)

/-- 42_assembler.md R114: with no step of context P inside it, ASM.POLL ends, at `Idle` or in a fault, after at most
`2 * rb_count + 2` ASM.STEPs. With steps of context P inside it, it ends too, under each of the three settings of
`INTERLEAVE`: R114 says that its ending is then "not a rule of the core" but a fairness assumption about P; here it rests on
the model's choice that the bytes P can still deliver and the plan of its steps are finite lists (DESIGN CHOICE,
notes/assumptions/3.md), for which the model's step bound suffices (notes/assumptions/12.md); for `concurrent` it rests
on notes/assumptions/7.md as well (DEDUCED). -/
def Obligations.AsmPollEnds : Prop :=
  ∀ (cfg : Config) (l : Line), cfg.Valid → l.configured = true → l.Inv cfg → l.Sound cfg.INTERLEAVE →
    (Quiet cfg.INTERLEAVE l →
      (∃ l' : Line, asmPollUpTo cfg (2 * l.rb.count + 2) l = .next (l', .idle)) ∨
        asmPollUpTo cfg (2 * l.rb.count + 2) l = .fault .lengthOutOfRange) ∧
    ((∃ l' : Line, asmPoll cfg l = .next (l', .idle)) ∨ asmPoll cfg l = .fault .lengthOutOfRange)

/-- 42_assembler.md R104 to R113, R118: ASM.POLL on a buffer that holds any number of whole frames completes; each frame
is received in order, by its class; the queue, the sent bytes, the last frame sent and the conditions raised are those
of receiving the frames one by one, the buffer is left empty and the assembler between frames. -/
def Obligations.AsmPollReceivesEveryWholeFrame : Prop :=
  ∀ (s : State) (n : Nat) (l : Line) (frames : List (List Byte × Byte)), s.IssuesOn .consumer n l →
    BetweenFrames s.config l → (∀ f ∈ frames, f.1.length ≤ s.config.MAX_PAYLOAD) →
    l.rb.live = frames.flatMap (fun f => frameBytes f.1 f.2) →
    ∃ l' : Line, exec (.asmPoll n) s = .next (s.after n l' .unit) ∧ BetweenFrames s.config l' ∧ l'.rb.live = [] ∧
      l'.view = frames.foldl (LinkView.receive s.config l.pq.cap) l.view

/-- 42_assembler.md R119: (a) a payload that is not a sentinel's, framed and fed through the assembler, is queued exactly
once, as its image, and acknowledged; (b) with the CRC byte of a transmitted frame changed, the frame is discarded, one
RETX frame is sent and the queue gains nothing; (c) a frame with a sentinel payload is never queued, whatever its CRC
byte; (d) with the queue full a valid ordinary frame is dropped and nothing is sent. -/
def Obligations.AsmRoundTripCorruptionSentinelsAndBackpressure : Prop :=
  ∀ (s : State) (n : Nat) (l : Line) (P : List Byte) (c : Byte), s.IssuesOn .consumer n l →
    BetweenFrames s.config l → P.length ≤ s.config.MAX_PAYLOAD → l.rb.live = frameBytes P c →
    (P ≠ [s.config.RETX_MARK] → P ≠ [s.config.ACK_MARK] → c = (mkpkt s.config P).crc → l.pq.isFull = false →
      ∃ l' : Line, exec (.asmPoll n) s = .next (s.after n l' .unit) ∧ l'.pq.live = l.pq.live ++ [mkpkt s.config P] ∧
        l'.tx = l.tx ++ ackFrame s.config ∧ l'.raised = l.raised) ∧
    (c ≠ (mkpkt s.config P).crc →
      ∃ l' : Line, exec (.asmPoll n) s = .next (s.after n l' .unit) ∧ l'.pq = l.pq ∧
        l'.tx = l.tx ++ retxFrame s.config ∧ l'.lastTx = some (retxImage s.config) ∧
        l'.raised = l.raised ++ [.frameCorruption]) ∧
    (P = [s.config.RETX_MARK] ∨ P = [s.config.ACK_MARK] →
      ∃ l' : Line, exec (.asmPoll n) s = .next (s.after n l' .unit) ∧ l'.pq = l.pq) ∧
    (P ≠ [s.config.RETX_MARK] → P ≠ [s.config.ACK_MARK] → c = (mkpkt s.config P).crc → l.pq.isFull = true →
      ∃ l' : Line, exec (.asmPoll n) s = .next (s.after n l' .unit) ∧ l'.pq = l.pq ∧ l'.tx = l.tx ∧
        l'.lastTx = l.lastTx ∧ l'.raised = l.raised ++ [.queueFull])

/-! ## Packet queue -/

/-- 43_packet_queue.md R121: PQ.ENQ, code 0x7: false and nothing written when the next write index would equal the read
index, else the packet stored as given at the write index and the index advanced. -/
def Obligations.PqEnqStoresOrRefuses : Prop :=
  ∀ (s : State) (n : Nat) (p : Image) (l : Line), s.IssuesOn .consumer n l → l.configured = true →
    ((l.pq.wr + 1) &&& (l.pq.cap - 1) = l.pq.rd → exec (.pqEnq n p) s = .next (s.after n l (.bool false))) ∧
    ((l.pq.wr + 1) &&& (l.pq.cap - 1) ≠ l.pq.rd → exec (.pqEnq n p) s =
      .next (s.after n
        { l with pq := { cap := l.pq.cap, slot := l.pq.slot.write l.pq.wr p, wr := (l.pq.wr + 1) &&& (l.pq.cap - 1),
                         rd := l.pq.rd } }
        (.bool true))) ∧
    (encode s.config (.pqEnq n p)).head? = some 0x7

/-- 43_packet_queue.md R122: PQ.DEQ, code 0x8: `none` and nothing written when the indices are equal, else the packet at
the read index and the index advanced; the slot is not cleared. -/
def Obligations.PqDeqReturnsTheOldestPacket : Prop :=
  ∀ (s : State) (n : Nat) (l : Line), s.IssuesOn .consumer n l → l.configured = true →
    (l.pq.rd = l.pq.wr → exec (.pqDeq n) s = .next (s.after n l (.optPacket none))) ∧
    (l.pq.rd ≠ l.pq.wr → ∀ p, l.pq.slot.read l.pq.rd = some p → exec (.pqDeq n) s =
      .next (s.after n
        { l with pq := { cap := l.pq.cap, slot := l.pq.slot, wr := l.pq.wr, rd := (l.pq.rd + 1) &&& (l.pq.cap - 1) } }
        (.optPacket (some p)))) ∧
    (encode s.config (.pqDeq n)).head? = some 0x8

/-- 43_packet_queue.md R123: PQ.AVAIL, code 0x9: the indices differ; nothing changes, whatever waits in the ring buffer. -/
def Obligations.PqAvailComparesTheIndices : Prop :=
  ∀ (s : State) (n : Nat) (l : Line), s.IssuesOn .consumer n l → l.configured = true →
    exec (.pqAvail n) s = .next (s.after n l (.bool (decide (l.pq.rd ≠ l.pq.wr)))) ∧
    (encode s.config (.pqAvail n)).head? = some 0x9

/-- 43_packet_queue.md R124, R125, 10_state.md R28: the queue is a bounded queue of `Q - 1` packets; a packet refused
leaves no trace; PQ.AVAIL is true exactly when PQ.DEQ returns a packet. -/
def Obligations.PacketQueueIsABoundedQueue : Prop :=
  ∀ (s : State) (n : Nat) (l : Line), s.IssuesOn .consumer n l → l.configured = true → l.pq.Inv →
    l.pq.live.length = l.pq.count ∧ l.pq.count ≤ l.pq.cap - 1 ∧
    (∀ p, l.pq.count < l.pq.cap - 1 → ∃ l' : Line, exec (.pqEnq n p) s = .next (s.after n l' (.bool true)) ∧
      l'.pq.live = l.pq.live ++ [p] ∧ l'.pq.Inv) ∧
    (∀ p, l.pq.count = l.pq.cap - 1 → exec (.pqEnq n p) s = .next (s.after n l (.bool false))) ∧
    (0 < l.pq.count → exec (.pqAvail n) s = .next (s.after n l (.bool true)) ∧
      ∃ (p : Image) (l' : Line), exec (.pqDeq n) s = .next (s.after n l' (.optPacket (some p))) ∧
        l.pq.live = p :: l'.pq.live ∧ l'.pq.Inv) ∧
    (l.pq.count = 0 → exec (.pqAvail n) s = .next (s.after n l (.bool false)) ∧
      exec (.pqDeq n) s = .next (s.after n l (.optPacket none)))

/-! ## Transmit path -/

/-- 44_frame_tx.md R129: TX.FRAME, code 0xA: refused for a `length` above `MAX_PAYLOAD`; else `length`, the declared
data bytes and the `crc` of the image as given are appended to `tx` in this order, and the whole image is cached; nothing
else changes. -/
def Obligations.TxFrameSendsAndRemembers : Prop :=
  ∀ (s : State) (n : Nat) (p : Image) (l : Line), s.IssuesOn .consumer n l → l.configured = true →
    (s.config.MAX_PAYLOAD < p.length.toNat → exec (.txFrame n p) s = .refused .frameTooLong) ∧
    (p.length.toNat ≤ s.config.MAX_PAYLOAD → exec (.txFrame n p) s =
      .next (s.after n
        { l with tx := l.tx ++ ([p.length] ++ p.data.take p.length.toNat ++ [p.crc]), lastTx := some p }
        .unit)) ∧
    (encode s.config (.txFrame n p)).head? = some 0xA

/-- 44_frame_tx.md R130, R131: TX.SEND, code 0xB: the payload is cut into chunks of `MAX_PAYLOAD` bytes, the last one
shorter, each sent as the frame of its image in order; `last_tx` holds the last chunk's packet; an empty payload sends
nothing. `L` bytes go in `ceil(L / MAX_PAYLOAD)` frames and `L + 2 * ceil(L / MAX_PAYLOAD)` bytes; with the default, thirty
in three frames of 14, 14 and 2. -/
def Obligations.TxSendSplitsAPayload : Prop :=
  (∀ (s : State) (n : Nat) (P : List Byte) (l : Line), s.IssuesOn .consumer n l → s.config.Valid →
    l.configured = true →
    exec (.txSend n P) s =
      .next (s.after n
        { l with
          tx := l.tx ++ (chunks s.config P).flatMap (fun c => wire (mkpkt s.config c))
          lastTx := if P = [] then l.lastTx else ((chunks s.config P).map (mkpkt s.config)).getLast? }
        .unit) ∧
    (encode s.config (.txSend n P)).head? = some 0xB) ∧
  (∀ (cfg : Config) (P : List Byte), cfg.Valid →
    (chunks cfg P).flatten = P ∧
    (chunks cfg P).length = (P.length + (cfg.MAX_PAYLOAD - 1)) / cfg.MAX_PAYLOAD ∧
    (∀ c ∈ (chunks cfg P).dropLast, c.length = cfg.MAX_PAYLOAD) ∧
    (∀ c ∈ chunks cfg P, 1 ≤ c.length ∧ c.length ≤ cfg.MAX_PAYLOAD) ∧
    ((chunks cfg P).flatMap (fun c => wire (mkpkt cfg c))).length =
      P.length + 2 * ((P.length + (cfg.MAX_PAYLOAD - 1)) / cfg.MAX_PAYLOAD)) ∧
  (∀ P : List Byte, P.length = 30 → (chunks Config.default P).map List.length = [14, 14, 2])

/-- 10_state.md R29, R30, 44_frame_tx.md R132: whatever a well-formed instruction does to a line, `tx` gains whole frames
only, and when it gains any, `last_tx` is the last of them; LINE.INIT alone empties both. -/
def Obligations.SentBytesAreWholeFrames : Prop :=
  ∀ (s t : State) (i : Instr) (k : Nat) (l l' : Line), s.Inv → i.wellFormed s.config = true → exec i s = .next t →
    s.lines[k]? = some l → t.lines[k]? = some l' → (∀ c a, i ≠ .lineInit k c a) →
    ∃ sent : List Image, (∀ p ∈ sent, Sendable s.config p) ∧ l'.tx = l.tx ++ sent.flatMap wire ∧
      l'.lastTx = sent.getLast?.or l.lastTx

/-! ## Initialisation and contracts -/

/-- 45_line_api.md R135: LINE.INIT, code 0xC, with its checks in order; on success every element has its initial value;
`asm.pkt` is not written. -/
def Obligations.LineInitInitialisesOrFails : Prop :=
  ∀ (s : State) (n c : Nat) (a : Bool), s.ctx = .init →
    (s.lines[n]? = none → exec (.lineInit n c a) s =
      .next { s with resp := .configError .invalidLine, raised := s.raised ++ [.configError .invalidLine] }) ∧
    (∀ l : Line, s.lines[n]? = some l → (l.configured = true ∨ l.rb.configured = true) →
      exec (.lineInit n c a) s = .refused .alreadyConfigured) ∧
    (∀ l : Line, s.lines[n]? = some l → l.configured = false → l.rb.configured = false →
      (isPow2 c = false → exec (.lineInit n c a) s =
        .next { s with resp := .configError .invalidCapacity, raised := s.raised ++ [.configError .invalidCapacity] }) ∧
      (isPow2 c = true → a = false → exec (.lineInit n c a) s =
        .next { s with
          resp := .configError .allocationFailure, raised := s.raised ++ [.configError .allocationFailure] }) ∧
      (isPow2 c = true → a = true → exec (.lineInit n c a) s =
        .next (s.after n
          { l with
            configured := true
            rb := { configured := true, cap := c, wr := 0, rd := 0, full := false, buf := [] }
            ackPkt := mkpkt s.config [s.config.ACK_MARK]
            retxPkt := mkpkt s.config [s.config.RETX_MARK]
            asm := { phase := .awaitingLength, pkt := l.asm.pkt, cnt := 0 }
            pq := { cap := l.pq.cap, slot := [], wr := 0, rd := 0 }
            lastTx := none
            tx := [] }
          .ok))) ∧
    (encode s.config (.lineInit n c a)).head? = some 0xC

/-- 70_reset_and_hazards.md R166: the first operations after bring-up. -/
def Obligations.FirstOperationsAfterBringUp : Prop :=
  ∀ (s : State) (n c : Nat) (l : Line), s.lines[n]? = some l → l.configured = false → l.rb.configured = false →
    Quiet s.config.INTERLEAVE l → isPow2 c = true →
    ∃ (t : State) (l' : Line), runProgram
        [(.init, .lineInit n c true), (.consumer, .rbRead n), (.consumer, .rbIsEmpty n), (.consumer, .pqAvail n),
         (.consumer, .pqDeq n), (.consumer, .asmStep n), (.consumer, .asmPoll n), (.consumer, .pqDeq n)] s =
      .next (t, [.ok, .optByte none, .bool true, .bool false, .optPacket none, .mark .idle, .unit, .optPacket none]) ∧
      t.lines[n]? = some l' ∧ l'.tx = []


/-- 30_encoding.md R86, 45_line_api.md R138 to R141: each pseudo-operation is the operations it expands to, the response
the last one's. -/
def Obligations.PseudoOperationsAreTheirExpansions : Prop :=
  ∀ (s : State) (n : Nat) (bytes : List Byte) (l : Line), s.IssuesOn .consumer n l →
    (∀ t, execPseudo (.readNextPacket n) s = .next t ↔
      ∃ r, runProgram [(.consumer, .asmPoll n), (.consumer, .pqDeq n)] s = .next (t, [r, t.resp])) ∧
    execPseudo (.sendText n bytes) s = exec (.txSend n bytes) s ∧
    execPseudo (.packetAvailable n) s = exec (.pqAvail n) s ∧
    execPseudo (.dequeuePacket n) s = exec (.pqDeq n) s ∧
    execPseudo (.sendAck n) s = exec (.txFrame n l.ackPkt) s ∧
    execPseudo (.sendRetx n) s = exec (.txFrame n l.retxPkt) s

/-- 60_exceptions.md R157, R158: an instruction issued by a context the table of R157 does not allow is refused with
`WrongContext`; so is a write while another one is in progress. That this reason comes first, whatever the line, its set-up
or the operands, is the model's choice of the order in which reasons are named (DESIGN CHOICE, notes/assumptions/8.md), and
so is context P for the FRAME rows (DESIGN CHOICE, notes/assumptions/4.md). -/
def Obligations.WrongContextIsRefused : Prop :=
  (∀ (i : Instr) (s : State) (c : Context), i.context? = some c → s.ctx ≠ c → exec i s = .refused .wrongContext) ∧
  (∀ (s : State) (n : Nat) (b : Byte) (l : Line), s.IssuesOn .producer n l → l.rb.configured = true →
    l.p.busy ≠ none → exec (.rbWrite n b) s = .refused .wrongContext)

/-- 45_line_api.md R136, R137: an operation on a number that names no line is refused with `NoSuchLine` (LINE.INIT
excepted). An operation of the assembler, the queue or the transmit path on a line that LINE.INIT has not set up is refused
with `NotConfigured`, also when RB.SETUP has set up its ring buffer; RB.WRITE, RB.READ, RB.ISEMPTY and the arrival of a
frame on a ring buffer that is not set up, likewise. That these reasons come before the operation's own (FrameTooLong) is
the model's choice (DESIGN CHOICE, notes/assumptions/8.md). -/
def Obligations.UnknownAndUnconfiguredLinesAreRefused : Prop :=
  ∀ (i : Instr) (s : State) (c : Context) (n : Nat), i.context? = some c → s.ctx = c → i.line? = some n →
    (s.lines[n]? = none → (∀ cap a, i ≠ .lineInit n cap a) → exec i s = .refused .noSuchLine) ∧
    (∀ l : Line, s.lines[n]? = some l → l.configured = false → c = .consumer → i ≠ .rbRead n → i ≠ .rbIsEmpty n →
      exec i s = .refused .notConfigured) ∧
    (∀ l : Line, s.lines[n]? = some l → l.rb.configured = false →
      (c = .producer ∨ i = .rbRead n ∨ i = .rbIsEmpty n) → exec i s = .refused .notConfigured)

/-! ## Frames of the machine -/

/-- 45_line_api.md R143, 00_scope.md R8: an instruction changes the line it names and no other, and none of what is
shared by the lines. -/
def Obligations.InstructionsChangeOnlyTheirLine : Prop :=
  ∀ (i : Instr) (s t : State), exec i s = .next t →
    (∀ k, i.line? ≠ some k → t.lines[k]? = s.lines[k]?) ∧ t.lines.length = s.lines.length ∧
    t.config = s.config ∧ t.ctx = s.ctx ∧ t.schedule = s.schedule

/-- 45_line_api.md R143: what an instruction does to its line and answers depends on that line alone, not on the others,
nor on what is scheduled, answered or logged before. -/
def Obligations.InstructionsReadOnlyTheirLine : Prop :=
  ∀ (i : Instr) (s s' t : State) (n : Nat), i.line? = some n → s'.lines[n]? = s.lines[n]? → s'.ctx = s.ctx →
    s'.config = s.config → exec i s = .next t →
    ∃ t' : State, exec i s' = .next t' ∧ t'.lines[n]? = t.lines[n]? ∧ t'.resp = t.resp

/-- 60_exceptions.md R157, the columns of P: an operation of context P (RB.WRITE, which writes one byte; the arrival of a
frame, which writes the bytes of the frame) changes of its line only `rb.buf`, `rb.wr`, `rb.full` (to true), its own record
and the log; of `rb.buf` at most as many elements as it writes bytes, from the write cursor on; on a full buffer nothing of
the ring buffer. That a FRAME row is such an operation is the model's choice (DESIGN CHOICE, notes/assumptions/4.md). -/
def Obligations.ProducerOperationsTouchOnlyTheWriteSide : Prop :=
  ∀ (i : Instr) (s t : State) (n count : Nat) (l l' : Line), i.context? = some .producer → i.line? = some n →
    ((∃ b, i = .rbWrite n b) ∧ count = 1 ∨ i.space = .wire n ∧ count = (encode s.config i).length) →
    exec i s = .next t → s.lines[n]? = some l → t.lines[n]? = some l' →
    l'.configured = l.configured ∧ l'.rb.configured = l.rb.configured ∧ l'.rb.cap = l.rb.cap ∧ l'.rb.rd = l.rb.rd ∧
    (l'.rb.full = l.rb.full ∨ l'.rb.full = true) ∧ l'.ackPkt = l.ackPkt ∧ l'.retxPkt = l.retxPkt ∧ l'.asm = l.asm ∧
    l'.pq = l.pq ∧ l'.lastTx = l.lastTx ∧ l'.tx = l.tx ∧
    (∀ x, (∀ j, j < count → x ≠ (fun w => advance w l.rb.cap)^[j] l.rb.wr) → l'.rb.buf.read x = l.rb.buf.read x) ∧
    (l.rb.full = true → l'.rb = l.rb)

/-- 60_exceptions.md R157, the columns of K, 10_state.md R18: with no step of context P inside it, an operation of context
K never writes `rb.buf`, `rb.wr`, `rb.cap` or a sentinel, and writes the flag only to false. -/
def Obligations.ConsumerOperationsNeverWriteTheWriteSide : Prop :=
  ∀ (i : Instr) (s t : State) (n : Nat) (l l' : Line), i.context? = some .consumer → i.line? = some n →
    exec i s = .next t → s.lines[n]? = some l → t.lines[n]? = some l' → Quiet s.config.INTERLEAVE l →
    (∀ x, l'.rb.buf.read x = l.rb.buf.read x) ∧ l'.rb.wr = l.rb.wr ∧ l'.rb.cap = l.rb.cap ∧
    (l'.rb.full = l.rb.full ∨ l'.rb.full = false) ∧ l'.ackPkt = l.ackPkt ∧ l'.retxPkt = l.retxPkt ∧
    l'.configured = l.configured ∧ l'.p = l.p

/-- 10_state.md R22 to R29, 20_memory.md R53: which instructions write which unit of a line. Only ASM.STEP and ASM.POLL
(and LINE.INIT) write the assembler; only PQ.ENQ, PQ.DEQ and those the queue, and of its slots only the one at the write
index; only TX.FRAME, TX.SEND and those `tx` and `last_tx`; PQ.AVAIL, CRC8 and PACKET.IMAGE write none. -/
def Obligations.EachUnitHasItsWriters : Prop :=
  ∀ (i : Instr) (s t : State) (k : Nat) (l l' : Line), exec i s = .next t → s.lines[k]? = some l →
    t.lines[k]? = some l' →
    ((∀ n, i ≠ .asmStep n) → (∀ n, i ≠ .asmPoll n) → (∀ n c a, i ≠ .lineInit n c a) →
      l'.asm = l.asm ∧
      ((∀ n p, i ≠ .pqEnq n p) → (∀ x, l'.pq.slot.read x = l.pq.slot.read x) ∧ l'.pq.wr = l.pq.wr) ∧
      ((∀ n p, i ≠ .pqEnq n p) → (∀ n, i ≠ .pqDeq n) → l'.pq = l.pq) ∧
      ((∀ n p, i ≠ .txFrame n p) → (∀ n bs, i ≠ .txSend n bs) → l'.tx = l.tx ∧ l'.lastTx = l.lastTx)) ∧
    ((∃ n p, i = .pqEnq n p) → ∀ x, x ≠ l.pq.wr → l'.pq.slot.read x = l.pq.slot.read x) ∧
    ((∃ n, i = .pqAvail n) ∨ (∃ bs c, i = .crc8 bs c) ∨ (∃ p, i = .packetImage p) → l' = l)

/-- 00_scope.md R9: the arrival of a frame (FRAME.DATA, FRAME.ACK, FRAME.RETX; notes/assumptions/4.md) completes, and is
an RB.WRITE of each of its bytes in order, the response of each reported. That executing such a row is its arrival is the
model's choice (DESIGN CHOICE). -/
def Obligations.FrameArrivalIsAWriteOfEachByte : Prop :=
  ∀ (i : Instr) (s : State) (n : Nat) (bytes : List Byte) (l : Line), s.IssuesOn .producer n l →
    l.rb.configured = true → l.p.busy = none →
    ((∃ data crc, i = .frameData n data crc ∧ bytes = [BitVec.ofNat 8 data.length] ++ data ++ [crc]) ∨
      (i = .frameAck n ∧ bytes = ackFrame s.config) ∨ (i = .frameRetx n ∧ bytes = retxFrame s.config)) →
    ∃ (l' : Line) (rs : List Bool) (t : State), exec i s = .next (s.after n l' (.bools rs)) ∧
      runProgram (allIn .producer (bytes.map (.rbWrite n))) s = .next (t, rs.map .bool) ∧ t.lines[n]? = some l'

/-! ## Invariants -/

/-- 10_state.md R14 to R29, 20_memory.md R47, 42_assembler.md R105, R115, R117: every step, under every setting of
`INTERLEAVE`, keeps the cursors and indices inside their arrays, the memories canonical, the sentinels as made, the
queued slots filled and their images of their size, the assembler's phase recognised with its counter in range and its
pads `FILL`, and `tx` a sequence of whole frames ending in `last_tx`; and no step changes a parameter. -/
def Obligations.StepKeepsTheInvariant : Prop :=
  ∀ s t : State, s.Inv → step s = .next t → t.Inv ∧ t.config = s.config

/-- 70_reset_and_hazards.md R173 (a), 10_state.md R19: under each of the three settings of `INTERLEAVE` every step keeps,
besides, the elements a read can reach stored, and the flag set only when the cursors are equal. Under `concurrent` this
holds because the model follows R173, which 90_conflicts.md C13 keeps, and leaves out the orders of R57 that would break it
(DEDUCED, notes/assumptions/7.md). -/
def Obligations.StepKeepsReachableElementsStored : Prop :=
  ∀ s t : State, s.Inv → s.Sound → step s = .next t → t.Sound

/-- 60_exceptions.md R159, 70_reset_and_hazards.md R173 (a): under each of the three settings of `INTERLEAVE` the one fault
of a machine that meets the invariants is `LengthOutOfRange`, raised by ASM.STEP or ASM.POLL; of any machine, whatever its
state, the reasons are that one, of these two operations, and `ReadOfNoValue`, of RB.READ, these two and PQ.DEQ. 20_memory.md
R61, R65: no operation blocks or waits: whatever the buffers and the queue hold, one that may be issued (`Issuable`) ends
at once, in a next state but for that fault, and one that may not is refused, and no other is (R160). (For `concurrent` see
notes/assumptions/7.md, for PQ.DEQ notes/assumptions/10.md; that ASM.POLL ends rests on notes/assumptions/3.md and 12.md.) -/
def Obligations.OperationsEndAtOnceAndOnlyALengthOutOfRangeFaults : Prop :=
  (∀ (s : State) (i : Instr) (e : Fault), s.Inv → s.Sound → exec i s = .fault e →
    e = .lengthOutOfRange ∧ ∃ n, i = .asmStep n ∨ i = .asmPoll n) ∧
  (∀ (s : State) (i : Instr) (e : Fault), exec i s = .fault e →
    (e = .lengthOutOfRange ∧ ∃ n, i = .asmStep n ∨ i = .asmPoll n) ∨
    (e = .readOfNoValue ∧ ∃ n, i = .rbRead n ∨ i = .asmStep n ∨ i = .asmPoll n ∨ i = .pqDeq n)) ∧
  (∀ (s : State) (i : Instr), s.Inv → s.Sound →
    (Issuable i s → (∃ t : State, exec i s = .next t) ∨
      (exec i s = .fault .lengthOutOfRange ∧ ∃ n, i = .asmStep n ∨ i = .asmPoll n)) ∧
    (¬ Issuable i s → ∃ e : Refusal, exec i s = .refused e))

/-! ## Interleaving -/

/-- 70_reset_and_hazards.md R170: under `preempt`, with `n` live bytes (`1 ≤ n < C`) and `C - n + 1` writes falling
between `r3` and `r4` of an RB.READ, every write is accepted, the read returns the oldest byte, and the buffer is left
looking empty with equal cursors and the flag clear. -/
def Obligations.FullBufferMadeToLookEmpty : Prop :=
  ∀ (s : State) (k n : Nat) (l : Line) (bs rest : List Byte), s.IssuesOn .consumer k l → s.config.INTERLEAVE = .preempt →
    l.rb.configured = true → l.Inv s.config → l.Sound s.config.INTERLEAVE → l.rb.full = false → l.rb.count = n → 1 ≤ n →
    bs.length = l.rb.cap - n + 1 → l.p.rx = bs ++ rest → l.p.plan = [0, 0, 0, bs.length] →
    ∃ (b : Byte) (l' : Line), exec (.rbRead k) s = .next (s.after k l' (.optByte (some b))) ∧
      l.rb.live.head? = some b ∧ l'.rb.wr = l'.rb.rd ∧ l'.rb.full = false ∧ l'.rb.live = [] ∧
      l'.p.replies = l.p.replies ++ List.replicate bs.length true ∧ l'.raised = l.raised ∧ l'.p.rx = rest

/-- 70_reset_and_hazards.md R171: under `preempt`, a write that falls between `r3` and `r4` of an RB.READ of a full
buffer is refused although a slot is free. -/
def Obligations.WriteRefusedAlthoughASlotIsFree : Prop :=
  ∀ (s : State) (k : Nat) (l : Line) (e : Byte) (rest : List Byte), s.IssuesOn .consumer k l →
    s.config.INTERLEAVE = .preempt → l.rb.configured = true → l.Inv s.config → l.Sound s.config.INTERLEAVE →
    l.rb.full = true → l.p.rx = e :: rest → l.p.plan = [0, 0, 0, 1] →
    ∃ (b : Byte) (l' : Line), exec (.rbRead k) s = .next (s.after k l' (.optByte (some b))) ∧
      l.rb.live = b :: l'.rb.live ∧ l'.rb.count = l.rb.cap - 1 ∧ l'.rb.full = false ∧
      l'.p.replies = l.p.replies ++ [false] ∧ l'.raised = l.raised ++ [.overrun e]

/-- 20_memory.md R55, 40_ring_buffer.md R88: the micro-steps `w1` to `w4` of context P with nothing between them are the
indivisible RB.WRITE. -/
def Obligations.MicroStepsTogetherAreTheWrite : Prop :=
  ∀ (l : Line) (b : Byte) (rest : List Byte), l.p.busy = none → l.p.rx = b :: rest →
    (l.rb.full = true → pMicro l = pWhole l) ∧ (l.rb.full = false → pMicro^[4] l = pWhole l) ∧
    pWhole l = (rbWrite b { l with p := l.p.withRx rest }).1

/-- 70_reset_and_hazards.md R172, R173, 20_memory.md R57: under `concurrent`, on a line that meets the invariants, an
RB.READ that begins between `w3` and `w4` of an RB.WRITE. If that write has filled the buffer and no step of context P is
due, the read answers `none` although all `C` bytes are stored, and loses nothing: after `w4` the next RB.READ returns the
oldest of them. If that write has stored the only byte there is, the read returns it and leaves the buffer empty with the
flag clear, with the `w4` before its `r4`: made between `r3` and `r4` by context P's own next step, in which case the flag
refuses what context P writes before `r4`, or else made there by the model. That `w4` never comes after `r4`, which R57
alone would allow, is the model's reading of R173 and 90_conflicts.md C13 (DEDUCED, notes/assumptions/7.md). The last
clause is the model's finding about that order, under its own setting `anyOrder` (DESIGN CHOICE, same entry): it sets the
flag of an empty buffer, and the next RB.READ reads an element never stored. -/
def Obligations.ConcurrentReadBeforeTheFlagIsSet : Prop :=
  (∀ (s : State) (n : Nat) (l : Line) (w : Byte), s.IssuesOn .consumer n l → s.config.INTERLEAVE = .concurrent →
    l.rb.configured = true → l.Inv s.config → l.Sound .concurrent → l.p.busy = some ⟨w, .w4⟩ →
    (l.p.plan = [] → l.rb.wr = l.rb.rd →
      exec (.rbRead n) s = .next (s.after n l (.optByte none)) ∧ (∀ a < l.rb.cap, l.rb.buf.read a ≠ none) ∧
      ∃ (b : Byte) (l' : Line), l.rb.buf.read l.rb.rd = some b ∧
        exec (.rbRead n) (s.after n (pMicro l) .unit) = .next (s.after n l' (.optByte (some b))) ∧
        (pMicro l).rb.live = b :: l'.rb.live ∧ (pMicro l).rb.live.length = l.rb.cap ∧ l'.rb.full = false) ∧
    ((l.rb.rd + 1) &&& (l.rb.cap - 1) = l.rb.wr → l.rb.rd ≠ l.rb.wr →
      ∃ b : Byte, l.rb.buf.read l.rb.rd = some b ∧
        (l.p.plan = [] → ∃ l' : Line, exec (.rbRead n) s = .next (s.after n l' (.optByte (some b))) ∧
          l'.rb.rd = l'.rb.wr ∧ l'.rb.full = false ∧ l'.p.busy = none ∧ l'.p.replies = l.p.replies ++ [true]) ∧
        (∀ es rest : List Byte, l.p.rx = es ++ rest → l.p.plan = [0, 0, 0, es.length + 1] →
          ∃ l' : Line, exec (.rbRead n) s = .next (s.after n l' (.optByte (some b))) ∧
            l'.rb.rd = l'.rb.wr ∧ l'.rb.wr = l.rb.wr ∧ l'.rb.full = false ∧ l'.rb.buf = l.rb.buf ∧ l'.p.busy = none ∧
            l'.p.rx = rest ∧ l'.p.replies = l.p.replies ++ [true] ++ List.replicate es.length false ∧
            l'.raised = l.raised ++ es.map .overrun))) ∧
  (let line : Line := { Line.powerOn Config.default 4 with p := { rx := [0xA1], plan := [], busy := none, replies := [] } }
   let start : State := { State.reset with
     config := { Config.default with INTERLEAVE := .anyOrder }
     lines := [line]
     schedule := [.issue .init .request (encode Config.default (.lineInit 0 4 true)), .arrive 0, .arrive 0, .arrive 0,
       .issue .consumer .request (encode Config.default (.rbRead 0)), .arrive 0,
       .issue .consumer .request (encode Config.default (.rbRead 0))] }
   (∃ (t : State) (l : Line), Host.Core.run Sys2Proof.core 6 start = .next t ∧ t.lines = [l] ∧ l.rb.full = true ∧
     l.rb.wr = l.rb.rd ∧ l.rb.buf.read l.rb.rd = none) ∧
   Host.Core.run Sys2Proof.core 7 start = .fault .readOfNoValue)
end

