-- ==== Sys2Proof/Laws/Memory.lean ====
section
/-! SUPPORT. The laws of a memory: read after write, the canonical form kept, where the entries of a written memory
lie. -/

namespace Sys2Proof.Machine

variable {α : Type}

theorem Memory.wf_cons (k : Nat) (v : α) (m : Memory α) :
    Memory.wf ((k, v) :: m) = true ↔ (∀ e ∈ m, k < e.1) ∧ Memory.wf m = true := by
  simp [Memory.wf]

theorem Memory.read_write_same (m : Memory α) (a : Nat) (v : α) : (Memory.write m a v).read a = some v := by
  induction m with
  | nil => simp [Memory.write, Memory.read]
  | cons e m ih =>
    obtain ⟨k, w⟩ := e
    simp only [Memory.write]
    split_ifs with h1 h2
    · simp [Memory.read]
    · simp [Memory.read]
    · simp [Memory.read, ih, Ne.symm h2]

theorem Memory.read_write_other (m : Memory α) {a b : Nat} (v : α) (h : b ≠ a) :
    (Memory.write m a v).read b = m.read b := by
  induction m with
  | nil => simp [Memory.write, Memory.read, h.symm]
  | cons e m ih =>
    obtain ⟨k, w⟩ := e
    simp only [Memory.write]
    split_ifs with h1 h2
    · simp [Memory.read, h.symm]
    · subst h2; simp [Memory.read, h.symm]
    · simp [Memory.read, ih]

theorem Memory.mem_write {m : Memory α} {a : Nat} {v : α} {e : Nat × α} (h : e ∈ Memory.write m a v) :
    e = (a, v) ∨ e ∈ m := by
  induction m with
  | nil => simpa [Memory.write] using h
  | cons f m ih =>
    obtain ⟨k, w⟩ := f
    simp only [Memory.write] at h
    split_ifs at h with h1 h2
    · simpa using h
    · rcases List.mem_cons.1 h with h | h
      · exact .inl h
      · exact .inr (List.mem_cons_of_mem _ h)
    · rcases List.mem_cons.1 h with h | h
      · exact .inr (h ▸ List.mem_cons_self ..)
      · exact (ih h).imp_right (List.mem_cons_of_mem _)

/-- Every memory operation keeps the canonical form. -/
theorem Memory.write_wf {m : Memory α} (a : Nat) (v : α) (h : m.wf = true) : (Memory.write m a v).wf = true := by
  induction m with
  | nil => simp [Memory.write, Memory.wf]
  | cons e m ih =>
    obtain ⟨k, w⟩ := e
    rw [Memory.wf_cons] at h
    simp only [Memory.write]
    split_ifs with h1 h2
    · rw [Memory.wf_cons, Memory.wf_cons]
      refine ⟨fun e he => ?_, h⟩
      rcases List.mem_cons.1 he with he | he
      · simpa [he] using h1
      · exact h1.trans (h.1 e he)
    · subst h2; rw [Memory.wf_cons]; exact h
    · rw [Memory.wf_cons]
      refine ⟨fun e he => ?_, ih h.2⟩
      rcases Memory.mem_write he with he | he
      · subst he; simp; omega
      · exact h.1 e he

theorem Memory.write_lt {m : Memory α} {a cap : Nat} {v : α} (ha : a < cap) (h : ∀ e ∈ m, e.1 < cap) :
    ∀ e ∈ Memory.write m a v, e.1 < cap := by
  intro e he
  rcases Memory.mem_write he with he | he
  · simpa [he] using ha
  · exact h e he

theorem Memory.read_write_ne_none (m : Memory α) (a b : Nat) (v : α) (h : m.read b ≠ none) :
    (Memory.write m a v).read b ≠ none := by
  by_cases hb : b = a
  · simp [hb, Memory.read_write_same]
  · rwa [Memory.read_write_other m v hb]

/-- The memory after reset lists nothing, which is canonical. -/
theorem Memory.wf_nil : Memory.wf ([] : Memory α) = true := rfl

end Sys2Proof.Machine
end

