-- ==== Sys2Proof/Laws/State.lean ====
section
/-! SUPPORT. One lemma per field per named update of State and Line, each true by unfolding. -/

namespace Sys2Proof.Machine

@[simp] theorem setLine_lines (n : Nat) (l : Line) (s : State) : (s.setLine n l).lines = s.lines.set n l := rfl
@[simp] theorem setLine_config (n : Nat) (l : Line) (s : State) : (s.setLine n l).config = s.config := rfl
@[simp] theorem setLine_ctx (n : Nat) (l : Line) (s : State) : (s.setLine n l).ctx = s.ctx := rfl
@[simp] theorem setLine_schedule (n : Nat) (l : Line) (s : State) : (s.setLine n l).schedule = s.schedule := rfl
@[simp] theorem setLine_resp (n : Nat) (l : Line) (s : State) : (s.setLine n l).resp = s.resp := rfl
@[simp] theorem setLine_raised (n : Nat) (l : Line) (s : State) : (s.setLine n l).raised = s.raised := rfl

@[simp] theorem respond_lines (r : Response) (s : State) : (s.respond r).lines = s.lines := rfl
@[simp] theorem respond_config (r : Response) (s : State) : (s.respond r).config = s.config := rfl
@[simp] theorem respond_ctx (r : Response) (s : State) : (s.respond r).ctx = s.ctx := rfl
@[simp] theorem respond_schedule (r : Response) (s : State) : (s.respond r).schedule = s.schedule := rfl
@[simp] theorem respond_resp (r : Response) (s : State) : (s.respond r).resp = r := rfl
@[simp] theorem respond_raised (r : Response) (s : State) : (s.respond r).raised = s.raised := rfl

@[simp] theorem after_lines (s : State) (n : Nat) (l : Line) (r : Response) : (s.after n l r).lines = s.lines.set n l := rfl
@[simp] theorem after_config (s : State) (n : Nat) (l : Line) (r : Response) : (s.after n l r).config = s.config := rfl
@[simp] theorem after_ctx (s : State) (n : Nat) (l : Line) (r : Response) : (s.after n l r).ctx = s.ctx := rfl
@[simp] theorem after_schedule (s : State) (n : Nat) (l : Line) (r : Response) : (s.after n l r).schedule = s.schedule := rfl
@[simp] theorem after_resp (s : State) (n : Nat) (l : Line) (r : Response) : (s.after n l r).resp = r := rfl
@[simp] theorem after_raised (s : State) (n : Nat) (l : Line) (r : Response) : (s.after n l r).raised = s.raised := rfl

@[simp] theorem configError_lines (c : ConfigCause) (s : State) : (s.configError c).lines = s.lines := rfl
@[simp] theorem configError_config (c : ConfigCause) (s : State) : (s.configError c).config = s.config := rfl
@[simp] theorem configError_ctx (c : ConfigCause) (s : State) : (s.configError c).ctx = s.ctx := rfl
@[simp] theorem configError_schedule (c : ConfigCause) (s : State) : (s.configError c).schedule = s.schedule := rfl
@[simp] theorem configError_resp (c : ConfigCause) (s : State) : (s.configError c).resp = .configError c := rfl
@[simp] theorem configError_raised (c : ConfigCause) (s : State) :
    (s.configError c).raised = s.raised ++ [.configError c] := rfl

@[simp] theorem fetched_lines (c : Context) (rest : List Entry) (s : State) : (s.fetched c rest).lines = s.lines := rfl
@[simp] theorem fetched_config (c : Context) (rest : List Entry) (s : State) :
    (s.fetched c rest).config = s.config := rfl
@[simp] theorem fetched_ctx (c : Context) (rest : List Entry) (s : State) : (s.fetched c rest).ctx = c := rfl
@[simp] theorem fetched_schedule (c : Context) (rest : List Entry) (s : State) : (s.fetched c rest).schedule = rest := rfl
@[simp] theorem fetched_resp (c : Context) (rest : List Entry) (s : State) : (s.fetched c rest).resp = s.resp := rfl
@[simp] theorem fetched_raised (c : Context) (rest : List Entry) (s : State) : (s.fetched c rest).raised = s.raised := rfl

@[simp] theorem raise_configured (c : Condition) (l : Line) : (l.raise c).configured = l.configured := rfl
@[simp] theorem raise_rb (c : Condition) (l : Line) : (l.raise c).rb = l.rb := rfl
@[simp] theorem raise_ackPkt (c : Condition) (l : Line) : (l.raise c).ackPkt = l.ackPkt := rfl
@[simp] theorem raise_retxPkt (c : Condition) (l : Line) : (l.raise c).retxPkt = l.retxPkt := rfl
@[simp] theorem raise_asm (c : Condition) (l : Line) : (l.raise c).asm = l.asm := rfl
@[simp] theorem raise_pq (c : Condition) (l : Line) : (l.raise c).pq = l.pq := rfl
@[simp] theorem raise_lastTx (c : Condition) (l : Line) : (l.raise c).lastTx = l.lastTx := rfl
@[simp] theorem raise_tx (c : Condition) (l : Line) : (l.raise c).tx = l.tx := rfl
@[simp] theorem raise_p (c : Condition) (l : Line) : (l.raise c).p = l.p := rfl
@[simp] theorem raise_raised (c : Condition) (l : Line) : (l.raise c).raised = l.raised ++ [c] := rfl

@[simp] theorem reply_configured (b : Bool) (l : Line) : (l.reply b).configured = l.configured := rfl
@[simp] theorem reply_rb (b : Bool) (l : Line) : (l.reply b).rb = l.rb := rfl
@[simp] theorem reply_ackPkt (b : Bool) (l : Line) : (l.reply b).ackPkt = l.ackPkt := rfl
@[simp] theorem reply_retxPkt (b : Bool) (l : Line) : (l.reply b).retxPkt = l.retxPkt := rfl
@[simp] theorem reply_asm (b : Bool) (l : Line) : (l.reply b).asm = l.asm := rfl
@[simp] theorem reply_pq (b : Bool) (l : Line) : (l.reply b).pq = l.pq := rfl
@[simp] theorem reply_lastTx (b : Bool) (l : Line) : (l.reply b).lastTx = l.lastTx := rfl
@[simp] theorem reply_tx (b : Bool) (l : Line) : (l.reply b).tx = l.tx := rfl
@[simp] theorem reply_raised (b : Bool) (l : Line) : (l.reply b).raised = l.raised := rfl
@[simp] theorem reply_rx (b : Bool) (l : Line) : (l.reply b).p.rx = l.p.rx := rfl
@[simp] theorem reply_plan (b : Bool) (l : Line) : (l.reply b).p.plan = l.p.plan := rfl
@[simp] theorem reply_busy (b : Bool) (l : Line) : (l.reply b).p.busy = l.p.busy := rfl
@[simp] theorem reply_replies (b : Bool) (l : Line) : (l.reply b).p.replies = l.p.replies ++ [b] := rfl

@[simp] theorem byteSend_configured (bs : List Byte) (l : Line) : (l.byteSend bs).configured = l.configured := rfl
@[simp] theorem byteSend_rb (bs : List Byte) (l : Line) : (l.byteSend bs).rb = l.rb := rfl
@[simp] theorem byteSend_ackPkt (bs : List Byte) (l : Line) : (l.byteSend bs).ackPkt = l.ackPkt := rfl
@[simp] theorem byteSend_retxPkt (bs : List Byte) (l : Line) : (l.byteSend bs).retxPkt = l.retxPkt := rfl
@[simp] theorem byteSend_asm (bs : List Byte) (l : Line) : (l.byteSend bs).asm = l.asm := rfl
@[simp] theorem byteSend_pq (bs : List Byte) (l : Line) : (l.byteSend bs).pq = l.pq := rfl
@[simp] theorem byteSend_lastTx (bs : List Byte) (l : Line) : (l.byteSend bs).lastTx = l.lastTx := rfl
@[simp] theorem byteSend_tx (bs : List Byte) (l : Line) : (l.byteSend bs).tx = l.tx ++ bs := rfl
@[simp] theorem byteSend_p (bs : List Byte) (l : Line) : (l.byteSend bs).p = l.p := rfl
@[simp] theorem byteSend_raised (bs : List Byte) (l : Line) : (l.byteSend bs).raised = l.raised := rfl

@[simp] theorem restartAsm_phase (l : Line) : l.restartAsm.asm.phase = .awaitingLength := rfl
@[simp] theorem restartAsm_pkt (l : Line) : l.restartAsm.asm.pkt = l.asm.pkt := rfl
@[simp] theorem restartAsm_cnt (l : Line) : l.restartAsm.asm.cnt = l.asm.cnt := rfl
@[simp] theorem restartAsm_configured (l : Line) : l.restartAsm.configured = l.configured := rfl
@[simp] theorem restartAsm_rb (l : Line) : l.restartAsm.rb = l.rb := rfl
@[simp] theorem restartAsm_ackPkt (l : Line) : l.restartAsm.ackPkt = l.ackPkt := rfl
@[simp] theorem restartAsm_retxPkt (l : Line) : l.restartAsm.retxPkt = l.retxPkt := rfl
@[simp] theorem restartAsm_pq (l : Line) : l.restartAsm.pq = l.pq := rfl
@[simp] theorem restartAsm_lastTx (l : Line) : l.restartAsm.lastTx = l.lastTx := rfl
@[simp] theorem restartAsm_tx (l : Line) : l.restartAsm.tx = l.tx := rfl
@[simp] theorem restartAsm_p (l : Line) : l.restartAsm.p = l.p := rfl
@[simp] theorem restartAsm_raised (l : Line) : l.restartAsm.raised = l.raised := rfl

@[simp] theorem withRx_rx (bs : List Byte) (p : Producer) : (p.withRx bs).rx = bs := rfl
@[simp] theorem withRx_plan (bs : List Byte) (p : Producer) : (p.withRx bs).plan = p.plan := rfl
@[simp] theorem withRx_busy (bs : List Byte) (p : Producer) : (p.withRx bs).busy = p.busy := rfl
@[simp] theorem withRx_replies (bs : List Byte) (p : Producer) : (p.withRx bs).replies = p.replies := rfl
@[simp] theorem withPlan_rx (ns : List Nat) (p : Producer) : (p.withPlan ns).rx = p.rx := rfl
@[simp] theorem withPlan_plan (ns : List Nat) (p : Producer) : (p.withPlan ns).plan = ns := rfl
@[simp] theorem withPlan_busy (ns : List Nat) (p : Producer) : (p.withPlan ns).busy = p.busy := rfl
@[simp] theorem withPlan_replies (ns : List Nat) (p : Producer) : (p.withPlan ns).replies = p.replies := rfl
@[simp] theorem withBusy_rx (w : Option PendingWrite) (p : Producer) : (p.withBusy w).rx = p.rx := rfl
@[simp] theorem withBusy_plan (w : Option PendingWrite) (p : Producer) : (p.withBusy w).plan = p.plan := rfl
@[simp] theorem withBusy_busy (w : Option PendingWrite) (p : Producer) : (p.withBusy w).busy = w := rfl
@[simp] theorem withBusy_replies (w : Option PendingWrite) (p : Producer) : (p.withBusy w).replies = p.replies := rfl
@[simp] theorem withReply_rx (b : Bool) (p : Producer) : (p.withReply b).rx = p.rx := rfl
@[simp] theorem withReply_plan (b : Bool) (p : Producer) : (p.withReply b).plan = p.plan := rfl
@[simp] theorem withReply_busy (b : Bool) (p : Producer) : (p.withReply b).busy = p.busy := rfl
@[simp] theorem withReply_replies (b : Bool) (p : Producer) : (p.withReply b).replies = p.replies ++ [b] := rfl

@[simp] theorem toPhase_phase (ph : Phase) (a : Assembler) : (a.toPhase ph).phase = ph := rfl
@[simp] theorem toPhase_pkt (ph : Phase) (a : Assembler) : (a.toPhase ph).pkt = a.pkt := rfl
@[simp] theorem toPhase_cnt (ph : Phase) (a : Assembler) : (a.toPhase ph).cnt = a.cnt := rfl
@[simp] theorem takeLength_phase (cfg : Config) (b : Byte) (a : Assembler) : (a.takeLength cfg b).phase = .awaitingData := rfl
@[simp] theorem takeLength_cnt (cfg : Config) (b : Byte) (a : Assembler) : (a.takeLength cfg b).cnt = 0 := rfl
@[simp] theorem takeLength_pkt_length (cfg : Config) (b : Byte) (a : Assembler) : (a.takeLength cfg b).pkt.length = b := rfl
@[simp] theorem takeLength_pkt_crc (cfg : Config) (b : Byte) (a : Assembler) : (a.takeLength cfg b).pkt.crc = a.pkt.crc := rfl
@[simp] theorem takeData_phase (b : Byte) (a : Assembler) : (a.takeData b).phase = a.phase := rfl
@[simp] theorem takeData_cnt (b : Byte) (a : Assembler) : (a.takeData b).cnt = a.cnt + 1 := rfl
@[simp] theorem takeData_pkt_length (b : Byte) (a : Assembler) : (a.takeData b).pkt.length = a.pkt.length := rfl
@[simp] theorem takeData_pkt_crc (b : Byte) (a : Assembler) : (a.takeData b).pkt.crc = a.pkt.crc := rfl
@[simp] theorem takeCrc_phase (b : Byte) (a : Assembler) : (a.takeCrc b).phase = a.phase := rfl
@[simp] theorem takeCrc_cnt (b : Byte) (a : Assembler) : (a.takeCrc b).cnt = a.cnt := rfl
@[simp] theorem takeCrc_pkt_length (b : Byte) (a : Assembler) : (a.takeCrc b).pkt.length = a.pkt.length := rfl
@[simp] theorem takeCrc_pkt_data (b : Byte) (a : Assembler) : (a.takeCrc b).pkt.data = a.pkt.data := rfl
@[simp] theorem takeCrc_pkt_crc (b : Byte) (a : Assembler) : (a.takeCrc b).pkt.crc = b := rfl

@[simp] theorem put_cap (p : Image) (q : PacketQueue) : (q.put p).cap = q.cap := rfl
@[simp] theorem put_slot (p : Image) (q : PacketQueue) : (q.put p).slot = q.slot.write q.wr p := rfl
@[simp] theorem put_wr (p : Image) (q : PacketQueue) : (q.put p).wr = advance q.wr q.cap := rfl
@[simp] theorem put_rd (p : Image) (q : PacketQueue) : (q.put p).rd = q.rd := rfl
@[simp] theorem drop_cap (q : PacketQueue) : q.drop.cap = q.cap := rfl
@[simp] theorem drop_slot (q : PacketQueue) : q.drop.slot = q.slot := rfl
@[simp] theorem drop_wr (q : PacketQueue) : q.drop.wr = q.wr := rfl
@[simp] theorem drop_rd (q : PacketQueue) : q.drop.rd = advance q.rd q.cap := rfl

@[simp] theorem w2_configured (b : Byte) (rb : RingBuffer) : (rb.w2 b).configured = rb.configured := rfl
@[simp] theorem w2_cap (b : Byte) (rb : RingBuffer) : (rb.w2 b).cap = rb.cap := rfl
@[simp] theorem w2_wr (b : Byte) (rb : RingBuffer) : (rb.w2 b).wr = rb.wr := rfl
@[simp] theorem w2_rd (b : Byte) (rb : RingBuffer) : (rb.w2 b).rd = rb.rd := rfl
@[simp] theorem w2_full (b : Byte) (rb : RingBuffer) : (rb.w2 b).full = rb.full := rfl
@[simp] theorem w2_buf (b : Byte) (rb : RingBuffer) : (rb.w2 b).buf = rb.buf.write rb.wr b := rfl
@[simp] theorem w3_configured (rb : RingBuffer) : rb.w3.configured = rb.configured := rfl
@[simp] theorem w3_cap (rb : RingBuffer) : rb.w3.cap = rb.cap := rfl
@[simp] theorem w3_wr (rb : RingBuffer) : rb.w3.wr = advance rb.wr rb.cap := rfl
@[simp] theorem w3_rd (rb : RingBuffer) : rb.w3.rd = rb.rd := rfl
@[simp] theorem w3_full (rb : RingBuffer) : rb.w3.full = rb.full := rfl
@[simp] theorem w3_buf (rb : RingBuffer) : rb.w3.buf = rb.buf := rfl
@[simp] theorem w4_configured (rb : RingBuffer) : rb.w4.configured = rb.configured := rfl
@[simp] theorem w4_cap (rb : RingBuffer) : rb.w4.cap = rb.cap := rfl
@[simp] theorem w4_wr (rb : RingBuffer) : rb.w4.wr = rb.wr := rfl
@[simp] theorem w4_rd (rb : RingBuffer) : rb.w4.rd = rb.rd := rfl
@[simp] theorem w4_full (rb : RingBuffer) : rb.w4.full = rb.fullAfterWrite := rfl
@[simp] theorem w4_buf (rb : RingBuffer) : rb.w4.buf = rb.buf := rfl
@[simp] theorem r3_configured (rb : RingBuffer) : rb.r3.configured = rb.configured := rfl
@[simp] theorem r3_cap (rb : RingBuffer) : rb.r3.cap = rb.cap := rfl
@[simp] theorem r3_wr (rb : RingBuffer) : rb.r3.wr = rb.wr := rfl
@[simp] theorem r3_rd (rb : RingBuffer) : rb.r3.rd = advance rb.rd rb.cap := rfl
@[simp] theorem r3_full (rb : RingBuffer) : rb.r3.full = rb.full := rfl
@[simp] theorem r3_buf (rb : RingBuffer) : rb.r3.buf = rb.buf := rfl
@[simp] theorem r4_configured (rb : RingBuffer) : rb.r4.configured = rb.configured := rfl
@[simp] theorem r4_cap (rb : RingBuffer) : rb.r4.cap = rb.cap := rfl
@[simp] theorem r4_wr (rb : RingBuffer) : rb.r4.wr = rb.wr := rfl
@[simp] theorem r4_rd (rb : RingBuffer) : rb.r4.rd = rb.rd := rfl
@[simp] theorem r4_full (rb : RingBuffer) : rb.r4.full = false := rfl
@[simp] theorem r4_buf (rb : RingBuffer) : rb.r4.buf = rb.buf := rfl

end Sys2Proof.Machine
end

