-- ==== Sys2Proof/Laws/Ops.lean ====
section
/-! SUPPORT. What each shared operation can do, said once: the checks before an operation runs, running it on a line,
context P's steps, RB.READ, PQ.ENQ, PQ.DEQ, TX.FRAME, and one transition of the assembler. -/

namespace Sys2Proof.Machine

/-! ## Checks and lines -/

theorem requireContext_pass {c : Context} {s : State} {k : Host.Outcome State Fault Refusal} (h : s.ctx = c) :
    requireContext c s k = k := if_pos h

theorem requireContext_refuse {c : Context} {s : State} {k : Host.Outcome State Fault Refusal} (h : s.ctx ≠ c) :
    requireContext c s k = .refused .wrongContext := if_neg h

theorem requireContext_next {c : Context} {s t : State} {k : Host.Outcome State Fault Refusal}
    (h : requireContext c s k = .next t) : s.ctx = c ∧ k = .next t := by
  unfold requireContext at h
  split_ifs at h with hc
  exact ⟨hc, h⟩

theorem requireContext_fault {c : Context} {s : State} {f : Fault} {k : Host.Outcome State Fault Refusal}
    (h : requireContext c s k = .fault f) : s.ctx = c ∧ k = .fault f := by
  unfold requireContext at h
  split_ifs at h with hc
  exact ⟨hc, h⟩

/-- An operation that completes on the line it names. -/
theorem onLine_of_next {n : Nat} {f : Line → LineResult} {s : State} {l l' : Line} {r : Response}
    (hl : s.lines[n]? = some l) (hf : f l = .next (l', r)) : onLine n f s = .next (s.after n l' r) := by
  simp [onLine, hl, hf, State.after]

theorem onLine_next {n : Nat} {f : Line → LineResult} {s t : State} (h : onLine n f s = .next t) :
    ∃ l l' r, s.lines[n]? = some l ∧ f l = .next (l', r) ∧ t = s.after n l' r := by
  unfold onLine at h
  split at h
  · cases h
  · next l hl =>
    split at h
    · next r hr => exact ⟨l, r.1, r.2, hl, hr, by cases h; rfl⟩
    · cases h
    · cases h

theorem onLine_fault {n : Nat} {f : Line → LineResult} {s : State} {e : Fault} (h : onLine n f s = .fault e) :
    ∃ l, s.lines[n]? = some l ∧ f l = .fault e := by
  unfold onLine at h
  split at h
  · cases h
  · next l hl =>
    split at h
    · cases h
    · next e' he => cases h; exact ⟨l, hl, he⟩
    · cases h

theorem whenConfigured_next {f : Line → LineResult} {l : Line} {r : Line × Response}
    (h : whenConfigured f l = .next r) : l.configured = true ∧ f l = .next r := by
  unfold whenConfigured at h
  split_ifs at h with hc
  exact ⟨hc, h⟩

theorem whenConfigured_fault {f : Line → LineResult} {l : Line} {e : Fault}
    (h : whenConfigured f l = .fault e) : l.configured = true ∧ f l = .fault e := by
  unfold whenConfigured at h
  split_ifs at h with hc
  exact ⟨hc, h⟩

/-- An operation of context K that completes on a configured line. -/
theorem consumerOp_of_next {n : Nat} {f : Line → LineResult} {s : State} {l l' : Line} {r : Response}
    (hs : s.IssuesOn .consumer n l) (hc : l.configured = true) (hf : f l = .next (l', r)) :
    consumerOp n f s = .next (s.after n l' r) := by
  unfold consumerOp
  rw [requireContext_pass hs.1]
  exact onLine_of_next hs.2 (by simpa [whenConfigured, hc] using hf)

theorem consumerOp_next {n : Nat} {f : Line → LineResult} {s t : State} (h : consumerOp n f s = .next t) :
    ∃ l l' r, s.IssuesOn .consumer n l ∧ l.configured = true ∧ f l = .next (l', r) ∧ t = s.after n l' r := by
  obtain ⟨hx, h⟩ := requireContext_next h
  obtain ⟨l, l', r, hl, hf, rfl⟩ := onLine_next h
  obtain ⟨hc, hf⟩ := whenConfigured_next hf
  exact ⟨l, l', r, ⟨hx, hl⟩, hc, hf, rfl⟩

theorem consumerOp_fault {n : Nat} {f : Line → LineResult} {s : State} {e : Fault} (h : consumerOp n f s = .fault e) :
    ∃ l, s.IssuesOn .consumer n l ∧ l.configured = true ∧ f l = .fault e := by
  obtain ⟨hx, h⟩ := requireContext_fault h
  obtain ⟨l, hl, hf⟩ := onLine_fault h
  obtain ⟨hc, hf⟩ := whenConfigured_fault hf
  exact ⟨l, ⟨hx, hl⟩, hc, hf⟩

/-- An operation of context P that completes on a ring buffer that is set up and not being written. -/
theorem producerOp_of_next {n : Nat} {f : Line → LineResult} {s : State} {l l' : Line} {r : Response}
    (hs : s.IssuesOn .producer n l) (hc : l.rb.configured = true) (hb : l.p.busy = none)
    (hf : f l = .next (l', r)) : producerOp n f s = .next (s.after n l' r) := by
  unfold producerOp
  rw [requireContext_pass hs.1]
  exact onLine_of_next hs.2 (by simpa [hc, hb] using hf)

theorem producerOp_next {n : Nat} {f : Line → LineResult} {s t : State} (h : producerOp n f s = .next t) :
    ∃ l l' r, s.IssuesOn .producer n l ∧ l.rb.configured = true ∧ l.p.busy = none ∧ f l = .next (l', r) ∧
      t = s.after n l' r := by
  obtain ⟨hx, h⟩ := requireContext_next h
  obtain ⟨l, l', r, hl, hf, rfl⟩ := onLine_next h
  split_ifs at hf with h1 h2
  exact ⟨l, l', r, ⟨hx, hl⟩, by simpa using h1, by simpa using h2, hf, rfl⟩

theorem producerOp_fault {n : Nat} {f : Line → LineResult} {s : State} {e : Fault} (h : producerOp n f s = .fault e) :
    ∃ l, s.IssuesOn .producer n l ∧ f l = .fault e := by
  obtain ⟨hx, h⟩ := requireContext_fault h
  obtain ⟨l, hl, hf⟩ := onLine_fault h
  split_ifs at hf with h1 h2
  exact ⟨l, ⟨hx, hl⟩, hf⟩

theorem answering_next {α : Type} {f : α → Response} {o : Host.Outcome (Line × α) Fault Refusal} {r : Line × Response}
    (h : answering f o = .next r) : ∃ x, o = .next x ∧ r = (x.1, f x.2) := by
  cases o with
  | next x => cases h; exact ⟨x, rfl, rfl⟩
  | fault e => cases h
  | refused e => cases h

theorem answering_fault {α : Type} {f : α → Response} {o : Host.Outcome (Line × α) Fault Refusal} {e : Fault}
    (h : answering f o = .fault e) : o = .fault e := by
  cases o with
  | next x => cases h
  | fault e' => cases h; rfl
  | refused e' => cases h

theorem noResponse_next {f : Line → Host.Outcome Line Fault Refusal} {l : Line} {r : Line × Response}
    (h : noResponse f l = .next r) : f l = .next r.1 ∧ r.2 = .unit := by
  unfold noResponse at h
  split at h
  · next l' hl => cases h; exact ⟨hl, rfl⟩
  · cases h
  · cases h

theorem noResponse_of_next {f : Line → Host.Outcome Line Fault Refusal} {l l' : Line} (h : f l = .next l') :
    noResponse f l = .next (l', .unit) := by simp [noResponse, h]

theorem noResponse_fault {f : Line → Host.Outcome Line Fault Refusal} {l : Line} {e : Fault}
    (h : noResponse f l = .fault e) : f l = .fault e := by
  unfold noResponse at h
  split at h
  · cases h
  · next e' he => cases h; exact he
  · cases h

/-! ## Context P -/

/-- What steps of context P leave alone: everything but `rb.buf`, `rb.wr`, `rb.full`, its own state and the log. -/
structure ProducerOnly (l l' : Line) : Prop where
  configured : l'.configured = l.configured
  rb_configured : l'.rb.configured = l.rb.configured
  rb_cap : l'.rb.cap = l.rb.cap
  rb_rd : l'.rb.rd = l.rb.rd
  ackPkt : l'.ackPkt = l.ackPkt
  retxPkt : l'.retxPkt = l.retxPkt
  asm : l'.asm = l.asm
  pq : l'.pq = l.pq
  lastTx : l'.lastTx = l.lastTx
  tx : l'.tx = l.tx

theorem ProducerOnly.refl (l : Line) : ProducerOnly l l := ⟨rfl, rfl, rfl, rfl, rfl, rfl, rfl, rfl, rfl, rfl⟩

theorem ProducerOnly.trans {a b c : Line} (h : ProducerOnly a b) (k : ProducerOnly b c) : ProducerOnly a c where
  configured := k.configured.trans h.configured
  rb_configured := k.rb_configured.trans h.rb_configured
  rb_cap := k.rb_cap.trans h.rb_cap
  rb_rd := k.rb_rd.trans h.rb_rd
  ackPkt := k.ackPkt.trans h.ackPkt
  retxPkt := k.retxPkt.trans h.retxPkt
  asm := k.asm.trans h.asm
  pq := k.pq.trans h.pq
  lastTx := k.lastTx.trans h.lastTx
  tx := k.tx.trans h.tx

theorem rbWrite_full {b : Byte} {l : Line} (h : l.rb.full = true) :
    rbWrite b l = ((l.raise (.overrun b)).reply false, false) := if_pos h

theorem rbWrite_room {b : Byte} {l : Line} (h : l.rb.full = false) :
    rbWrite b l = (Line.reply true { l with rb := l.rb.store b }, true) := by simp [rbWrite, h]

theorem rbWrite_producerOnly (b : Byte) (l : Line) : ProducerOnly l (rbWrite b l).1 := by
  unfold rbWrite
  split_ifs <;> exact ⟨rfl, rfl, rfl, rfl, rfl, rfl, rfl, rfl, rfl, rfl⟩

theorem pMicro_producerOnly (l : Line) : ProducerOnly l (pMicro l) := by
  unfold pMicro
  split
  · exact ⟨rfl, rfl, rfl, rfl, rfl, rfl, rfl, rfl, rfl, rfl⟩
  · exact ⟨rfl, rfl, rfl, rfl, rfl, rfl, rfl, rfl, rfl, rfl⟩
  · exact ⟨rfl, rfl, rfl, rfl, rfl, rfl, rfl, rfl, rfl, rfl⟩
  · split
    · exact .refl l
    · split_ifs <;> exact ⟨rfl, rfl, rfl, rfl, rfl, rfl, rfl, rfl, rfl, rfl⟩

theorem pWhole_producerOnly (l : Line) : ProducerOnly l (pWhole l) := by
  unfold pWhole
  split
  · next b rest _ _ =>
    have h := rbWrite_producerOnly b { l with p := l.p.withRx rest }
    exact ⟨h.1, h.2, h.3, h.4, h.5, h.6, h.7, h.8, h.9, h.10⟩
  · exact .refl l

theorem pStep_producerOnly (m : Interleave) (l : Line) : ProducerOnly l (pStep m l) := by
  cases m
  · exact pWhole_producerOnly l
  · exact pMicro_producerOnly l
  · exact pWhole_producerOnly l
  · exact pMicro_producerOnly l

/-- A property that context P's steps keep is kept at a point where it may run. -/
theorem gap_keeps {m : Interleave} {I : Line → Prop} (hplan : ∀ l ns, I l → I { l with p := l.p.withPlan ns })
    (hstep : ∀ l, I l → I (pStep m l)) {l : Line} (h : I l) : I (gap m l) := by
  have iter : ∀ n l, I l → I ((pStep m)^[n] l) := by
    intro n
    induction n with
    | zero => exact fun l h => h
    | succ n ih => exact fun l h => ih _ (hstep l h)
  unfold gap
  split
  · exact h
  · exact h
  · exact iter _ _ (hplan _ _ h)

theorem gap_producerOnly (m : Interleave) (l : Line) : ProducerOnly l (gap m l) :=
  gap_keeps (I := ProducerOnly l) (fun _ _ h => ⟨h.1, h.2, h.3, h.4, h.5, h.6, h.7, h.8, h.9, h.10⟩)
    (fun l' h => h.trans (pStep_producerOnly m l')) (.refl l)

/-- When no step of context P falls inside an operation of context K, its points change nothing. -/
theorem gap_quiet {m : Interleave} {l : Line} (h : Quiet m l) : gap m l = l := by
  rcases h.2 with hm | hp
  · subst hm; rfl
  · unfold gap; split
    · rfl
    · rfl
    · next h' => rw [hp] at h'; cases h'

/-- Waiting for a pending `w4` is a step of context P or none. -/
theorem settle_cases (m : Interleave) (unflagged : Bool) (l : Line) :
    settle m unflagged l = l ∨ (m = .concurrent ∧ unflagged = true ∧ l.p.busy.map (·.next) = some .w4 ∧
      settle m unflagged l = pMicro l) := by
  cases m
  · exact .inl rfl
  · by_cases h : unflagged = true ∧ l.p.busy.map (·.next) = some .w4
    · exact .inr ⟨rfl, h.1, h.2, if_pos h⟩
    · exact .inl (if_neg h)
  · exact .inl rfl
  · exact .inl rfl

/-- A property that context P's micro-steps keep is kept by waiting for its `w4`. -/
theorem settle_keeps {m : Interleave} {u : Bool} {I : Line → Prop} (hstep : ∀ l, I l → I (pMicro l)) {l : Line}
    (h : I l) : I (settle m u l) := by
  rcases settle_cases m u l with e | ⟨-, -, -, e⟩
  · rw [e]; exact h
  · rw [e]; exact hstep l h

theorem settle_producerOnly (m : Interleave) (u : Bool) (l : Line) : ProducerOnly l (settle m u l) :=
  settle_keeps (I := ProducerOnly l) (fun l' h => h.trans (pMicro_producerOnly l')) (.refl l)

/-- With no RB.WRITE in progress there is nothing to wait for. -/
theorem settle_idle {m : Interleave} {u : Bool} {l : Line} (h : l.p.busy = none) : settle m u l = l := by
  rcases settle_cases m u l with e | ⟨-, -, e, -⟩
  · exact e
  · simp [h] at e

/-- When the byte taken is not the only one there is, or its `w4` is done, nothing is waited for. -/
@[simp] theorem settle_false (m : Interleave) (l : Line) : settle m false l = l := by
  rcases settle_cases m false l with e | ⟨-, e, -⟩
  · exact e
  · cases e

/-- With no RB.WRITE in progress every byte is flagged. -/
theorem takesUnflagged_idle {l : Line} (h : l.p.busy = none) : takesUnflagged l = false := by
  simp [takesUnflagged, h]

theorem deliver_producerOnly (bs : List Byte) (l : Line) : ProducerOnly l (deliver bs l).1 := by
  induction bs generalizing l with
  | nil => exact .refl l
  | cons b bs ih => exact (rbWrite_producerOnly b l).trans (ih _)

/-! ## RB.READ -/

/-- What RB.READ leaves alone, whatever context P does inside it: everything but the ring buffer, context P's own state
and the log. -/
structure ReadOnly (l l' : Line) : Prop where
  configured : l'.configured = l.configured
  rb_configured : l'.rb.configured = l.rb.configured
  rb_cap : l'.rb.cap = l.rb.cap
  ackPkt : l'.ackPkt = l.ackPkt
  retxPkt : l'.retxPkt = l.retxPkt
  asm : l'.asm = l.asm
  pq : l'.pq = l.pq
  lastTx : l'.lastTx = l.lastTx
  tx : l'.tx = l.tx

theorem ProducerOnly.readOnly {l l' : Line} (h : ProducerOnly l l') : ReadOnly l l' :=
  ⟨h.configured, h.rb_configured, h.rb_cap, h.ackPkt, h.retxPkt, h.asm, h.pq, h.lastTx, h.tx⟩

/-- Everything RB.READ can do: answer `none`, or load, advance and clear; with context P's points between. -/
theorem rbRead_next {m : Interleave} {l : Line} {r : Line × Option Byte} (h : rbRead m l = .next r) :
    l.rb.configured = true ∧
    ((∃ l1, l1 = gap m l ∧ l1.rb.isEmptyForRead = true ∧ r = (l1, none)) ∨
     (∃ l2 l3 l4 b, (gap m l).rb.isEmptyForRead = false ∧ l2 = gap m (gap m l) ∧ l2.rb.buf.read l2.rb.rd = some b ∧
        l3 = gap m l2 ∧ l4 = settle m (takesUnflagged l3) (gap m { l3 with rb := l3.rb.r3 }) ∧
        r = ({ l4 with rb := l4.rb.r4 }, some b))) := by
  unfold rbRead at h
  split_ifs at h with hc
  refine ⟨hc, ?_⟩
  simp only at h
  split_ifs at h with he
  · cases h; exact .inl ⟨_, rfl, he, rfl⟩
  · split at h
    · cases h
    · next b hb =>
      cases h
      exact .inr ⟨_, _, _, b, by simpa using he, rfl, hb, rfl, rfl, rfl⟩

theorem rbRead_fault {m : Interleave} {l : Line} {e : Fault} (h : rbRead m l = .fault e) :
    e = .readOfNoValue ∧ l.rb.configured = true ∧ (gap m l).rb.isEmptyForRead = false ∧
      (gap m (gap m l)).rb.buf.read (gap m (gap m l)).rb.rd = none := by
  unfold rbRead at h
  split_ifs at h with hc
  simp only at h
  split_ifs at h with he
  split at h
  · next hn => cases h; exact ⟨rfl, hc, by simpa using he, hn⟩
  · cases h

theorem rbRead_readOnly {m : Interleave} {l : Line} {r : Line × Option Byte} (h : rbRead m l = .next r) :
    ReadOnly l r.1 := by
  obtain ⟨-, ⟨l1, rfl, -, rfl⟩ | ⟨l2, l3, l4, b, -, rfl, -, rfl, rfl, rfl⟩⟩ := rbRead_next h
  · exact (gap_producerOnly m l).readOnly
  · have h3 := ((gap_producerOnly m l).trans (gap_producerOnly m _)).trans (gap_producerOnly m (gap m (gap m l)))
    have h4 := (gap_producerOnly m { gap m (gap m (gap m l)) with rb := (gap m (gap m (gap m l))).rb.r3 }).trans
      (settle_producerOnly m (takesUnflagged (gap m (gap m (gap m l)))) _)
    exact ⟨h4.configured.trans h3.configured, h4.rb_configured.trans h3.rb_configured, h4.rb_cap.trans h3.rb_cap,
      h4.ackPkt.trans h3.ackPkt, h4.retxPkt.trans h3.retxPkt, h4.asm.trans h3.asm, h4.pq.trans h3.pq,
      h4.lastTx.trans h3.lastTx, h4.tx.trans h3.tx⟩

/-- RB.READ with no step of context P inside it, on a buffer with a byte to read. -/
theorem rbRead_quiet_some {m : Interleave} {l : Line} {b : Byte} (hq : Quiet m l) (hc : l.rb.configured = true)
    (he : l.rb.isEmptyForRead = false) (hb : l.rb.buf.read l.rb.rd = some b) :
    rbRead m l = .next ({ l with rb := (l.rb.r3).r4 }, some b) := by
  have hq' : Quiet m { l with rb := l.rb.r3 } := hq
  simp [rbRead, hc, gap_quiet hq, he, hb, takesUnflagged_idle hq.1, gap_quiet hq']

/-- RB.READ with no step of context P inside it, on an empty buffer. -/
theorem rbRead_quiet_none {m : Interleave} {l : Line} (hq : Quiet m l) (hc : l.rb.configured = true)
    (he : l.rb.isEmptyForRead = true) : rbRead m l = .next (l, none) := by
  simp [rbRead, hc, gap_quiet hq, he]

/-! ## The packet queue -/

theorem pqEnq_full {p : Image} {l : Line} (h : l.pq.isFull = true) : pqEnq p l = (l, false) := if_pos h

theorem pqEnq_room {p : Image} {l : Line} (h : l.pq.isFull = false) :
    pqEnq p l = ({ l with pq := l.pq.put p }, true) := by
  simp [pqEnq, h]

theorem pqDeq_next {l : Line} {r : Line × Option Image} (h : pqDeq l = .next r) :
    (l.pq.isEmpty = true ∧ r = (l, none)) ∨
    (∃ p, l.pq.isEmpty = false ∧ l.pq.slot.read l.pq.rd = some p ∧
      r = ({ l with pq := l.pq.drop }, some p)) := by
  unfold pqDeq at h
  split_ifs at h with he
  · cases h; exact .inl ⟨he, rfl⟩
  · split at h
    · cases h
    · next p hp => cases h; exact .inr ⟨p, by simpa using he, hp, rfl⟩

theorem pqDeq_fault {l : Line} {e : Fault} (h : pqDeq l = .fault e) :
    e = .readOfNoValue ∧ l.pq.isEmpty = false ∧ l.pq.slot.read l.pq.rd = none := by
  unfold pqDeq at h
  split_ifs at h with he
  split at h
  · next hn => cases h; exact ⟨rfl, by simpa using he, hn⟩
  · cases h

/-! ## The transmit path -/

theorem txFrame_next {cfg : Config} {p : Image} {l l' : Line} (h : txFrame cfg p l = .next l') :
    p.length.toNat ≤ cfg.MAX_PAYLOAD ∧ l' = { l.byteSend (wire p) with lastTx := some p } := by
  unfold txFrame at h
  split_ifs at h with hp
  cases h
  exact ⟨by omega, rfl⟩

theorem txFrame_of_le {cfg : Config} {p : Image} (l : Line) (h : p.length.toNat ≤ cfg.MAX_PAYLOAD) :
    txFrame cfg p l = .next { l.byteSend (wire p) with lastTx := some p } := if_neg (by omega)

theorem txFrame_no_fault {cfg : Config} {p : Image} {l : Line} {e : Fault} : txFrame cfg p l ≠ .fault e := by
  unfold txFrame; split_ifs <;> simp

/-- A property that every frame sent keeps is kept by TX.SEND. -/
theorem txSendUpTo_keeps {cfg : Config} {I : Line → Prop} (hframe : ∀ p l l', I l → txFrame cfg p l = .next l' → I l') :
    ∀ {fuel bytes l l'}, I l → txSendUpTo cfg fuel bytes l = .next l' → I l' := by
  intro fuel
  induction fuel with
  | zero => intro bytes l l' hl h; cases h; exact hl
  | succ fuel ih =>
    intro bytes l l' hl h
    unfold txSendUpTo at h
    split_ifs at h
    · cases h; exact hl
    · split at h
      · next l1 h1 => exact ih (hframe _ _ _ hl h1) h
      · cases h
      · cases h

theorem txSendUpTo_no_fault {cfg : Config} {e : Fault} : ∀ {fuel bytes l}, txSendUpTo cfg fuel bytes l ≠ .fault e := by
  intro fuel
  induction fuel with
  | zero => intro bytes l h; cases h
  | succ fuel ih =>
    intro bytes l h
    unfold txSendUpTo at h
    split_ifs at h
    split at h
    · exact ih h
    · next e' he => exact txFrame_no_fault he
    · cases h

/-! ## The assembler -/

/-- Everything completing a frame can do, by its class (42_assembler.md R109 to R112). -/
theorem completeFrame_next {cfg : Config} {l l' : Line} (h : completeFrame cfg l = .next l') :
    (classify cfg l.retxPkt l.ackPkt l.asm.pkt = .corrupt ∧ txFrame cfg l.retxPkt (l.raise .frameCorruption) = .next l') ∨
    (classify cfg l.retxPkt l.ackPkt l.asm.pkt = .retx ∧ txFrame cfg l.retxPkt l = .next l') ∨
    (classify cfg l.retxPkt l.ackPkt l.asm.pkt = .ack ∧ l' = l) ∨
    (classify cfg l.retxPkt l.ackPkt l.asm.pkt = .ordinary ∧
      ((l.pq.isFull = false ∧ txFrame cfg l.ackPkt (pqEnq l.asm.pkt l).1 = .next l') ∨
       (l.pq.isFull = true ∧ l' = l.raise .queueFull))) := by
  unfold completeFrame at h
  split at h
  · next hc => exact .inl ⟨hc, h⟩
  · next hc => exact .inr (.inl ⟨hc, h⟩)
  · next hc => cases h; exact .inr (.inr (.inl ⟨hc, rfl⟩))
  · next hc =>
    refine .inr (.inr (.inr ⟨hc, ?_⟩))
    by_cases hq : l.pq.isFull = true
    · rw [pqEnq_full hq] at h; cases h; exact .inr ⟨hq, rfl⟩
    · rw [Bool.not_eq_true] at hq
      rw [pqEnq_room hq] at h
      exact .inl ⟨hq, by rw [pqEnq_room hq]; exact h⟩

theorem completeFrame_no_fault {cfg : Config} {l : Line} {e : Fault} : completeFrame cfg l ≠ .fault e := by
  unfold completeFrame
  split
  · exact txFrame_no_fault
  · exact txFrame_no_fault
  · simp
  · split
    · exact txFrame_no_fault
    · simp

/-- Everything one transition can do (42_assembler.md R117): idle; a length, a data or a CRC byte taken; the byte-less
move to `AwaitingCrc`; the recovery from an unrecognised phase. -/
theorem asmStep_next {cfg : Config} {l : Line} {r : Line × Mark} (h : asmStep cfg l = .next r) :
    (∃ l', rbRead cfg.INTERLEAVE l = .next (l', none) ∧ r = (l', .idle)) ∨
    (∃ l' b, l.asm.phase = .awaitingLength ∧ rbRead cfg.INTERLEAVE l = .next (l', some b) ∧
      r = ({ l' with asm := l'.asm.takeLength cfg b }, .progress)) ∨
    (∃ l' b, l.asm.phase = .awaitingData ∧ l.asm.cnt.toNat < l.asm.pkt.length.toNat ∧
      l.asm.cnt.toNat < cfg.MAX_PAYLOAD ∧ rbRead cfg.INTERLEAVE l = .next (l', some b) ∧
      r = ({ l' with asm := l'.asm.takeData b }, .progress)) ∨
    (l.asm.phase = .awaitingData ∧ l.asm.pkt.length.toNat ≤ l.asm.cnt.toNat ∧
      r = ({ l with asm := l.asm.toPhase .awaitingCrc }, .progress)) ∨
    (∃ l' l'' b, l.asm.phase = .awaitingCrc ∧ rbRead cfg.INTERLEAVE l = .next (l', some b) ∧
      completeFrame cfg { l' with asm := l'.asm.takeCrc b } = .next l'' ∧ r = (l''.restartAsm, .progress)) ∨
    (l.asm.phase = .unrecognised ∧ r = ((l.raise .protocolDesync).restartAsm, .progress)) := by
  unfold asmStep at h
  split at h
  · next hp =>
    split at h
    · next l' hl => cases h; exact .inl ⟨l', hl, rfl⟩
    · next l' b hl => cases h; exact .inr (.inl ⟨l', b, hp, hl, rfl⟩)
    · cases h
    · cases h
  · next hp =>
    split_ifs at h with h1 h2
    · split at h
      · next l' hl => cases h; exact .inl ⟨l', hl, rfl⟩
      · next l' b hl => cases h; exact .inr (.inr (.inl ⟨l', b, hp, h1, h2, hl, rfl⟩))
      · cases h
      · cases h
    · cases h; exact .inr (.inr (.inr (.inl ⟨hp, by omega, rfl⟩)))
  · next hp =>
    split at h
    · next l' hl => cases h; exact .inl ⟨l', hl, rfl⟩
    · next l' b hl =>
      split at h
      · next l'' hl'' => cases h; exact .inr (.inr (.inr (.inr (.inl ⟨l', l'', b, hp, hl, hl'', rfl⟩))))
      · cases h
      · cases h
    · cases h
    · cases h
  · next hp => cases h; exact .inr (.inr (.inr (.inr (.inr ⟨hp, rfl⟩))))

/-- When one transition faults (60_exceptions.md R159). -/
theorem asmStep_fault {cfg : Config} {l : Line} {e : Fault} (h : asmStep cfg l = .fault e) :
    rbRead cfg.INTERLEAVE l = .fault e ∨
    (e = .lengthOutOfRange ∧ l.asm.phase = .awaitingData ∧ l.asm.cnt.toNat < l.asm.pkt.length.toNat ∧
      cfg.MAX_PAYLOAD ≤ l.asm.cnt.toNat) := by
  unfold asmStep at h
  split at h
  · split at h
    · cases h
    · cases h
    · next he => cases h; exact .inl he
    · cases h
  · next hp =>
    split_ifs at h with h1 h2
    · split at h
      · cases h
      · cases h
      · next he => cases h; exact .inl he
      · cases h
    · cases h; exact .inr ⟨rfl, hp, h1, by omega⟩
  · split at h
    · cases h
    · split at h
      · cases h
      · next he => exact absurd he completeFrame_no_fault
      · cases h
    · next he => cases h; exact .inl he
    · cases h
  · cases h

/-- A property that every transition keeps is kept by ASM.POLL. -/
theorem asmPollUpTo_keeps {cfg : Config} {I : Line → Prop}
    (hstep : ∀ l r, I l → asmStep cfg l = .next r → I r.1) :
    ∀ {fuel l r}, I l → asmPollUpTo cfg fuel l = .next r → I r.1 := by
  intro fuel
  induction fuel with
  | zero => intro l r hl h; cases h; exact hl
  | succ fuel ih =>
    intro l r hl h
    unfold asmPollUpTo at h
    split at h
    · next l1 h1 => cases h; exact hstep l _ hl h1
    · next l1 h1 => exact ih (hstep l _ hl h1) h
    · cases h
    · cases h

end Sys2Proof.Machine
end

