-- ==== Sys2Proof/Laws/Cursor.lean ====
section
/-! SUPPORT. Cursor arithmetic (40_ring_buffer.md R94, 43_packet_queue.md R126) as arithmetic modulo the capacity, and what
each micro-step keeps of the ring buffer's invariants. -/

namespace Sys2Proof.Machine

/-- 10_state.md R14: with a power of two for capacity, the mask is the remainder. -/
theorem mask_eq_mod {c : Nat} (h : isPow2 c = true) (x : Nat) : x &&& (c - 1) = x % c := by
  simp only [isPow2, Bool.and_eq_true, decide_eq_true_eq, beq_iff_eq] at h
  obtain ⟨k, rfl⟩ := (Nat.ne_zero_and_sub_one_eq_zero_iff_isPowerOfTwo (n := c)).1 ⟨by omega, h.2⟩
  exact Nat.and_two_pow_sub_one_eq_mod x k

theorem isPow2_pos {c : Nat} (h : isPow2 c = true) : 0 < c := by
  simp only [isPow2, Bool.and_eq_true, decide_eq_true_eq] at h
  omega

/-- A remainder of a number below twice the capacity. -/
theorem mod_below_twice {x c : Nat} (h : x < 2 * c) : x % c = if x < c then x else x - c := by
  split_ifs with hx
  · exact Nat.mod_eq_of_lt hx
  · rw [Nat.mod_eq_sub_mod (by omega), Nat.mod_eq_of_lt (by omega)]

theorem advance_eq {cap x : Nat} (h : isPow2 cap = true) (hx : x < cap) :
    advance x cap = if x + 1 < cap then x + 1 else 0 := by
  rw [advance, mask_eq_mod h, mod_below_twice (by omega)]
  split_ifs <;> omega

theorem advance_lt {cap x : Nat} (h : isPow2 cap = true) : advance x cap < cap := by
  rw [advance, mask_eq_mod h]
  exact Nat.mod_lt _ (isPow2_pos h)

/-- The element `k` places after the read cursor `rd`. -/
theorem index_eq {cap rd k : Nat} (h : isPow2 cap = true) (hr : rd < cap) (hk : k < cap) :
    (rd + k) &&& (cap - 1) = if rd + k < cap then rd + k else rd + k - cap := by
  rw [mask_eq_mod h, mod_below_twice (by omega)]

/-- How many places the write cursor is after the read cursor. -/
theorem ahead_eq {cap wr rd : Nat} (h : isPow2 cap = true) (hw : wr < cap) (hr : rd < cap) :
    (wr + cap - rd) &&& (cap - 1) = if rd ≤ wr then wr - rd else wr + cap - rd := by
  rw [mask_eq_mod h, mod_below_twice (by omega)]
  split_ifs <;> omega

theorem RingBuffer.distance_eq {rb : RingBuffer} (h : rb.Bounded) :
    rb.distance = if rb.rd ≤ rb.wr then rb.wr - rb.rd else rb.wr + rb.cap - rb.rd :=
  ahead_eq h.cap_pow2 h.wr_lt h.rd_lt

theorem RingBuffer.distance_lt {rb : RingBuffer} (h : rb.Bounded) : rb.distance < rb.cap := by
  have := h.wr_lt; have := h.rd_lt
  rw [RingBuffer.distance_eq h]; split_ifs <;> omega

/-! ## Bounds are kept -/

theorem RingBuffer.Bounded.w2 {rb : RingBuffer} (h : rb.Bounded) (b : Byte) : (rb.w2 b).Bounded :=
  ⟨h.cap_pow2, h.wr_lt, h.rd_lt, Memory.write_wf _ _ h.buf_wf, Memory.write_lt h.wr_lt h.buf_lt⟩

theorem RingBuffer.Bounded.w3 {rb : RingBuffer} (h : rb.Bounded) : rb.w3.Bounded :=
  ⟨h.cap_pow2, advance_lt h.cap_pow2, h.rd_lt, h.buf_wf, h.buf_lt⟩

theorem RingBuffer.Bounded.w4 {rb : RingBuffer} (h : rb.Bounded) : rb.w4.Bounded :=
  ⟨h.cap_pow2, h.wr_lt, h.rd_lt, h.buf_wf, h.buf_lt⟩

theorem RingBuffer.Bounded.r3 {rb : RingBuffer} (h : rb.Bounded) : rb.r3.Bounded :=
  ⟨h.cap_pow2, h.wr_lt, advance_lt h.cap_pow2, h.buf_wf, h.buf_lt⟩

theorem RingBuffer.Bounded.r4 {rb : RingBuffer} (h : rb.Bounded) : rb.r4.Bounded :=
  ⟨h.cap_pow2, h.wr_lt, h.rd_lt, h.buf_wf, h.buf_lt⟩

theorem RingBuffer.Bounded.store {rb : RingBuffer} (h : rb.Bounded) (b : Byte) : (rb.store b).Bounded :=
  ((h.w2 b).w3).w4

theorem RingBuffer.bounded_setup {cap : Nat} (h : isPow2 cap = true) : (RingBuffer.setup cap).Bounded :=
  ⟨h, isPow2_pos h, isPow2_pos h, rfl, by simp [RingBuffer.setup]⟩

/-! ## What a read can reach has been stored -/

/-- `RingBuffer.Stored` without the relation of the flag to the cursors, which does not hold between `r3` and `r4`. -/
structure RingBuffer.Reachable (rb : RingBuffer) : Prop where
  live_stored : ∀ k < rb.distance, rb.buf.read ((rb.rd + k) &&& (rb.cap - 1)) ≠ none
  full_stored : rb.full = true → ∀ a < rb.cap, rb.buf.read a ≠ none

theorem RingBuffer.Stored.reachable {rb : RingBuffer} (h : rb.Stored) : rb.Reachable := ⟨h.1, h.2⟩

/-- A whole RB.WRITE into a buffer that is not full keeps it. -/
theorem RingBuffer.Reachable.store {rb : RingBuffer} (hb : rb.Bounded) (h : rb.Reachable) (hf : rb.full = false)
    (b : Byte) : (rb.store b).Reachable := by
  have hC := hb.cap_pow2
  have hw := hb.wr_lt
  have hr := hb.rd_lt
  have hd := RingBuffer.distance_eq hb
  have hd' : (rb.store b).distance = (advance rb.wr rb.cap + rb.cap - rb.rd) &&& (rb.cap - 1) := rfl
  rw [ahead_eq hC (advance_lt hC) hr] at hd'
  have hadv : advance rb.wr rb.cap = if rb.wr + 1 < rb.cap then rb.wr + 1 else 0 := advance_eq hC hw
  -- an element `k` places after the read cursor is stored when `k` is at most the old distance
  have key : ∀ k ≤ rb.distance, (rb.buf.write rb.wr b).read ((rb.rd + k) &&& (rb.cap - 1)) ≠ none := by
    intro k hk
    have hlt := RingBuffer.distance_lt hb
    rcases Nat.lt_or_eq_of_le hk with hk | hk
    · exact Memory.read_write_ne_none _ _ _ _ (h.live_stored k hk)
    · have : (rb.rd + k) &&& (rb.cap - 1) = rb.wr := by
        rw [index_eq hC hr (by omega), hk, hd]; split_ifs <;> omega
      rw [this, Memory.read_write_same]; simp
  constructor
  · intro k hk
    have hk' : k ≤ rb.distance := by
      rw [hd'] at hk
      rw [hd]
      split_ifs at hk hadv ⊢ <;> omega
    exact key k hk'
  · intro hfull a ha
    have heq : advance rb.wr rb.cap = rb.rd := by
      simpa [RingBuffer.store, RingBuffer.fullAfterWrite, hf] using hfull
    have hdist : rb.distance = rb.cap - 1 := by
      rw [hadv] at heq; rw [hd]; split_ifs at heq ⊢ <;> omega
    have ha' : a < rb.cap := ha
    have hx : (rb.rd + (if rb.rd ≤ a then a - rb.rd else a + rb.cap - rb.rd)) &&& (rb.cap - 1) = a := by
      rw [index_eq hC hr (by split_ifs <;> omega)]
      split_ifs <;> omega
    have := key (if rb.rd ≤ a then a - rb.rd else a + rb.cap - rb.rd) (by split_ifs <;> omega)
    rwa [hx] at this

/-- Advancing the read cursor of a buffer with something to read keeps it. -/
theorem RingBuffer.Reachable.r3 {rb : RingBuffer} (hb : rb.Bounded) (h : rb.Reachable)
    (hne : rb.isEmptyForRead = false) : rb.r3.Reachable := by
  have hC := hb.cap_pow2
  have hw := hb.wr_lt
  have hr := hb.rd_lt
  refine ⟨fun k hk => ?_, h.full_stored⟩
  by_cases hf : rb.full = true
  · exact h.full_stored hf _ (by rw [r3_cap, mask_eq_mod hC]; exact Nat.mod_lt _ (isPow2_pos hC))
  · rw [Bool.not_eq_true] at hf
    have hne' : rb.rd ≠ rb.wr := by simpa [RingBuffer.isEmptyForRead, hf] using hne
    have hd' : rb.r3.distance = (rb.wr + rb.cap - advance rb.rd rb.cap) &&& (rb.cap - 1) := rfl
    rw [hd', ahead_eq hC hw (advance_lt hC)] at hk
    have hadv := advance_eq hC hr
    have := h.live_stored (k + 1) (by
      rw [RingBuffer.distance_eq hb]; split_ifs at hk hadv ⊢ <;> omega)
    have hlt : k + 1 < rb.cap := by split_ifs at hk hadv <;> omega
    have e : (rb.r3.rd + k) &&& (rb.r3.cap - 1) = (rb.rd + (k + 1)) &&& (rb.cap - 1) := by
      rw [index_eq hC hr hlt, r3_cap, r3_rd, index_eq hC (advance_lt hC) (by omega)]
      split_ifs at hadv ⊢ <;> omega
    rw [e]; exact this

theorem RingBuffer.Reachable.r4 {rb : RingBuffer} (h : rb.Reachable) : rb.r4.Stored :=
  ⟨h.live_stored, by simp, by simp⟩

end Sys2Proof.Machine
end

