-- ==== Sys2Proof/Laws/PerInstr.lean ====
section
/-! SUPPORT. What holds of every instruction as syntax, one lemma per constructor: the encoding of a well-formed
instruction matches its row of spec/opcode_table.json (30_encoding.md R68, R72, R76, R81, R82). -/

namespace Sys2Proof.Laws.RowMatch

/-- An operation is a request whose first byte is its code; a frame is on the wire of the line it names and has from two
bytes to two more than `MAX_PAYLOAD`, the first the count of those between it and the last; an image has
`PACKET_DATA_LENGTH` bytes. -/
def Statement (i : Instr) : Prop :=
  ∀ cfg : Config, cfg.Valid → i.wellFormed cfg = true →
    (∀ op, i.opCode? = some op → i.space = .request ∧ (encode cfg i).head? = some (BitVec.ofNat 8 op) ∧ op < 0xD) ∧
    (∀ n, i.space = .wire n → i.line? = some n ∧ (encode cfg i).length ≤ cfg.MAX_PAYLOAD + 2 ∧
      (encode cfg i).head? = some (BitVec.ofNat 8 ((encode cfg i).length - 2)) ∧ 2 ≤ (encode cfg i).length) ∧
    (i.space = .image → i.line? = none ∧ (encode cfg i).length = cfg.PACKET_DATA_LENGTH)

theorem rbSetup (line capacity : Nat) : Statement (.rbSetup line capacity) := by
  simp [Statement, Instr.opCode?, Instr.space, encode]

theorem rbWrite (line : Nat) (byte : Byte) : Statement (.rbWrite line byte) := by
  simp [Statement, Instr.opCode?, Instr.space, encode]

theorem rbRead (line : Nat) : Statement (.rbRead line) := by
  simp [Statement, Instr.opCode?, Instr.space, encode]

theorem rbIsEmpty (line : Nat) : Statement (.rbIsEmpty line) := by
  simp [Statement, Instr.opCode?, Instr.space, encode]

theorem crc8 (bytes : List Byte) (length : Nat) : Statement (.crc8 bytes length) := by
  simp [Statement, Instr.opCode?, Instr.space, encode]

theorem asmStep (line : Nat) : Statement (.asmStep line) := by
  simp [Statement, Instr.opCode?, Instr.space, encode]

theorem asmPoll (line : Nat) : Statement (.asmPoll line) := by
  simp [Statement, Instr.opCode?, Instr.space, encode]

theorem pqEnq (line : Nat) (packet : Image) : Statement (.pqEnq line packet) := by
  simp [Statement, Instr.opCode?, Instr.space, encode]

theorem pqDeq (line : Nat) : Statement (.pqDeq line) := by
  simp [Statement, Instr.opCode?, Instr.space, encode]

theorem pqAvail (line : Nat) : Statement (.pqAvail line) := by
  simp [Statement, Instr.opCode?, Instr.space, encode]

theorem txFrame (line : Nat) (packet : Image) : Statement (.txFrame line packet) := by
  simp [Statement, Instr.opCode?, Instr.space, encode]

theorem txSend (line : Nat) (bytes : List Byte) : Statement (.txSend line bytes) := by
  simp [Statement, Instr.opCode?, Instr.space, encode]

theorem lineInit (line capacity : Nat) (allocOk : Bool) : Statement (.lineInit line capacity allocOk) := by
  simp [Statement, Instr.opCode?, Instr.space, encode]

theorem frameData (line : Nat) (data : List Byte) (crc : Byte) : Statement (.frameData line data crc) := by
  intro cfg _ h
  simp only [Instr.wellFormed, Bool.and_eq_true, decide_eq_true_eq] at h
  simp [Instr.opCode?, Instr.space, Instr.line?, encode, frameBytes]
  omega

/-- The frame of a sentinel is a marker between a count of 1 and a CRC byte. -/
theorem wire_mkpkt_one (cfg : Config) (b : Byte) : wire (mkpkt cfg [b]) = [1, b, (mkpkt cfg [b]).crc] := by
  simp [wire, mkpkt, padded]

theorem frameAck (line : Nat) : Statement (.frameAck line) := by
  intro cfg hv _
  have := hv.payload_pos
  simp [Instr.opCode?, Instr.space, Instr.line?, encode, ackFrame, ackImage, wire_mkpkt_one]
  omega

theorem frameRetx (line : Nat) : Statement (.frameRetx line) := by
  intro cfg hv _
  have := hv.payload_pos
  simp [Instr.opCode?, Instr.space, Instr.line?, encode, retxFrame, retxImage, wire_mkpkt_one]
  omega

theorem packetImage (image : Image) : Statement (.packetImage image) := by
  intro cfg hv h
  simp only [Instr.wellFormed, Bool.and_eq_true, decide_eq_true_eq] at h
  have := hv.image_size
  simp [Instr.opCode?, Instr.space, Instr.line?, encode, Image.bytes]
  omega

end Sys2Proof.Laws.RowMatch
end

