-- ==== Sys2Proof/Tests/Slice0.lean ====
section
/-! SUPPORT. Tests: ill-formed terms refused, words written out from the spec's encodings decoded, the vectors of
spec/95_test_vectors.md, and for each statement a state and operands that meet its hypotheses. -/

namespace Sys2Proof.Tests

-- One theorem at a time: many at once ask for more threads than the memory limit allows.
set_option Elab.async false

open Sys2Proof.Machine

/-! ## Helpers -/

/-- The parameters at their defaults, for which the spec gives its vectors. -/
abbrev cfg : Config := Config.default

/-- An instance with other constants: its sentinels' bytes must follow (30_encoding.md R80). -/
def other : Config :=
  { PACKET_DATA_LENGTH := 8, MAX_PAYLOAD := 6, FILL := 0x00, RETX_MARK := 0x21, ACK_MARK := 0x22, CRC_POLY := 0x1D }

/-- One line, issued to by `c`. -/
def on (c : Context) (l : Line) : State := { State.reset with ctx := c, lines := [l] }

/-- A line after LINE.INIT with capacity `cap`, its queue of four slots. -/
def ready (cap : Nat) : Line := initLine cfg cap (Line.powerOn cfg 4)

/-- A ready line whose ring buffer has received `bs`. -/
def holding (cap : Nat) (bs : List Byte) : Line := (deliver bs (ready cap)).1

/-- A ready line after one byte in and out: cursors at 1. -/
def turned (cap : Nat) : Line :=
  { ready cap with rb := { configured := true, cap := cap, wr := 1, rd := 1, full := false, buf := [(0, 0x00)] } }

def resp? (o : Host.Outcome State Fault Refusal) : Option Response :=
  match o with
  | .next t => some t.resp
  | .fault _ => none
  | .refused _ => none

def line? (o : Host.Outcome State Fault Refusal) : Option Line :=
  match o with
  | .next t => t.lines[0]?
  | .fault _ => none
  | .refused _ => none

def fault? (o : Host.Outcome State Fault Refusal) : Option Fault :=
  match o with
  | .next _ => none
  | .fault e => some e
  | .refused _ => none

def refusal? (o : Host.Outcome State Fault Refusal) : Option Refusal :=
  match o with
  | .next _ => none
  | .fault _ => none
  | .refused e => some e

/-- The images of PK-4 and PK-8. -/
def hi : Image := mkpkt cfg [0x48, 0x69]

def aToN : List Byte := [0x41, 0x42, 0x43, 0x44, 0x45, 0x46, 0x47, 0x48, 0x49, 0x4A, 0x4B, 0x4C, 0x4D, 0x4E]

/-! ## Well-formedness: each check refuses an ill-formed term -/

theorem test_frameData_fifteen_bytes_ill_formed :
    Instr.wellFormed cfg (.frameData 0 (List.replicate 15 0x41) 0x00) = false := by decide

theorem test_frameData_ack_frame_ill_formed : Instr.wellFormed cfg (.frameData 0 [0x12] 0xC4) = false := by decide +kernel

theorem test_frameData_retx_frame_ill_formed : Instr.wellFormed cfg (.frameData 0 [0x11] 0x7F) = false := by decide +kernel

theorem test_packetImage_length_fifteen_ill_formed :
    Instr.wellFormed cfg (.packetImage { hi with length := 15 }) = false := by decide

theorem test_packets_of_the_wrong_size_ill_formed :
    Instr.wellFormed cfg (.pqEnq 0 { hi with data := aToN.take 13 }) = false ∧
    Instr.wellFormed cfg (.txFrame 0 { hi with data := aToN ++ [0x4F] }) = false ∧
    Instr.wellFormed cfg (.packetImage { hi with data := [] }) = false := by decide

theorem test_frameData_fourteen_bytes_well_formed : Instr.wellFormed cfg (.frameData 0 aToN 0x4C) = true := by decide

theorem test_frameData_ack_payload_wrong_crc_well_formed : Instr.wellFormed cfg (.frameData 0 [0x12] 0xC5) = true := by
  decide +kernel

/-! ## Decoding: words written out from 30_encoding.md (R68, R72, R76, R82) and the programs of 95_test_vectors.md -/

theorem test_decode_rbSetup : decode cfg .request [0x00, 0x00, 0x04] = .ok (.rbSetup 0 4, []) := rfl
theorem test_decode_rbWrite : decode cfg .request [0x01, 0x00, 0x10] = .ok (.rbWrite 0 0x10, []) := rfl
theorem test_decode_rbRead : decode cfg .request [0x02, 0x00] = .ok (.rbRead 0, []) := rfl
theorem test_decode_rbIsEmpty : decode cfg .request [0x03, 0x00] = .ok (.rbIsEmpty 0, []) := rfl
theorem test_decode_crc8 : decode cfg .request [0x04, 0x03, 0x01, 0x02, 0x03, 0x03] = .ok (.crc8 [0x01, 0x02, 0x03] 3, []) :=
  rfl
theorem test_decode_asmStep : decode cfg .request [0x05, 0x00] = .ok (.asmStep 0, []) := rfl
theorem test_decode_asmPoll : decode cfg .request [0x06, 0x00] = .ok (.asmPoll 0, []) := rfl
theorem test_decode_pqEnq : decode cfg .request ([0x07, 0x00, 0x02, 0x48, 0x69] ++ List.replicate 12 0xFF ++ [0xB3]) =
    .ok (.pqEnq 0 (mkpkt cfg [0x48, 0x69]), []) := by decide +kernel
theorem test_decode_pqDeq : decode cfg .request [0x08, 0x00] = .ok (.pqDeq 0, []) := rfl
theorem test_decode_pqAvail : decode cfg .request [0x09, 0x00] = .ok (.pqAvail 0, []) := rfl
theorem test_decode_txFrame : decode cfg .request ([0x0A, 0x00, 0x01, 0x12] ++ List.replicate 13 0xFF ++ [0xC4]) =
    .ok (.txFrame 0 (mkpkt cfg [0x12]), []) := by decide +kernel
theorem test_decode_txSend : decode cfg .request [0x0B, 0x00, 0x02, 0x48, 0x69] = .ok (.txSend 0 [0x48, 0x69], []) := rfl
theorem test_decode_lineInit : decode cfg .request [0x0C, 0x00, 0x08, 0x01] = .ok (.lineInit 0 8 true, []) := rfl
theorem test_decode_lineInit_capacity_256 :
    decode cfg .request [0x0C, 0x00, 0x80, 0x02, 0x01] = .ok (.lineInit 0 256 true, []) := rfl
theorem test_decode_frameData : decode cfg (.wire 0) [0x02, 0x48, 0x69, 0xB3] = .ok (.frameData 0 [0x48, 0x69] 0xB3, []) := rfl
theorem test_decode_frameAck : decode cfg (.wire 0) [0x01, 0x12, 0xC4] = .ok (.frameAck 0, []) := by decide +kernel
theorem test_decode_frameRetx : decode cfg (.wire 0) [0x01, 0x11, 0x7F] = .ok (.frameRetx 0, []) := by decide +kernel
theorem test_decode_packetImage : decode cfg .image ([0x02, 0x48, 0x69] ++ List.replicate 12 0xFF ++ [0xB3]) =
    .ok (.packetImage (mkpkt cfg [0x48, 0x69]), []) := by decide +kernel

/-- R83, R79: reserved codes and lengths are not read as a neighbour. -/
theorem test_decode_reserved : decode cfg .request [0x0D, 0x00] = .error .noSuchOperation ∧
    decode cfg (.wire 0) [0x0F, 0x00] = .error .illegalLength ∧
    decode cfg .image (0x0F :: List.replicate 15 0x00) = .error .illegalLength := ⟨rfl, rfl, rfl⟩

/-- What the host asks of a word: it is placed in front of the schedule and the next step runs it. -/
theorem test_fetchWord_lineInit : fault? (step (State.reset.withFetchWord 8 0xC)) = none ∧
    resp? (step (State.reset.withFetchWord 8 0xC)) = some (.configError .invalidCapacity) := by decide

/-! ## Other constants (30_encoding.md R80: the derived bytes are recomputed; the CRCs computed outside the model) -/

theorem test_other_sentinel_frames : ackFrame other = [0x01, 0x22, 0x53] ∧ retxFrame other = [0x01, 0x21, 0xED] ∧
    decode other (.wire 0) [0x01, 0x22, 0x53] = .ok (.frameAck 0, []) ∧
    decode other (.wire 0) [0x01, 0x12, 0xC4] = .ok (.frameData 0 [0x12] 0xC4, []) := by decide +kernel

/-! ## Reset -/

theorem test_reset_memories_canonical : ∀ l ∈ State.reset.lines, l.rb.buf.wf = true ∧ l.pq.slot.wf = true := by decide

/-! ## Vectors of spec/95_test_vectors.md -/

/-- RB-4. -/
theorem test_rbSetup_eight : (line? (exec (.rbSetup 0 8) (on .init (Line.powerOn cfg 4)))).map (·.rb) =
    some { configured := true, cap := 8, wr := 0, rd := 0, full := false, buf := [] } := by decide
/-- RB-4. -/
theorem test_rbSetup_twelve : resp? (exec (.rbSetup 0 12) (on .init (Line.powerOn cfg 4))) =
    some (.configError .invalidCapacity) := by decide
/-- RB-1 row 7. -/
theorem test_rbWrite_fills : (line? (exec (.rbWrite 0 0x40) (on .producer (holding 4 [0x10, 0x20, 0x30])))).map (·.rb) =
    some { configured := true, cap := 4, wr := 0, rd := 0, full := true,
           buf := [(0, 0x10), (1, 0x20), (2, 0x30), (3, 0x40)] } := by decide
/-- RB-1 row 8. -/
theorem test_rbWrite_overrun :
    (line? (exec (.rbWrite 0 0x50) (on .producer (holding 4 [0x10, 0x20, 0x30, 0x40])))).map (·.raised) =
      some [.overrun 0x50] := by decide
/-- RB-1 row 10. -/
theorem test_rbRead_full : resp? (exec (.rbRead 0) (on .consumer (holding 4 [0x10, 0x20, 0x30, 0x40]))) =
    some (.optByte (some 0x10)) := by decide
/-- PRG-9: the lost contents. -/
theorem test_rbRead_lost_contents :
    (line? (exec (.rbRead 0) (on .consumer { holding 4 [0xA1, 0xB2, 0xC3] with
      p := { rx := [0xD4, 0xE5], plan := [0, 0, 0, 2], busy := none, replies := [] } }))).map (·.rb) =
      some { configured := true, cap := 4, wr := 1, rd := 1, full := false,
             buf := [(0, 0xE5), (1, 0xB2), (2, 0xC3), (3, 0xD4)] } := by decide
/-- RB-1 row 9: true for a full buffer. -/
theorem test_rbIsEmpty_full : resp? (exec (.rbIsEmpty 0) (on .consumer (holding 4 [0x10, 0x20, 0x30, 0x40]))) =
    some (.bool true) := by decide
/-- RB-1 row 6. -/
theorem test_rbIsEmpty_three : resp? (exec (.rbIsEmpty 0) (on .consumer (holding 4 [0x10, 0x20, 0x30]))) =
    some (.bool false) := by decide
/-- CRC-2. -/
theorem test_crc8_two_bytes : resp? (exec (.crc8 [0x48, 0x69] 2) State.reset) = some (.byte 0xEB) := by decide +kernel
/-- U8. -/
theorem test_crc8_bad_range : refusal? (exec (.crc8 [0x48, 0x69] 3) State.reset) = some .badRange := by decide
/-- ASM-9 row 1. -/
theorem test_asmStep_length :
    (line? (exec (.asmStep 0) (on .consumer (holding 8 [0x02, 0x48, 0x69, 0xB3])))).map (·.asm) =
      some { phase := .awaitingData
             pkt := { length := 2, data := List.replicate 14 0xFF, crc := 0 }
             cnt := 0 } := by decide
/-- ASM-11. -/
theorem test_asmStep_fifteenth_byte :
    fault? (exec (.asmStep 0) (on .consumer { holding 8 [0x4F] with
      asm := { phase := .awaitingData, pkt := { hi with length := 15 }, cnt := 14 } })) = some .lengthOutOfRange := by
  decide
/-- ASM-1. -/
theorem test_asmPoll_ordinary : (line? (exec (.asmPoll 0) (on .consumer (holding 8 [0x02, 0x48, 0x69, 0xB3])))).map
    (fun l => (l.pq.slot, l.tx, l.raised)) = some ([(0, hi)], [0x01, 0x12, 0xC4], []) := by decide +kernel
/-- ASM-3. -/
theorem test_asmPoll_corrupt : (line? (exec (.asmPoll 0) (on .consumer (holding 8 [0x02, 0x48, 0x69, 0xB2])))).map
    (fun l => (l.pq.slot, l.tx, l.raised)) = some ([], [0x01, 0x11, 0x7F], [.frameCorruption]) := by decide +kernel
/-- PQ-1 row 9: the index wraps. -/
theorem test_pqEnq_wraps : (line? (exec (.pqEnq 0 hi) (on .consumer { ready 4 with
      pq := { cap := 4, slot := [(1, hi), (2, hi)], wr := 3, rd := 1 } }))).map (fun l => (l.pq.wr, l.pq.rd)) =
    some (0, 1) := by decide
/-- PQ-1 row 6. -/
theorem test_pqEnq_full : resp? (exec (.pqEnq 0 hi) (on .consumer { ready 4 with
      pq := { cap := 4, slot := [(0, hi), (1, hi), (2, hi)], wr := 3, rd := 0 } })) = some (.bool false) := by decide
/-- R122's example. -/
theorem test_pqDeq_wraps : (line? (exec (.pqDeq 0) (on .consumer { ready 4 with
      pq := { cap := 4, slot := [(3, hi)], wr := 0, rd := 3 } }))).map (fun l => (l.pq.rd, l.pq.slot)) =
    some (0, [(3, hi)]) := by decide +kernel
/-- PQ-1 row 2. -/
theorem test_pqDeq_empty : resp? (exec (.pqDeq 0) (on .consumer (ready 4))) = some (.optPacket none) := by decide
/-- PRG-2 row 6: a frame that waits in the ring buffer is not looked at. -/
theorem test_pqAvail_frame_waits : resp? (exec (.pqAvail 0) (on .consumer (holding 8 [0x02, 0x48, 0x69, 0xB3]))) =
    some (.bool false) := by decide
/-- TX-3. -/
theorem test_txFrame_empty_payload :
    (line? (exec (.txFrame 0 (mkpkt cfg [])) (on .consumer (ready 4)))).map (·.tx) = some [0x00, 0xA3] := by decide +kernel
/-- TX-7. -/
theorem test_txFrame_too_long :
    refusal? (exec (.txFrame 0 { hi with length := 0x0F }) (on .consumer (ready 4))) = some .frameTooLong := by decide
/-- TX-6. -/
theorem test_txSend_fifteen_bytes :
    (line? (exec (.txSend 0 (aToN ++ [0x12])) (on .consumer (ready 4)))).map (·.tx) =
      some (0x0E :: aToN ++ [0x4C, 0x01, 0x12, 0xC4]) := by decide +kernel
/-- TX-1. -/
theorem test_txSend_nothing : (line? (exec (.txSend 0 []) (on .consumer (ready 4)))).map (fun l => (l.tx, l.lastTx)) =
    some ([], none) := by decide
/-- R34: the sentinels. -/
theorem test_lineInit_sentinels : (line? (exec (.lineInit 0 8 true) (on .init (Line.powerOn cfg 4)))).map
    (fun l => (l.ackPkt.bytes, l.retxPkt.bytes)) =
    some ([0x01, 0x12] ++ List.replicate 13 0xFF ++ [0xC4], [0x01, 0x11] ++ List.replicate 13 0xFF ++ [0x7F]) := by
  decide +kernel
/-- Part 2.7: the line number is checked first. -/
theorem test_lineInit_order : resp? (exec (.lineInit 1 12 false) (on .init (Line.powerOn cfg 4))) =
    some (.configError .invalidLine) := by decide
/-- PK-7 arrives in a buffer with three places free. -/
theorem test_frameData_arrives : resp? (exec (.frameData 0 [0x11, 0x00] 0x10) (on .producer (holding 4 [0x00]))) =
    some (.bools [true, true, true, false]) := by decide
/-- ASM-5's bytes. -/
theorem test_frameAck_arrives : (line? (exec (.frameAck 0) (on .producer (ready 4)))).map (·.rb.buf) =
    some [(0, 0x01), (1, 0x12), (2, 0xC4)] := by decide +kernel
/-- ASM-4's bytes. -/
theorem test_frameRetx_arrives : (line? (exec (.frameRetx 0) (on .producer (ready 4)))).map (·.rb.buf) =
    some [(0, 0x01), (1, 0x11), (2, 0x7F)] := by decide +kernel
/-- PK-11: the uncovered byte. -/
theorem test_packetImage_uncovered : resp? (exec (.packetImage (Image.ofBytes cfg (0x0E :: aToN.take 13 ++ [0x00, 0x4C]))) State.reset) =
    some (.frameClass .ordinary) := by decide +kernel
/-- V2. -/
theorem test_packetImage_ack : resp? (exec (.packetImage (ackImage cfg)) State.reset) = some (.frameClass .ack) := by
  decide +kernel
/-- PRG-2 row 7. -/
theorem test_readNextPacket : resp? (execPseudo (.readNextPacket 0) (on .consumer (holding 8 [0x02, 0x48, 0x69, 0xB3]))) =
    some (.optPacket (some hi)) := by decide +kernel

/-! ## Witnesses: for each statement, states and operands that meet its hypotheses -/

/-- The ring buffer's part of the invariants, computed. -/
def ringOk (rb : RingBuffer) : Bool :=
  isPow2 rb.cap && decide (rb.wr < rb.cap) && decide (rb.rd < rb.cap) && rb.buf.wf &&
  rb.buf.all (fun e => decide (e.1 < rb.cap)) &&
  (List.range rb.distance).all (fun k => (rb.buf.read ((rb.rd + k) &&& (rb.cap - 1))).isSome) &&
  (!rb.full || ((List.range rb.cap).all (fun a => (rb.buf.read a).isSome) && rb.wr == rb.rd))

/-- The packet queue's part, computed. -/
def queueOk (q : PacketQueue) : Bool :=
  isPow2 q.cap && decide (2 ≤ q.cap) && decide (q.wr < q.cap) && decide (q.rd < q.cap) && q.slot.wf &&
  q.slot.all (fun e => decide (e.1 < q.cap)) &&
  (List.range q.count).all (fun k => (q.slot.read ((q.rd + k) &&& (q.cap - 1))).isSome)

/-- The data bytes from index `n` on are `FILL`, computed. -/
def filledFrom (c : Config) (n : Nat) (p : Image) : Bool :=
  decide ((p.data.take n).length = n) && decide (n ≤ c.MAX_PAYLOAD) && p.data == padded c (p.data.take n)

/-- The assembler's part, computed. -/
def asmOk (c : Config) (a : Assembler) : Bool :=
  match a.phase with
  | .awaitingLength => true
  | .awaitingData => decide (a.cnt.toNat ≤ a.pkt.length.toNat) && filledFrom c a.cnt.toNat a.pkt
  | .awaitingCrc => a.cnt == a.pkt.length && filledFrom c a.cnt.toNat a.pkt
  | .unrecognised => false

/-- The part of an RB.WRITE in progress, computed. -/
def writeOk (l : Line) : Bool :=
  match l.p.busy with
  | none => true
  | some ⟨_, .w2⟩ => !l.rb.full
  | some ⟨_, .w3⟩ => !l.rb.full && (l.rb.buf.read l.rb.wr).isSome
  | some ⟨_, .w4⟩ => !l.rb.full && (l.rb.wr != l.rb.rd || (List.range l.rb.cap).all fun a => (l.rb.buf.read a).isSome)

/-- Both invariants of a line that has sent nothing, computed. -/
def lineOk (c : Config) (l : Line) : Bool :=
  (!l.rb.configured || ringOk l.rb) && (!l.configured || l.rb.configured) && (l.p.busy == none || l.rb.configured) &&
  (!l.configured || (l.ackPkt == ackImage c && l.retxPkt == retxImage c && queueOk l.pq && asmOk c l.asm &&
    l.pq.slot.all fun e => decide (e.2.Sized c))) &&
  isPow2 l.pq.cap && decide (2 ≤ l.pq.cap) && l.tx == [] && l.lastTx == none && writeOk l

theorem filled_of {c : Config} {n : Nat} {p : Image} (h : filledFrom c n p = true) : FilledFrom c n p := by
  simp only [filledFrom, Bool.and_eq_true, decide_eq_true_eq, beq_iff_eq] at h
  exact ⟨p.data.take n, h.1.1, h.1.2, h.2⟩

theorem ring_of {rb : RingBuffer} (h : ringOk rb = true) : rb.Bounded ∧ rb.Stored := by
  simp only [ringOk, Bool.and_eq_true, Bool.or_eq_true, decide_eq_true_eq, List.all_eq_true, List.mem_range,
    Bool.not_eq_true', beq_iff_eq, Option.isSome_iff_ne_none] at h
  obtain ⟨⟨⟨⟨⟨⟨hc, hw⟩, hr⟩, hf⟩, hl⟩, hs⟩, hfull⟩ := h
  refine ⟨⟨hc, hw, hr, hf, hl⟩, ⟨hs, fun h => ?_, fun h => ?_⟩⟩
  · exact (hfull.resolve_left (by simp [h])).1
  · exact (hfull.resolve_left (by simp [h])).2

theorem queue_of {q : PacketQueue} (h : queueOk q = true) : q.Inv := by
  simp only [queueOk, Bool.and_eq_true, decide_eq_true_eq, List.all_eq_true, List.mem_range,
    Option.isSome_iff_ne_none] at h
  obtain ⟨⟨⟨⟨⟨⟨h1, h2⟩, h3⟩, h4⟩, h5⟩, h6⟩, h7⟩ := h
  exact ⟨h1, h2, h3, h4, h5, h6, h7⟩

theorem asm_of {c : Config} {a : Assembler} (h : asmOk c a = true) : a.Inv c := by
  obtain ⟨ph, pkt, cnt⟩ := a
  cases ph <;> simp only [asmOk, Bool.and_eq_true, decide_eq_true_eq, beq_iff_eq, Bool.false_eq_true] at h
  · exact ⟨by simp, by simp, by simp⟩
  · exact ⟨by simp, fun _ => ⟨h.1, filled_of h.2⟩, by simp⟩
  · exact ⟨by simp, by simp, fun _ => ⟨h.1, filled_of h.2⟩⟩

theorem write_of {l : Line} (h : writeOk l = true) : l.WriteInProgress := by
  unfold writeOk at h
  split at h
  · next hb => exact ⟨by simp [hb], by simp [hb], by simp [hb]⟩
  · next hb => exact ⟨by simpa [hb] using h, by simp [hb], by simp [hb]⟩
  · next hb =>
    simp only [Bool.and_eq_true, Bool.not_eq_true', Option.isSome_iff_ne_none] at h
    exact ⟨fun _ => h.1, fun _ => h.2, by simp [hb]⟩
  · next hb =>
    simp only [Bool.and_eq_true, Bool.not_eq_true', Bool.or_eq_true, bne_iff_ne, List.all_eq_true, List.mem_range,
      Option.isSome_iff_ne_none] at h
    exact ⟨fun _ => h.1, by simp [hb], fun _ he => h.2.resolve_left fun hne => hne he⟩

/-- The computed check gives both invariants, under each setting of R57 that can have the line's RB.WRITE in progress. -/
theorem meetsUnder (c : Config) (m : Interleave) (hm : m ≠ .anyOrder) {l : Line} (hb : m ≠ .concurrent → l.p.busy = none)
    (h : lineOk c l = true) : l.Inv c ∧ l.Sound m := by
  simp only [lineOk, Bool.and_eq_true, Bool.or_eq_true, Bool.not_eq_true', decide_eq_true_eq, beq_iff_eq,
    List.all_eq_true] at h
  obtain ⟨⟨⟨⟨⟨⟨⟨⟨hr, hcf⟩, hbc⟩, hl⟩, hp⟩, h2⟩, ht⟩, hlt⟩, hw⟩ := h
  have hr' : l.rb.configured = true → l.rb.Bounded ∧ l.rb.Stored := fun k => ring_of (hr.resolve_left (by simp [k]))
  have hl' := fun k : l.configured = true => hl.resolve_left (by simp [k])
  exact ⟨⟨fun k => (hr' k).1, fun k => hcf.resolve_left (by simp [k]), fun k => hbc.resolve_left k,
    fun k => ⟨(hl' k).1.1.1.1, (hl' k).1.1.1.2⟩, ⟨hp, h2⟩, fun k => queue_of (hl' k).1.1.2,
    fun k => asm_of (hl' k).1.2, ⟨[], by simp, by simp [ht], by simp [hlt]⟩, fun k => (hl' k).2⟩,
    ⟨hm, hb, fun k => (hr' k).2, write_of hw⟩⟩

theorem meets {l : Line} (h : (lineOk cfg l && l.p.busy == none) = true) : l.Inv cfg ∧ l.Sound .preempt := by
  simp only [Bool.and_eq_true, beq_iff_eq] at h
  exact meetsUnder cfg .preempt (by decide) (fun _ => h.2) h.1

/-- The default parameters make an instance. -/
theorem default_valid : cfg.Valid := ⟨rfl, by decide, by decide, by decide, by decide⟩

theorem other_valid : other.Valid := ⟨rfl, by decide, by decide, by decide, by decide⟩

theorem on_meets {c : Context} {l : Line} (h : (lineOk cfg l && l.p.busy == none) = true) :
    (on c l).Inv ∧ (on c l).Sound := by
  refine ⟨⟨default_valid, fun k hk => ?_⟩, fun k hk => ?_⟩ <;>
  · obtain rfl : k = l := by simpa [on] using hk
    first | exact (meets h).1 | exact (meets h).2

theorem betweenFrames {l : Line} (h : (lineOk cfg l && l.p.busy == none) = true)
    (k : l.configured = true ∧ l.asm.phase = .awaitingLength ∧ l.p.plan = [] ∧ l.p.busy = none) : BetweenFrames cfg l :=
  ⟨default_valid, k.1, k.2.1, (meets h).1, (meets h).2, k.2.2.2, .inr k.2.2.1⟩

theorem next_of {o : Host.Outcome State Fault Refusal} (h : (resp? o).isSome = true) : ∃ t, o = .next t := by
  cases o with
  | next t => exact ⟨t, rfl⟩
  | fault e => simp [resp?] at h
  | refused e => simp [resp?] at h

theorem fault_of {o : Host.Outcome State Fault Refusal} {e : Fault} (h : fault? o = some e) : o = .fault e := by
  cases o with
  | next t => simp [fault?] at h
  | fault e' => simp only [fault?, Option.some.injEq] at h; rw [h]
  | refused e' => simp [fault?] at h

def reads? (l : Line) : Option (Option Byte) :=
  match rbRead .preempt l with
  | .next r => some r.2
  | .fault _ => none
  | .refused _ => none

theorem reads_of {l : Line} {b : Option Byte} (h : reads? l = some b) : ∃ l', rbRead .preempt l = .next (l', b) := by
  unfold reads? at h
  split at h
  · next r hr => simp only [Option.some.injEq] at h; exact ⟨r.1, by rw [hr, ← h]⟩
  · cases h
  · cases h

/-- A line in the middle of a frame, its data bytes `FILL`. -/
def inFrame (ph : Phase) (length cnt : Byte) (bs : List Byte) : Line :=
  { holding 8 bs with asm := { phase := ph, pkt := { length := length, data := List.replicate 14 0xFF, crc := 0 }, cnt := cnt } }

/-- A line that has all of the frame of `P` but its CRC byte, which waits in the buffer. -/
def atCrc (P : List Byte) (crc : Byte) : Line :=
  { holding 8 [crc] with asm := { phase := .awaitingCrc, pkt := mkpkt cfg P, cnt := BitVec.ofNat 8 P.length } }

/-- A line with `k` packets in its queue of four slots. -/
def queued (k : Nat) (bs : List Byte) : Line :=
  { holding 8 bs with pq := { cap := 4, slot := (List.range k).map (·, hi), wr := k, rd := 0 } }

/-- A line of capacity `cap` holding `bs`, whose RX source delivers `rx` by `plan`. -/
def racing (cap : Nat) (bs rx : List Byte) (plan : List Nat) : Line :=
  { holding cap bs with p := { rx := rx, plan := plan, busy := none, replies := [] } }

/-- The line of `holding`, with an RB.WRITE of `b` between `w3` and `w4`. -/
def beforeW4 (cap : Nat) (bs : List Byte) (b : Byte) : Line :=
  pMicro (pMicro (pMicro (racing cap bs [b] [])))

/-- A line whose only byte is that of an RB.WRITE between `w3` and `w4`, and whose context P makes the `w4` and tries to
write `rx` between `r3` and `r4` of the next read. -/
def duringRead (rx : List Byte) : Line :=
  { beforeW4 4 [] 0xA1 with p :=
    { rx := rx, plan := [0, 0, 0, rx.length + 1], busy := some ⟨0xA1, .w4⟩, replies := [] } }

abbrev concurrently : Config := { cfg with INTERLEAVE := .concurrent }

/-- One line under `concurrent`, context K issuing. -/
def onConcurrent (l : Line) : State := { on .consumer l with config := concurrently }

/-! ### Encoding, steps -/

theorem witness_DecodeOfEncodeIsIdentity : (cfg.Valid ∧ other.Valid) ∧
    Instr.wellFormed cfg (.frameData 0 aToN 0x4C) = true ∧ Instr.wellFormed cfg (.packetImage { hi with length := 14 }) = true ∧
    Instr.wellFormed cfg (.lineInit 0 256 false) = true ∧ Instr.wellFormed other (.frameData 0 [0x12] 0xC4) = true :=
  ⟨⟨default_valid, other_valid⟩, by decide +kernel⟩

theorem witness_EncodeOfDecodeIsIdentity : cfg.Valid ∧
    decode cfg .request [0x01, 0x00, 0x10, 0xAA] = .ok (.rbWrite 0 0x10, [0xAA]) := ⟨default_valid, rfl⟩

theorem witness_ReservedOperationCodesRefused :
    0xD ≤ (0x0D : Byte).toNat ∧ (0x0D : Byte).toNat ≤ 0xF ∧ 0xD ≤ (0x0F : Byte).toNat ∧ (0x0F : Byte).toNat ≤ 0xF ∧
    ({ State.reset with schedule := [.issue .consumer .request [0x0F]] } : State).schedule =
      .issue .consumer .request (0x0F :: []) :: [] := by decide

/-- Each clause: an instruction; an arrival on no line, on a line not set up, on one set up; nothing. -/
theorem witness_StepExecutesTheScheduledInstruction : cfg.Valid ∧ Instr.wellFormed cfg (.rbRead 0) = true ∧
    ({ State.reset with schedule := [.issue .consumer .request [0x02, 0x00]] } : State).schedule =
      .issue .consumer (Instr.space (.rbRead 0)) (encode cfg (.rbRead 0) ++ []) :: [] ∧
    ({ State.reset with schedule := [.arrive 1] } : State).schedule = .arrive 1 :: [] ∧ State.reset.lines[1]? = none ∧
    State.reset.lines[0]? = some (Line.powerOn cfg 4) ∧ (Line.powerOn cfg 4).rb.configured = false ∧
    (on .init (ready 4)).lines[0]? = some (ready 4) ∧ (ready 4).rb.configured = true ∧ State.reset.schedule = [] :=
  ⟨default_valid, by decide +kernel⟩

/-! ### Ring buffer -/

theorem witness_CursorAdvancesModuloCapacity : (isPow2 1 = true ∧ 0 < 1) ∧ (isPow2 4 = true ∧ 3 < 4) := by decide

theorem witness_RbSetupSetsUpOrFails :
    (on .init (ready 4)).IssuesOn .init 0 (ready 4) ∧ (ready 4).rb.configured = true ∧
    (on .init (Line.powerOn cfg 4)).IssuesOn .init 0 (Line.powerOn cfg 4) ∧ (Line.powerOn cfg 4).rb.configured = false ∧
    isPow2 0 = false ∧ isPow2 6 = false ∧ isPow2 1 = true := by decide +kernel

theorem witness_RbWriteStoresOrDrops :
    (on .producer (holding 1 [0x10])).IssuesOn .producer 0 (holding 1 [0x10]) ∧ (holding 1 [0x10]).rb.configured = true ∧
    (holding 1 [0x10]).p.busy = none ∧ (holding 1 [0x10]).rb.full = true ∧
    (on .producer (ready 1)).IssuesOn .producer 0 (ready 1) ∧ (ready 1).rb.configured = true ∧ (ready 1).p.busy = none ∧
    (ready 1).rb.full = false := by decide +kernel

theorem witness_RbWriteFrame : (∃ t, exec (.rbWrite 0 0x50) (on .producer (holding 4 [0x10, 0x20, 0x30])) = .next t) ∧
    (∃ t, exec (.rbWrite 0 0x50) (on .producer (holding 1 [0x10])) = .next t) :=
  ⟨next_of (by decide), next_of (by decide)⟩

theorem witness_RbReadReturnsTheOldestByte :
    (on .consumer (ready 4)).IssuesOn .consumer 0 (ready 4) ∧ (ready 4).rb.configured = true ∧ Quiet .preempt (ready 4) ∧
    (ready 4).rb.rd = (ready 4).rb.wr ∧ (ready 4).rb.full = false ∧
    Quiet .preempt (holding 1 [0x10]) ∧ (holding 1 [0x10]).rb.full = true ∧
    (holding 1 [0x10]).rb.buf.read (holding 1 [0x10]).rb.rd = some 0x10 ∧
    Quiet .preempt { ready 4 with rb := { (ready 4).rb with wr := 3 } } ∧
    ({ ready 4 with rb := { (ready 4).rb with wr := 3 } } : Line).rb.buf.read 0 = none := by decide +kernel

/-- Under `preempt` with two writes at the worst point, and under `concurrent` between `w3` and `w4`. -/
theorem witness_RbReadCompletesWhateverTheProducerDoes :
    ((on .consumer (racing 4 [0xA1, 0xB2, 0xC3] [0xD4, 0xE5] [0, 0, 0, 2])).IssuesOn .consumer 0
      (racing 4 [0xA1, 0xB2, 0xC3] [0xD4, 0xE5] [0, 0, 0, 2]) ∧
      (racing 4 [0xA1, 0xB2, 0xC3] [0xD4, 0xE5] [0, 0, 0, 2]).rb.configured = true ∧
      (onConcurrent (beforeW4 4 [] 0xA1)).IssuesOn .consumer 0 (beforeW4 4 [] 0xA1) ∧
      (beforeW4 4 [] 0xA1).rb.configured = true) ∧
    ((racing 4 [0xA1, 0xB2, 0xC3] [0xD4, 0xE5] [0, 0, 0, 2]).Inv cfg ∧
      (racing 4 [0xA1, 0xB2, 0xC3] [0xD4, 0xE5] [0, 0, 0, 2]).Sound .preempt) ∧
    (beforeW4 4 [] 0xA1).Inv concurrently ∧ (beforeW4 4 [] 0xA1).Sound .concurrent :=
  ⟨by decide +kernel, meets (by decide +kernel), meetsUnder concurrently .concurrent (by decide) (by simp) (by decide +kernel)⟩

theorem witness_RbIsEmptyComparesTheCursors :
    (on .consumer (racing 4 [0xA1] [0xD4] [1])).IssuesOn .consumer 0 (racing 4 [0xA1] [0xD4] [1]) ∧
    (racing 4 [0xA1] [0xD4] [1]).rb.configured = true ∧
    (on .consumer (holding 1 [0x10])).IssuesOn .consumer 0 (holding 1 [0x10]) ∧ (holding 1 [0x10]).rb.configured = true ∧
    Quiet .preempt (holding 1 [0x10]) := by decide +kernel

/-- Each clause: room left (none to one slot), full, something to read (one byte), nothing to read. -/
theorem witness_RingBufferIsABoundedQueue :
    ((on .producer (holding 4 [0x10, 0x20, 0x30])).lines[0]? = some (holding 4 [0x10, 0x20, 0x30]) ∧
      (holding 4 [0x10, 0x20, 0x30]).rb.configured = true ∧ Quiet .preempt (holding 4 [0x10, 0x20, 0x30]) ∧
      (holding 4 [0x10, 0x20, 0x30]).rb.count < 4 ∧ (holding 1 [0x10]).rb.count = (holding 1 [0x10]).rb.cap ∧
      0 < (holding 4 [0x10]).rb.count ∧ (ready 4).rb.count = 0 ∧
      (on .producer (ready 4)).ctx = .producer ∧ (on .consumer (ready 4)).ctx = .consumer) ∧
    ((holding 4 [0x10, 0x20, 0x30]).Inv cfg ∧ (holding 4 [0x10, 0x20, 0x30]).Sound .preempt) ∧
    ((holding 1 [0x10]).Inv cfg ∧ (holding 1 [0x10]).Sound .preempt) ∧ ((holding 4 [0x10]).Inv cfg ∧ (holding 4 [0x10]).Sound .preempt) ∧
    (ready 4).Inv cfg ∧ (ready 4).Sound .preempt :=
  ⟨by decide +kernel, meets (by decide +kernel), meets (by decide +kernel), meets (by decide +kernel),
    meets (by decide +kernel)⟩

theorem witness_RingBufferHoldsExactlyItsCapacity :
    (on .init (Line.powerOn cfg 4)).lines[0]? = some (Line.powerOn cfg 4) ∧ (Line.powerOn cfg 4).rb.configured = false ∧
    (Line.powerOn cfg 4).p.busy = none ∧ Quiet .preempt (Line.powerOn cfg 4) ∧ isPow2 1 = true ∧ [(0x10 : Byte)].length = 1 ∧
    isPow2 4 = true ∧ [(0x10 : Byte), 0x20, 0x30, 0x40].length = 4 := by decide +kernel

theorem witness_RingBufferDeliversInOrder :
    ((on .consumer (holding 4 [0x10, 0x20])).lines[0]? = some (holding 4 [0x10, 0x20]) ∧
      (holding 4 [0x10, 0x20]).rb.configured = true ∧ Quiet .preempt (holding 4 [0x10, 0x20])) ∧
    (holding 4 [0x10, 0x20]).Inv cfg ∧ (holding 4 [0x10, 0x20]).Sound .preempt :=
  ⟨by decide +kernel, meets (by decide +kernel)⟩

/-! ### CRC, images, frames -/

theorem witness_Crc8AnswersThePureFunction :
    3 ≤ [(0x01 : Byte), 0x02, 0x03].length ∧ [(0x01 : Byte), 0x02, 0x03].length < 4 ∧ 2 < [(0x01 : Byte), 0x02, 0x03].length := by
  decide

theorem witness_Crc8IsLinearAndSeesEverySingleBit : cfg.CRC_POLY = 0x07 ∧ cfg.CRC_SEED = 0x00 ∧
    [(0x01 : Byte), 0x02].length = [(0x80 : Byte), 0xFF].length ∧ 1 < [(0x01 : Byte), 0x02].length ∧ 7 < 8 := by decide

theorem witness_MkpktBuildsTheImage : cfg.Valid ∧ aToN.length ≤ cfg.MAX_PAYLOAD ∧ ([] : List Byte).length ≤ cfg.MAX_PAYLOAD :=
  ⟨default_valid, by decide⟩

theorem witness_FrameCarriesAPayloadWithoutItsPads : cfg.Valid ∧ aToN.length = cfg.MAX_PAYLOAD ∧
    ([] : List Byte).length ≤ cfg.MAX_PAYLOAD := ⟨default_valid, by decide⟩

theorem witness_SentinelImagesAndFrames : cfg.Valid ∧ other.Valid := ⟨default_valid, other_valid⟩

theorem witness_ClassOfAReceivedImage : cfg.Valid ∧ hi.Sized cfg ∧
    crc8 cfg (fromWire cfg [0x11] 0x7F).bytes 14 = 0x7F ∧ crc8 cfg (fromWire cfg [0x12] 0xC4).bytes 14 = 0xC4 ∧
    crc8 cfg (fromWire cfg [0x48, 0x69] 0xB3).bytes 14 = 0xB3 ∧ crc8 cfg (fromWire cfg aToN 0x4C).bytes 14 = 0x4C ∧
    aToN.length = cfg.MAX_PAYLOAD := ⟨default_valid, by decide +kernel⟩

theorem witness_OnlyTheFourteenthPayloadByteIsUncovered : hi.Sized cfg ∧ 12 < hi.data.length ∧ 12 < 13 ∧ 7 < 8 := by decide

/-! ### Assembler -/

theorem witness_AsmTakesALengthByte :
    ((on .consumer (holding 8 [0xFF])).IssuesOn .consumer 0 (holding 8 [0xFF]) ∧ (holding 8 [0xFF]).configured = true ∧
      (holding 8 [0xFF]).asm.phase = .awaitingLength ∧
      (on .consumer (ready 8)).IssuesOn .consumer 0 (ready 8) ∧ (ready 8).configured = true ∧
      (ready 8).asm.phase = .awaitingLength) ∧
    (∃ l', rbRead .preempt (holding 8 [0xFF]) = .next (l', some 0xFF)) ∧ ∃ l', rbRead .preempt (ready 8) = .next (l', none) :=
  ⟨by decide +kernel, reads_of (by decide +kernel), reads_of (by decide +kernel)⟩

/-- Each clause: the fourteenth data byte waits, or nothing does; a fifteenth is due; the last has come. -/
theorem witness_AsmTakesADataByte :
    ((on .consumer (inFrame .awaitingData 14 13 [0x4E])).IssuesOn .consumer 0 (inFrame .awaitingData 14 13 [0x4E]) ∧
      (inFrame .awaitingData 14 13 [0x4E]).configured = true ∧
      (inFrame .awaitingData 14 13 [0x4E]).asm.cnt.toNat < (inFrame .awaitingData 14 13 [0x4E]).asm.pkt.length.toNat ∧
      (inFrame .awaitingData 14 13 [0x4E]).asm.cnt.toNat < cfg.MAX_PAYLOAD ∧
      (inFrame .awaitingData 14 13 []).asm.phase = .awaitingData ∧
      (inFrame .awaitingData 15 14 []).asm.cnt.toNat < (inFrame .awaitingData 15 14 []).asm.pkt.length.toNat ∧
      14 ≤ (inFrame .awaitingData 15 14 []).asm.cnt.toNat ∧
      (inFrame .awaitingData 14 14 []).asm.pkt.length.toNat ≤ (inFrame .awaitingData 14 14 []).asm.cnt.toNat ∧
      (inFrame .awaitingData 0 0 []).asm.pkt.length.toNat ≤ (inFrame .awaitingData 0 0 []).asm.cnt.toNat) ∧
    (∃ l', rbRead .preempt (inFrame .awaitingData 14 13 [0x4E]) = .next (l', some 0x4E)) ∧
    ∃ l', rbRead .preempt (inFrame .awaitingData 14 13 []) = .next (l', none) :=
  ⟨by decide +kernel, reads_of (by decide +kernel), reads_of (by decide +kernel)⟩

/-- Each clause: no byte, corrupt, the two sentinels, ordinary with the queue empty and full. -/
theorem witness_AsmCompletesAFrame :
    ((on .consumer (atCrc [0x48, 0x69] 0xB2)).IssuesOn .consumer 0 (atCrc [0x48, 0x69] 0xB2) ∧
      (atCrc [0x48, 0x69] 0xB2).configured = true ∧ (atCrc [0x48, 0x69] 0xB2).asm.phase = .awaitingCrc ∧
      (atCrc [0x48, 0x69] 0xB2).ackPkt = (ackImage cfg) ∧ (atCrc [0x48, 0x69] 0xB2).retxPkt = (retxImage cfg) ∧
      crc8 cfg (mkpkt cfg [0x48, 0x69]).bytes 14 ≠ 0xB2 ∧
      (atCrc [0x11] 0x7F).asm.pkt = (retxImage cfg) ∧ crc8 cfg (retxImage cfg).bytes 14 = 0x7F ∧
      (atCrc [0x12] 0xC4).asm.pkt = (ackImage cfg) ∧ crc8 cfg (ackImage cfg).bytes 14 = 0xC4 ∧
      crc8 cfg (mkpkt cfg [0x48, 0x69]).bytes 14 = 0xB3 ∧ mkpkt cfg [0x48, 0x69] ≠ (retxImage cfg) ∧ mkpkt cfg [0x48, 0x69] ≠ (ackImage cfg) ∧
      ((atCrc [0x48, 0x69] 0xB3).pq.wr + 1) &&& ((atCrc [0x48, 0x69] 0xB3).pq.cap - 1) ≠ (atCrc [0x48, 0x69] 0xB3).pq.rd ∧
      ((queued 3 []).pq.wr + 1) &&& ((queued 3 []).pq.cap - 1) = (queued 3 []).pq.rd) ∧
    cfg.Valid ∧ (∃ l', rbRead .preempt (inFrame .awaitingCrc 2 2 []) = .next (l', none)) ∧
    (∃ l', rbRead .preempt (atCrc [0x48, 0x69] 0xB2) = .next (l', some 0xB2)) ∧
    (∃ l', rbRead .preempt (atCrc [0x11] 0x7F) = .next (l', some 0x7F)) ∧
    (∃ l', rbRead .preempt (atCrc [0x12] 0xC4) = .next (l', some 0xC4)) ∧
    (∃ l', rbRead .preempt { atCrc [0x48, 0x69] 0xB3 with pq := (queued 3 []).pq } = .next (l', some 0xB3)) :=
  ⟨by decide +kernel, default_valid, reads_of (by decide +kernel), reads_of (by decide +kernel), reads_of (by decide +kernel), reads_of (by decide +kernel),
    reads_of (by decide +kernel)⟩

theorem witness_AsmRecoversFromAnUnrecognisedPhase :
    (on .consumer (inFrame .unrecognised 14 14 [0x01])).IssuesOn .consumer 0 (inFrame .unrecognised 14 14 [0x01]) ∧
    (inFrame .unrecognised 14 14 [0x01]).configured = true ∧ (inFrame .unrecognised 14 14 [0x01]).asm.phase = .unrecognised := by
  decide +kernel

theorem witness_AsmStepCompletesUnlessALengthIsOutOfRange :
    ((on .consumer (inFrame .awaitingData 255 13 [0x01])).IssuesOn .consumer 0 (inFrame .awaitingData 255 13 [0x01]) ∧
      (inFrame .awaitingData 255 13 [0x01]).configured = true ∧
      ¬ 14 ≤ (inFrame .awaitingData 255 13 [0x01]).asm.cnt.toNat) ∧
    cfg.Valid ∧ (inFrame .awaitingData 255 13 [0x01]).Inv cfg ∧ (inFrame .awaitingData 255 13 [0x01]).Sound .preempt :=
  ⟨by decide +kernel, default_valid, meets (by decide +kernel)⟩

/-- A poll that ends, one whose fifth step faults, and a line no invariant holds of, where a poll is cut. -/
theorem witness_AsmPollRepeatsStepsUntilIdle :
    ((on .consumer (holding 8 [0x02, 0x48, 0x69, 0xB3])).IssuesOn .consumer 0 (holding 8 [0x02, 0x48, 0x69, 0xB3]) ∧
      (holding 8 [0x02, 0x48, 0x69, 0xB3]).configured = true ∧ (inFrame .awaitingData 15 13 [0x4E]).configured = true) ∧
    cfg.Valid ∧
    ((holding 8 [0x02, 0x48, 0x69, 0xB3]).Inv cfg ∧ (holding 8 [0x02, 0x48, 0x69, 0xB3]).Sound .preempt) ∧
    ((inFrame .awaitingData 15 13 [0x4E]).Inv cfg ∧ (inFrame .awaitingData 15 13 [0x4E]).Sound .preempt) ∧
    (∃ t, exec (.asmPoll 0) (on .consumer (holding 8 [0x02, 0x48, 0x69, 0xB3])) = .next t) ∧
    exec (.asmPoll 0) (on .consumer (inFrame .awaitingData 15 13 [0x4E])) = .fault .lengthOutOfRange :=
  ⟨by decide +kernel, default_valid, meets (by decide +kernel), meets (by decide +kernel), next_of (by decide +kernel),
    fault_of (by decide +kernel)⟩

theorem witness_AsmPollEnds : ((holding 8 [0x02, 0x48, 0x69, 0xB3]).configured = true ∧
      Quiet .preempt (holding 8 [0x02, 0x48, 0x69, 0xB3])) ∧ cfg.Valid ∧
    (holding 8 [0x02, 0x48, 0x69, 0xB3]).Inv cfg ∧ (holding 8 [0x02, 0x48, 0x69, 0xB3]).Sound .preempt :=
  ⟨by decide +kernel, default_valid, meets (by decide +kernel)⟩

theorem witness_AsmPollReceivesEveryWholeFrame :
    ((on .consumer (holding 8 [0x00, 0xA3, 0x01, 0x12, 0xC4])).IssuesOn .consumer 0 (holding 8 [0x00, 0xA3, 0x01, 0x12, 0xC4]) ∧
      (∀ f ∈ [(([] : List Byte), (0xA3 : Byte)), ([0x12], 0xC4)], f.1.length ≤ 14) ∧
      (holding 8 [0x00, 0xA3, 0x01, 0x12, 0xC4]).rb.live =
        [(([] : List Byte), (0xA3 : Byte)), ([0x12], 0xC4)].flatMap (fun f => frameBytes f.1 f.2)) ∧
    BetweenFrames cfg (holding 8 [0x00, 0xA3, 0x01, 0x12, 0xC4]) :=
  ⟨by decide +kernel, betweenFrames (by decide +kernel) (by decide +kernel)⟩

/-- Each clause: an ordinary frame of the greatest length, one corrupt, the two sentinels, one for a full queue. -/
theorem witness_AsmRoundTripCorruptionSentinelsAndBackpressure :
    ((on .consumer (holding 16 (frameBytes aToN 0x4C))).IssuesOn .consumer 0 (holding 16 (frameBytes aToN 0x4C)) ∧
      aToN.length ≤ 14 ∧ (holding 16 (frameBytes aToN 0x4C)).rb.live = frameBytes aToN 0x4C ∧ (mkpkt cfg aToN).crc = 0x4C ∧
      aToN ≠ [0x11] ∧ aToN ≠ [0x12] ∧ (holding 16 (frameBytes aToN 0x4C)).pq.isFull = false ∧
      (holding 8 (frameBytes [0x48, 0x69] 0xB2)).rb.live = frameBytes [0x48, 0x69] 0xB2 ∧ (mkpkt cfg [0x48, 0x69]).crc ≠ 0xB2 ∧
      (holding 8 (frameBytes [0x11] 0x7F)).rb.live = frameBytes [0x11] 0x7F ∧
      (holding 8 (frameBytes [0x12] 0xC4)).rb.live = frameBytes [0x12] 0xC4 ∧
      (queued 3 (frameBytes [0x48, 0x69] 0xB3)).rb.live = frameBytes [0x48, 0x69] 0xB3 ∧ (mkpkt cfg [0x48, 0x69]).crc = 0xB3 ∧
      (queued 3 (frameBytes [0x48, 0x69] 0xB3)).pq.isFull = true) ∧
    BetweenFrames cfg (holding 16 (frameBytes aToN 0x4C)) ∧
    BetweenFrames cfg (holding 8 (frameBytes [0x48, 0x69] 0xB2)) ∧
    BetweenFrames cfg (holding 8 (frameBytes [0x11] 0x7F)) ∧ BetweenFrames cfg (holding 8 (frameBytes [0x12] 0xC4)) ∧
    BetweenFrames cfg (queued 3 (frameBytes [0x48, 0x69] 0xB3)) :=
  ⟨by decide +kernel, betweenFrames (by decide +kernel) (by decide +kernel),
    betweenFrames (by decide +kernel) (by decide +kernel), betweenFrames (by decide +kernel) (by decide +kernel),
    betweenFrames (by decide +kernel) (by decide +kernel), betweenFrames (by decide +kernel) (by decide +kernel)⟩

/-! ### Packet queue -/

theorem witness_PqEnqStoresOrRefuses : (on .consumer (queued 3 [])).IssuesOn .consumer 0 (queued 3 []) ∧
    (queued 3 []).configured = true ∧ ((queued 3 []).pq.wr + 1) &&& ((queued 3 []).pq.cap - 1) = (queued 3 []).pq.rd ∧
    (on .consumer (queued 2 [])).IssuesOn .consumer 0 (queued 2 []) ∧ (queued 2 []).configured = true ∧
    ((queued 2 []).pq.wr + 1) &&& ((queued 2 []).pq.cap - 1) ≠ (queued 2 []).pq.rd := by decide +kernel

theorem witness_PqDeqReturnsTheOldestPacket : (on .consumer (queued 0 [])).IssuesOn .consumer 0 (queued 0 []) ∧
    (queued 0 []).configured = true ∧ (queued 0 []).pq.rd = (queued 0 []).pq.wr ∧
    (on .consumer (queued 1 [])).IssuesOn .consumer 0 (queued 1 []) ∧ (queued 1 []).configured = true ∧
    (queued 1 []).pq.rd ≠ (queued 1 []).pq.wr ∧ (queued 1 []).pq.slot.read (queued 1 []).pq.rd = some hi := by
  decide +kernel

theorem witness_PqAvailComparesTheIndices : (on .consumer (queued 1 [])).IssuesOn .consumer 0 (queued 1 []) ∧
    (queued 1 []).configured = true := by decide +kernel

/-- Each clause: one slot left, none left, one packet, none. -/
theorem witness_PacketQueueIsABoundedQueue :
    ((on .consumer (queued 2 [])).IssuesOn .consumer 0 (queued 2 []) ∧ (queued 2 []).configured = true ∧
      (queued 2 []).pq.count < (queued 2 []).pq.cap - 1 ∧ (queued 3 []).pq.count = (queued 3 []).pq.cap - 1 ∧
      0 < (queued 1 []).pq.count ∧ (queued 0 []).pq.count = 0) ∧
    (queued 2 []).pq.Inv ∧ (queued 3 []).pq.Inv ∧ (queued 1 []).pq.Inv ∧ (queued 0 []).pq.Inv :=
  ⟨by decide +kernel, queue_of (by decide +kernel), queue_of (by decide +kernel), queue_of (by decide +kernel),
    queue_of (by decide +kernel)⟩

/-! ### Transmit path, initialisation, contracts -/

theorem witness_TxFrameSendsAndRemembers : (on .consumer (ready 4)).IssuesOn .consumer 0 (ready 4) ∧
    (ready 4).configured = true ∧ 14 < ({ hi with length := 15 } : Image).length.toNat ∧ (mkpkt cfg aToN).length.toNat ≤ 14 := by
  decide +kernel

theorem witness_TxSendSplitsAPayload : (on .consumer (ready 4)).IssuesOn .consumer 0 (ready 4) ∧ cfg.Valid ∧
    (ready 4).configured = true ∧ (List.replicate 30 (0x41 : Byte)).length = 30 :=
  ⟨by decide +kernel, default_valid, by decide +kernel⟩

theorem witness_SentBytesAreWholeFrames : (on .consumer (ready 4)).Inv ∧ Instr.wellFormed cfg (.txSend 0 aToN) = true ∧
    (∃ t, exec (.txSend 0 aToN) (on .consumer (ready 4)) = .next t ∧ ∃ l', t.lines[0]? = some l') ∧
    (on .consumer (ready 4)).lines[0]? = some (ready 4) := by
  refine ⟨(on_meets (by decide +kernel)).1, rfl, ?_, rfl⟩
  obtain ⟨t, ht⟩ := next_of (o := exec (.txSend 0 aToN) (on .consumer (ready 4))) (by decide +kernel)
  have h : (line? (exec (.txSend 0 aToN) (on .consumer (ready 4)))).isSome = true := by decide +kernel
  rw [ht] at h
  exact ⟨t, ht, Option.isSome_iff_exists.1 h⟩

/-- Each clause: the first number that is no line, a line set up in whole or in part, each of the three outcomes. -/
theorem witness_LineInitInitialisesOrFails : (on .init (Line.powerOn cfg 4)).ctx = .init ∧
    (on .init (Line.powerOn cfg 4)).lines[1]? = none ∧ (on .init (ready 4)).lines[0]? = some (ready 4) ∧
    (ready 4).configured = true ∧
    ({ Line.powerOn cfg 4 with rb := RingBuffer.setup 4 } : Line).rb.configured = true ∧
    (on .init (Line.powerOn cfg 4)).lines[0]? = some (Line.powerOn cfg 4) ∧ (Line.powerOn cfg 4).configured = false ∧
    (Line.powerOn cfg 4).rb.configured = false ∧ isPow2 0 = false ∧ isPow2 1 = true := by decide +kernel

theorem witness_FirstOperationsAfterBringUp : (on .init (Line.powerOn cfg 4)).lines[0]? = some (Line.powerOn cfg 4) ∧
    (Line.powerOn cfg 4).configured = false ∧ (Line.powerOn cfg 4).rb.configured = false ∧ Quiet .preempt (Line.powerOn cfg 4) ∧
    isPow2 1 = true := by decide +kernel

theorem witness_PseudoOperationsAreTheirExpansions : (on .consumer (holding 8 [0x02, 0x48, 0x69, 0xB3])).IssuesOn .consumer 0
    (holding 8 [0x02, 0x48, 0x69, 0xB3]) := by decide +kernel

theorem witness_WrongContextIsRefused : Instr.context? (.rbWrite 0 0x10) = some .producer ∧
    (on .consumer (ready 4)).ctx ≠ .producer ∧
    (on .producer { ready 4 with p := (ready 4).p.withBusy (some ⟨0x10, .w2⟩) }).IssuesOn .producer 0
      { ready 4 with p := (ready 4).p.withBusy (some ⟨0x10, .w2⟩) } ∧ (ready 4).rb.configured = true ∧
    ({ ready 4 with p := (ready 4).p.withBusy (some ⟨0x10, .w2⟩) } : Line).p.busy ≠ none := by decide +kernel

/-- Each clause: the first number that is no line; a line set up by RB.SETUP alone, with a packet too long besides; a line
not set up at all. -/
theorem witness_UnknownAndUnconfiguredLinesAreRefused : Instr.context? (.pqAvail 1) = some .consumer ∧
    (on .consumer (Line.powerOn cfg 4)).ctx = .consumer ∧ Instr.line? (.pqAvail 1) = some 1 ∧
    (on .consumer (Line.powerOn cfg 4)).lines[1]? = none ∧
    Instr.context? (.txFrame 0 { hi with length := 15 }) = some .consumer ∧
    Instr.line? (.txFrame 0 { hi with length := 15 }) = some 0 ∧
    line? (exec (.rbSetup 0 4) (on .init (Line.powerOn cfg 4))) = some { Line.powerOn cfg 4 with rb := RingBuffer.setup 4 } ∧
    ({ Line.powerOn cfg 4 with rb := RingBuffer.setup 4 } : Line).configured = false ∧
    ({ Line.powerOn cfg 4 with rb := RingBuffer.setup 4 } : Line).rb.configured = true ∧
    Instr.context? (.frameAck 0) = some .producer ∧ Instr.line? (.frameAck 0) = some 0 ∧
    Instr.context? (.rbRead 0) = some .consumer ∧ (Line.powerOn cfg 4).rb.configured = false := by decide +kernel

/-! ### Frames of the machine, invariants -/

theorem witness_InstructionsChangeOnlyTheirLine : ∃ t, exec (.pqEnq 0 hi) (on .consumer (ready 4)) = .next t :=
  next_of (by decide +kernel)

theorem witness_InstructionsReadOnlyTheirLine : (∃ t, exec (.pqEnq 0 hi) (on .consumer (ready 4)) = .next t) ∧
    Instr.line? (.pqEnq 0 hi) = some 0 ∧
    ({ on .consumer (ready 4) with lines := [ready 4, Line.powerOn cfg 8], resp := .bool true } : State).lines[0]? =
      (on .consumer (ready 4)).lines[0]? := ⟨next_of (by decide +kernel), by decide +kernel⟩

/-- A frame that does not fit, a byte, and a byte for a full buffer. -/
theorem witness_ProducerOperationsTouchOnlyTheWriteSide :
    (∃ t, exec (.frameData 0 [0x48, 0x69] 0xB3) (on .producer (ready 2)) = .next t) ∧
    (∃ t, exec (.rbWrite 0 0x48) (on .producer (ready 2)) = .next t) ∧
    (∃ t, exec (.rbWrite 0 0x48) (on .producer (holding 1 [0x10])) = .next t) ∧
    Instr.context? (.frameData 0 [0x48, 0x69] 0xB3) = some .producer ∧ Instr.line? (.frameData 0 [0x48, 0x69] 0xB3) = some 0 ∧
    Instr.space (.frameData 0 [0x48, 0x69] 0xB3) = .wire 0 ∧ 4 = (encode cfg (.frameData 0 [0x48, 0x69] 0xB3)).length ∧
    (holding 1 [0x10]).rb.full = true :=
  ⟨next_of (by decide +kernel), next_of (by decide +kernel), next_of (by decide +kernel), by decide +kernel⟩

theorem witness_ConsumerOperationsNeverWriteTheWriteSide :
    (∃ t, exec (.asmPoll 0) (on .consumer (holding 8 [0x02, 0x48, 0x69, 0xB3])) = .next t) ∧
    Instr.context? (.asmPoll 0) = some .consumer ∧ Instr.line? (.asmPoll 0) = some 0 ∧
    Quiet .preempt (holding 8 [0x02, 0x48, 0x69, 0xB3]) := ⟨next_of (by decide +kernel), by decide +kernel⟩

theorem witness_EachUnitHasItsWriters : (∃ t, exec (.pqEnq 0 hi) (on .consumer (queued 2 [])) = .next t) ∧
    (∃ t, exec (.pqAvail 0) (on .consumer (queued 2 [])) = .next t) ∧
    (∃ t, exec (.crc8 [0x01] 1) (on .consumer (queued 2 [])) = .next t) ∧
    ∃ t, exec (.packetImage hi) (on .consumer (queued 2 [])) = .next t :=
  ⟨next_of (by decide +kernel), next_of (by decide +kernel), next_of (by decide +kernel), next_of (by decide +kernel)⟩

theorem witness_FrameArrivalIsAWriteOfEachByte : (on .producer (ready 1)).IssuesOn .producer 0 (ready 1) ∧
    (ready 1).rb.configured = true ∧ (ready 1).p.busy = none ∧
    ([0x02, 0x48, 0x69, 0xB3] : List Byte) =
      [BitVec.ofNat 8 ([0x48, 0x69] : List Byte).length] ++ [0x48, 0x69] ++ [0xB3] := by decide +kernel

theorem witness_StepKeepsTheInvariant : (on .consumer (ready 4)).Inv ∧ ∃ t, step { on .consumer (ready 4) with
    schedule := [.issue .consumer .request [0x02, 0x00]] } = .next t :=
  ⟨(on_meets (by decide +kernel)).1, next_of (by decide +kernel)⟩

theorem witness_StepKeepsReachableElementsStored : (on .consumer (racing 4 [0xA1, 0xB2, 0xC3] [0xD4, 0xE5] [0, 0, 0, 2])).Inv ∧
    (on .consumer (racing 4 [0xA1, 0xB2, 0xC3] [0xD4, 0xE5] [0, 0, 0, 2])).Sound ∧
    ∃ t, step { on .consumer (racing 4 [0xA1, 0xB2, 0xC3] [0xD4, 0xE5] [0, 0, 0, 2]) with
      schedule := [.issue .consumer .request [0x02, 0x00]] } = .next t :=
  ⟨(on_meets (by decide +kernel)).1, (on_meets (by decide +kernel)).2, next_of (by decide +kernel)⟩

/-- The faults; an operation that may be issued on a full buffer, and one that may not on a line not set up. -/
theorem witness_OperationsEndAtOnceAndOnlyALengthOutOfRangeFaults :
    ((on .consumer (inFrame .awaitingData 15 14 [])).Inv ∧ (on .consumer (inFrame .awaitingData 15 14 [])).Sound) ∧
    exec (.asmStep 0) (on .consumer (inFrame .awaitingData 15 14 [])) = .fault .lengthOutOfRange ∧
    ((on .producer (holding 1 [0x10])).Inv ∧ (on .producer (holding 1 [0x10])).Sound) ∧
    Issuable (.rbWrite 0 0x20) (on .producer (holding 1 [0x10])) ∧
    ¬ Issuable (.rbWrite 0 0x20) (on .producer (Line.powerOn cfg 4)) := by
  refine ⟨on_meets (by decide +kernel), fault_of (by decide +kernel), on_meets (by decide +kernel),
    ⟨by simp [Instr.context?, on], holding 1 [0x10], rfl, rfl, rfl⟩, ?_⟩
  rintro ⟨-, l, hl, hc, -⟩
  obtain rfl : Line.powerOn cfg 4 = l := by simpa [on] using hl
  cases hc

/-! ### Interleaving -/

/-- PRG-9, and the smallest case: capacity 2, one live byte, two writes. -/
theorem witness_FullBufferMadeToLookEmpty :
    ((on .consumer (racing 4 [0xA1, 0xB2, 0xC3] [0xD4, 0xE5, 0xF6] [0, 0, 0, 2])).IssuesOn .consumer 0
        (racing 4 [0xA1, 0xB2, 0xC3] [0xD4, 0xE5, 0xF6] [0, 0, 0, 2]) ∧ State.reset.config.INTERLEAVE = .preempt ∧
      (racing 4 [0xA1, 0xB2, 0xC3] [0xD4, 0xE5, 0xF6] [0, 0, 0, 2]).rb.configured = true ∧
      (racing 4 [0xA1, 0xB2, 0xC3] [0xD4, 0xE5, 0xF6] [0, 0, 0, 2]).rb.full = false ∧
      (racing 4 [0xA1, 0xB2, 0xC3] [0xD4, 0xE5, 0xF6] [0, 0, 0, 2]).rb.count = 3 ∧
      ([0xD4, 0xE5] : List Byte).length = 4 - 3 + 1 ∧
      (racing 2 [0xA1] [0xB2, 0xC3] [0, 0, 0, 2]).rb.full = false ∧ (racing 2 [0xA1] [0xB2, 0xC3] [0, 0, 0, 2]).rb.count = 1 ∧
      ([0xB2, 0xC3] : List Byte).length = 2 - 1 + 1) ∧
    ((racing 4 [0xA1, 0xB2, 0xC3] [0xD4, 0xE5, 0xF6] [0, 0, 0, 2]).Inv cfg ∧
      (racing 4 [0xA1, 0xB2, 0xC3] [0xD4, 0xE5, 0xF6] [0, 0, 0, 2]).Sound .preempt) ∧
    (racing 2 [0xA1] [0xB2, 0xC3] [0, 0, 0, 2]).Inv cfg ∧ (racing 2 [0xA1] [0xB2, 0xC3] [0, 0, 0, 2]).Sound .preempt :=
  ⟨by decide +kernel, meets (by decide +kernel), meets (by decide +kernel)⟩

theorem witness_WriteRefusedAlthoughASlotIsFree :
    ((on .consumer (racing 4 [0xA1, 0xB2, 0xC3, 0xD4] [0xE5] [0, 0, 0, 1])).IssuesOn .consumer 0
        (racing 4 [0xA1, 0xB2, 0xC3, 0xD4] [0xE5] [0, 0, 0, 1]) ∧ State.reset.config.INTERLEAVE = .preempt ∧
      (racing 4 [0xA1, 0xB2, 0xC3, 0xD4] [0xE5] [0, 0, 0, 1]).rb.configured = true ∧
      (racing 4 [0xA1, 0xB2, 0xC3, 0xD4] [0xE5] [0, 0, 0, 1]).rb.full = true ∧
      (racing 1 [0xA1] [0xE5] [0, 0, 0, 1]).rb.full = true) ∧
    ((racing 4 [0xA1, 0xB2, 0xC3, 0xD4] [0xE5] [0, 0, 0, 1]).Inv cfg ∧
      (racing 4 [0xA1, 0xB2, 0xC3, 0xD4] [0xE5] [0, 0, 0, 1]).Sound .preempt) ∧
    (racing 1 [0xA1] [0xE5] [0, 0, 0, 1]).Inv cfg ∧ (racing 1 [0xA1] [0xE5] [0, 0, 0, 1]).Sound .preempt :=
  ⟨by decide +kernel, meets (by decide +kernel), meets (by decide +kernel)⟩

theorem witness_MicroStepsTogetherAreTheWrite :
    (racing 4 [] [0x10] []).p.busy = none ∧ (racing 4 [] [0x10] []).p.rx = 0x10 :: [] ∧
    (racing 4 [] [0x10] []).rb.full = false ∧ (racing 1 [0x10] [0x20] []).p.busy = none ∧
    (racing 1 [0x10] [0x20] []).p.rx = 0x20 :: [] ∧ (racing 1 [0x10] [0x20] []).rb.full = true := by decide +kernel

/-- Each clause: a write that fills a buffer of four and one of one; the write of the only byte, with no step of context P
due, with its `w4` alone, and with a byte more. -/
theorem witness_ConcurrentReadBeforeTheFlagIsSet :
    ((onConcurrent (beforeW4 4 [0xA1, 0xB2, 0xC3] 0xD4)).IssuesOn .consumer 0 (beforeW4 4 [0xA1, 0xB2, 0xC3] 0xD4) ∧
      (beforeW4 4 [0xA1, 0xB2, 0xC3] 0xD4).rb.configured = true ∧
      (beforeW4 4 [0xA1, 0xB2, 0xC3] 0xD4).p.busy = some ⟨0xD4, .w4⟩ ∧ (beforeW4 4 [0xA1, 0xB2, 0xC3] 0xD4).p.plan = [] ∧
      (beforeW4 4 [0xA1, 0xB2, 0xC3] 0xD4).rb.wr = (beforeW4 4 [0xA1, 0xB2, 0xC3] 0xD4).rb.rd ∧
      (beforeW4 1 [] 0xA1).p.busy = some ⟨0xA1, .w4⟩ ∧ (beforeW4 1 [] 0xA1).rb.wr = (beforeW4 1 [] 0xA1).rb.rd ∧
      (beforeW4 4 [] 0xA1).p.busy = some ⟨0xA1, .w4⟩ ∧ (beforeW4 4 [] 0xA1).rb.rd ≠ (beforeW4 4 [] 0xA1).rb.wr ∧
      ((beforeW4 4 [] 0xA1).rb.rd + 1) &&& ((beforeW4 4 [] 0xA1).rb.cap - 1) = (beforeW4 4 [] 0xA1).rb.wr ∧
      (beforeW4 4 [] 0xA1).p.plan = [] ∧ (duringRead [0xE5]).p.rx = [0xE5] ++ [] ∧
      (duringRead [0xE5]).p.plan = [0, 0, 0, [(0xE5 : Byte)].length + 1] ∧ (duringRead []).p.rx = [] ++ [] ∧
      (duringRead []).p.plan = [0, 0, 0, ([] : List Byte).length + 1]) ∧
    ((duringRead [0xE5]).Inv concurrently ∧ (duringRead [0xE5]).Sound .concurrent) ∧
    ((duringRead []).Inv concurrently ∧ (duringRead []).Sound .concurrent) ∧
    ((beforeW4 4 [0xA1, 0xB2, 0xC3] 0xD4).Inv concurrently ∧ (beforeW4 4 [0xA1, 0xB2, 0xC3] 0xD4).Sound .concurrent) ∧
    ((beforeW4 1 [] 0xA1).Inv concurrently ∧ (beforeW4 1 [] 0xA1).Sound .concurrent) ∧
    (beforeW4 4 [] 0xA1).Inv concurrently ∧ (beforeW4 4 [] 0xA1).Sound .concurrent :=
  ⟨by decide +kernel, meetsUnder concurrently .concurrent (by decide) (by simp) (by decide +kernel),
    meetsUnder concurrently .concurrent (by decide) (by simp) (by decide +kernel),
    meetsUnder concurrently .concurrent (by decide) (by simp) (by decide +kernel),
    meetsUnder concurrently .concurrent (by decide) (by simp) (by decide +kernel),
    meetsUnder concurrently .concurrent (by decide) (by simp) (by decide +kernel)⟩

end Sys2Proof.Tests
end

section
/-! The arrival of a frame (00_scope.md R9): an RB.WRITE of each of its bytes by context P. -/

namespace Sys2Proof.Machine

theorem rbWrite_p_busy (b : Byte) (l : Line) : (rbWrite b l).1.p.busy = l.p.busy := by
  cases h : l.rb.full with
  | true => simp [rbWrite_full h]
  | false => simp [rbWrite_room h]

/-- A program whose first instruction completes goes on from the state it leaves, its response in front. -/
theorem runProgram_cons_of_next {c : Context} {i : Instr} {rest : List (Context × Instr)} {s s' t : State}
    {rs : List Response} (hi : exec i { s with ctx := c } = .next s') (hrest : runProgram rest s' = .next (t, rs)) :
    runProgram ((c, i) :: rest) s = .next (t, s'.resp :: rs) := by
  simp [runProgram, hi, hrest]

/-- RB.WRITE on a ring buffer that is set up and not being written is `rbWrite` on its line. -/
theorem exec_rbWrite_of_issuesOn {s : State} {n : Nat} {b : Byte} {l : Line} (hs : s.IssuesOn .producer n l)
    (hc : l.rb.configured = true) (hb : l.p.busy = none) :
    exec (.rbWrite n b) s = .next (s.after n (rbWrite b l).1 (.bool (rbWrite b l).2)) :=
  producerOp_of_next hs hc hb rfl

theorem arrival_of_issuesOn {s : State} {n : Nat} {bs : List Byte} {l : Line} (hs : s.IssuesOn .producer n l)
    (hc : l.rb.configured = true) (hb : l.p.busy = none) :
    arrival n bs s = .next (s.after n (deliver bs l).1 (.bools (deliver bs l).2)) :=
  producerOp_of_next hs hc hb rfl

theorem after_lines_self {s : State} {n : Nat} {l : Line} (h : s.lines[n]? = some l) (l' : Line) (r : Response) :
    (s.after n l' r).lines[n]? = some l' := by
  obtain ⟨hn, -⟩ := List.getElem?_eq_some_iff.mp h
  simp [hn]

/-- RB.WRITEs of `bs` issued one after another leave the line, and answer, as `deliver bs` does at once. -/
theorem runProgram_rbWrites {n : Nat} (bs : List Byte) {s : State} {l : Line} (hl : s.lines[n]? = some l)
    (hc : l.rb.configured = true) (hb : l.p.busy = none) :
    ∃ t : State, runProgram (allIn .producer (bs.map (.rbWrite n))) s = .next (t, (deliver bs l).2.map .bool) ∧
      t.lines[n]? = some (deliver bs l).1 := by
  induction bs generalizing s l with
  | nil => exact ⟨s, rfl, hl⟩
  | cons b bs ih =>
    have hwrite := exec_rbWrite_of_issuesOn (s := { s with ctx := .producer }) (b := b) ⟨rfl, hl⟩ hc hb
    have hline := after_lines_self (s := { s with ctx := .producer }) hl (rbWrite b l).1 (.bool (rbWrite b l).2)
    obtain ⟨t, hrest, ht⟩ := ih hline ((rbWrite_producerOnly b l).rb_configured.trans hc)
      ((rbWrite_p_busy b l).trans hb)
    exact ⟨t, runProgram_cons_of_next hwrite hrest, ht⟩

/-- Settles O53: each FRAME row is the arrival of its bytes, by induction the RB.WRITEs of them. -/
theorem frameArrivalIsAWriteOfEachByte : Obligations.FrameArrivalIsAWriteOfEachByte := by
  intro i s n bytes l hs hc hb hframe
  have hexec : exec i s = arrival n bytes s := by
    obtain ⟨data, crc, rfl, rfl⟩ | ⟨rfl, rfl⟩ | ⟨rfl, rfl⟩ := hframe
    · rfl
    · rfl
    · rfl
  obtain ⟨t, hrun, ht⟩ := runProgram_rbWrites bytes hs.2 hc hb
  exact ⟨(deliver bytes l).1, (deliver bytes l).2, t, hexec.trans (arrival_of_issuesOn hs hc hb), hrun, ht⟩

end Sys2Proof.Machine
end

section
/-! What executing an instruction can do to the machine, and to the line it names: one inversion lemma over all
instructions, from which the frames and the invariant are derived. -/

namespace Sys2Proof.Machine

/-- What `i` does to the line it names when it completes on it: the line before it, `l`, and the line it leaves, `l'`. -/
def LineEffect (cfg : Config) (i : Instr) (l l' : Line) : Prop :=
  match i with
  | .rbSetup _ c => l.rb.configured = false ∧ isPow2 c = true ∧ l' = { l with rb := RingBuffer.setup c }
  | .rbWrite _ b => l.rb.configured = true ∧ l.p.busy = none ∧ l' = (rbWrite b l).1
  | .rbRead _ => ∃ b, rbRead cfg.INTERLEAVE l = .next (l', b)
  | .rbIsEmpty _ => l.rb.configured = true ∧ l' = gap cfg.INTERLEAVE l
  | .crc8 _ _ => False
  | .asmStep _ => l.configured = true ∧ ∃ m, asmStep cfg l = .next (l', m)
  | .asmPoll _ => l.configured = true ∧ ∃ m, asmPoll cfg l = .next (l', m)
  | .pqEnq _ p => l.configured = true ∧ l' = (pqEnq p l).1
  | .pqDeq _ => l.configured = true ∧ ∃ p, pqDeq l = .next (l', p)
  | .pqAvail _ => l.configured = true ∧ l' = l
  | .txFrame _ p => l.configured = true ∧ txFrame cfg p l = .next l'
  | .txSend _ bs => l.configured = true ∧ txSend cfg bs l = .next l'
  | .lineInit _ c _ => l.configured = false ∧ l.rb.configured = false ∧ isPow2 c = true ∧ l' = initLine cfg c l
  | .frameData _ data crc => l.rb.configured = true ∧ l.p.busy = none ∧ l' = (deliver (frameBytes data crc) l).1
  | .frameAck _ => l.rb.configured = true ∧ l.p.busy = none ∧ l' = (deliver (ackFrame cfg) l).1
  | .frameRetx _ => l.rb.configured = true ∧ l.p.busy = none ∧ l' = (deliver (retxFrame cfg) l).1
  | .packetImage _ => False

theorem arrival_next {n : Nat} {bs : List Byte} {s t : State} (h : arrival n bs s = .next t) :
    ∃ l r, s.IssuesOn .producer n l ∧ l.rb.configured = true ∧ l.p.busy = none ∧
      t = s.after n (deliver bs l).1 r := by
  obtain ⟨l, l', r, hs, hc, hb, hf, rfl⟩ := producerOp_next h
  cases hf
  exact ⟨l, _, hs, hc, hb, rfl⟩

theorem execRbSetup_next {n c : Nat} {s t : State} (h : execRbSetup n c s = .next t) :
    t = s.configError .invalidCapacity ∨
    ∃ l, s.lines[n]? = some l ∧ l.rb.configured = false ∧ isPow2 c = true ∧
      t = s.after n { l with rb := RingBuffer.setup c } .ok := by
  obtain ⟨-, h⟩ := requireContext_next h
  split at h
  · cases h
  · next l hl =>
    split_ifs at h with hconf hcap
    · cases h; exact .inl rfl
    · cases h; exact .inr ⟨l, hl, by simpa using hconf, by simpa using hcap, rfl⟩

theorem execLineInit_next {n c : Nat} {a : Bool} {s t : State} (h : execLineInit n c a s = .next t) :
    (∃ cause, t = s.configError cause) ∨
    ∃ l, s.lines[n]? = some l ∧ l.configured = false ∧ l.rb.configured = false ∧ isPow2 c = true ∧
      t = s.after n (initLine s.config c l) .ok := by
  obtain ⟨-, h⟩ := requireContext_next h
  split at h
  · cases h; exact .inl ⟨_, rfl⟩
  · next l hl =>
    split_ifs at h with hconf hcap halloc
    · cases h; exact .inl ⟨_, rfl⟩
    · cases h; exact .inl ⟨_, rfl⟩
    · cases h
      obtain ⟨hline, hrb⟩ : l.configured = false ∧ l.rb.configured = false := by simpa using hconf
      exact .inr ⟨l, hl, hline, hrb, by simpa using hcap, rfl⟩

theorem consumerOp_answering_next {α : Type} {n : Nat} {g : α → Response}
    {f : Line → Host.Outcome (Line × α) Fault Refusal} {s t : State}
    (h : consumerOp n (fun l => answering g (f l)) s = .next t) :
    ∃ l l' a, s.lines[n]? = some l ∧ l.configured = true ∧ f l = .next (l', a) ∧ t = s.after n l' (g a) := by
  obtain ⟨l, l', r, hs, hc, hf, rfl⟩ := consumerOp_next h
  obtain ⟨⟨m, a⟩, ha, hr⟩ := answering_next hf
  cases hr
  exact ⟨l, _, a, hs.2, hc, ha, rfl⟩

theorem consumerOp_noResponse_next {n : Nat} {f : Line → Host.Outcome Line Fault Refusal} {s t : State}
    (h : consumerOp n (noResponse f) s = .next t) :
    ∃ l l' r, s.lines[n]? = some l ∧ l.configured = true ∧ f l = .next l' ∧ t = s.after n l' r := by
  obtain ⟨l, l', r, hs, hc, hf, rfl⟩ := consumerOp_next h
  exact ⟨l, l', r, hs.2, hc, (noResponse_next hf).1, rfl⟩

theorem execRbRead_next {n : Nat} {s t : State} (h : execRbRead n s = .next t) :
    ∃ l l' b, s.lines[n]? = some l ∧ rbRead s.config.INTERLEAVE l = .next (l', b) ∧
      t = s.after n l' (.optByte b) := by
  obtain ⟨-, h⟩ := requireContext_next h
  obtain ⟨l, l', r, hl, hf, rfl⟩ := onLine_next h
  obtain ⟨⟨m, b⟩, hb, hr⟩ := answering_next hf
  cases hr
  exact ⟨l, _, b, hl, hb, rfl⟩

theorem execRbIsEmpty_next {n : Nat} {s t : State} (h : execRbIsEmpty n s = .next t) :
    ∃ l, s.lines[n]? = some l ∧ l.rb.configured = true ∧
      t = s.after n (gap s.config.INTERLEAVE l) (.bool (gap s.config.INTERLEAVE l).rb.cursorsEqual) := by
  obtain ⟨-, h⟩ := requireContext_next h
  obtain ⟨l, l', r, hl, hf, rfl⟩ := onLine_next h
  unfold rbIsEmpty at hf
  split_ifs at hf with hc
  cases hf
  exact ⟨l, hl, hc, rfl⟩

theorem execCrc8_next {bs : List Byte} {k : Nat} {s t : State} (h : execCrc8 bs k s = .next t) :
    t = s.respond (.byte (crc8 s.config bs k)) := by
  unfold execCrc8 at h
  split_ifs at h
  cases h
  rfl

/-- Everything an instruction can do when it completes: answer, fail as a set-up operation, or act on the one line it
names. -/
theorem exec_next {i : Instr} {s t : State} (h : exec i s = .next t) :
    (∃ r, t = s.respond r) ∨ (∃ c, t = s.configError c) ∨
    ∃ n l l' r, i.line? = some n ∧ s.lines[n]? = some l ∧ LineEffect s.config i l l' ∧ t = s.after n l' r := by
  cases i with
  | rbSetup n c =>
    obtain rfl | ⟨l, hl, hc, hp, rfl⟩ := execRbSetup_next h
    · exact .inr (.inl ⟨_, rfl⟩)
    · exact .inr (.inr ⟨n, l, _, _, rfl, hl, ⟨hc, hp, rfl⟩, rfl⟩)
  | rbWrite n b =>
    obtain ⟨l, l', r, hs, hc, hb, hf, rfl⟩ := producerOp_next h
    cases hf
    exact .inr (.inr ⟨n, l, _, _, rfl, hs.2, ⟨hc, hb, rfl⟩, rfl⟩)
  | rbRead n =>
    obtain ⟨l, l', b, hl, hb, rfl⟩ := execRbRead_next h
    exact .inr (.inr ⟨n, l, _, _, rfl, hl, ⟨b, hb⟩, rfl⟩)
  | rbIsEmpty n =>
    obtain ⟨l, hl, hc, rfl⟩ := execRbIsEmpty_next h
    exact .inr (.inr ⟨n, l, _, _, rfl, hl, ⟨hc, rfl⟩, rfl⟩)
  | crc8 bs k => exact .inl ⟨_, execCrc8_next h⟩
  | asmStep n =>
    obtain ⟨l, l', a, hl, hc, ha, rfl⟩ := consumerOp_answering_next h
    exact .inr (.inr ⟨n, l, _, _, rfl, hl, ⟨hc, a, ha⟩, rfl⟩)
  | asmPoll n =>
    obtain ⟨l, l', a, hl, hc, ha, rfl⟩ := consumerOp_answering_next h
    exact .inr (.inr ⟨n, l, _, _, rfl, hl, ⟨hc, a, ha⟩, rfl⟩)
  | pqEnq n p =>
    obtain ⟨l, l', r, hs, hc, hf, rfl⟩ := consumerOp_next h
    cases hf
    exact .inr (.inr ⟨n, l, _, _, rfl, hs.2, ⟨hc, rfl⟩, rfl⟩)
  | pqDeq n =>
    obtain ⟨l, l', a, hl, hc, ha, rfl⟩ := consumerOp_answering_next h
    exact .inr (.inr ⟨n, l, _, _, rfl, hl, ⟨hc, a, ha⟩, rfl⟩)
  | pqAvail n =>
    obtain ⟨l, l', r, hs, hc, hf, rfl⟩ := consumerOp_next h
    cases hf
    exact .inr (.inr ⟨n, l, _, _, rfl, hs.2, ⟨hc, rfl⟩, rfl⟩)
  | txFrame n p =>
    obtain ⟨l, l', r, hl, hc, hf, rfl⟩ := consumerOp_noResponse_next h
    exact .inr (.inr ⟨n, l, _, _, rfl, hl, ⟨hc, hf⟩, rfl⟩)
  | txSend n bs =>
    obtain ⟨l, l', r, hl, hc, hf, rfl⟩ := consumerOp_noResponse_next h
    exact .inr (.inr ⟨n, l, _, _, rfl, hl, ⟨hc, hf⟩, rfl⟩)
  | lineInit n c a =>
    obtain ⟨cause, rfl⟩ | ⟨l, hl, hc, hrb, hp, rfl⟩ := execLineInit_next h
    · exact .inr (.inl ⟨_, rfl⟩)
    · exact .inr (.inr ⟨n, l, _, _, rfl, hl, ⟨hc, hrb, hp, rfl⟩, rfl⟩)
  | frameData n data crc =>
    obtain ⟨l, r, hs, hc, hb, rfl⟩ := arrival_next h
    exact .inr (.inr ⟨n, l, _, _, rfl, hs.2, ⟨hc, hb, rfl⟩, rfl⟩)
  | frameAck n =>
    obtain ⟨l, r, hs, hc, hb, rfl⟩ := arrival_next h
    exact .inr (.inr ⟨n, l, _, _, rfl, hs.2, ⟨hc, hb, rfl⟩, rfl⟩)
  | frameRetx n =>
    obtain ⟨l, r, hs, hc, hb, rfl⟩ := arrival_next h
    exact .inr (.inr ⟨n, l, _, _, rfl, hs.2, ⟨hc, hb, rfl⟩, rfl⟩)
  | packetImage p => cases h; exact .inl ⟨_, rfl⟩

theorem exec_config {i : Instr} {s t : State} (h : exec i s = .next t) : t.config = s.config := by
  obtain ⟨r, rfl⟩ | ⟨c, rfl⟩ | ⟨n, l, l', r, -, -, -, rfl⟩ := exec_next h <;> rfl

/-- Line `k` after an operation on line `n` is the line the operation left there, or what it was. -/
theorem after_getElem?_cases {s : State} {n k : Nat} {l' : Line} {m : Line} {r : Response}
    (h : (s.after n l' r).lines[k]? = some m) : (n = k ∧ m = l') ∨ s.lines[k]? = some m := by
  rw [after_lines, List.getElem?_set] at h
  split_ifs at h with hnk hn
  · exact .inl ⟨hnk, by simpa using h.symm⟩
  · exact .inr h

/-- A line of the state after an instruction is unchanged, or is the one the instruction names and left so. -/
theorem exec_line {i : Instr} {s t : State} {k : Nat} {l' : Line} (h : exec i s = .next t)
    (hl' : t.lines[k]? = some l') :
    ∃ l, s.lines[k]? = some l ∧ (l' = l ∨ (i.line? = some k ∧ LineEffect s.config i l l')) := by
  obtain ⟨r, rfl⟩ | ⟨c, rfl⟩ | ⟨n, l, m, r, hn, hl, he, rfl⟩ := exec_next h
  · exact ⟨l', hl', .inl rfl⟩
  · exact ⟨l', hl', .inl rfl⟩
  · obtain ⟨rfl, rfl⟩ | hk := after_getElem?_cases hl'
    · exact ⟨l, hl, .inr ⟨hn, he⟩⟩
    · exact ⟨l', hk, .inl rfl⟩

/-- `exec_line`, for the line `l` that stood there before. -/
theorem exec_line_of {i : Instr} {s t : State} {k : Nat} {l l' : Line} (h : exec i s = .next t)
    (hl : s.lines[k]? = some l) (hl' : t.lines[k]? = some l') :
    l' = l ∨ (i.line? = some k ∧ LineEffect s.config i l l') := by
  obtain ⟨m, hm, hcases⟩ := exec_line h hl'
  obtain rfl : m = l := by simpa [hm] using hl
  exact hcases

/-! ## The units besides the ring buffer, and their writers -/

/-- The assembler, the queue, `tx` and `last_tx` are as they were. -/
structure UnitsKept (l l' : Line) : Prop where
  asm : l'.asm = l.asm
  pq : l'.pq = l.pq
  tx : l'.tx = l.tx
  lastTx : l'.lastTx = l.lastTx

theorem UnitsKept.refl (l : Line) : UnitsKept l l := ⟨rfl, rfl, rfl, rfl⟩

theorem ReadOnly.unitsKept {l l' : Line} (h : ReadOnly l l') : UnitsKept l l' := ⟨h.asm, h.pq, h.tx, h.lastTx⟩

theorem ProducerOnly.unitsKept {l l' : Line} (h : ProducerOnly l l') : UnitsKept l l' := h.readOnly.unitsKept

theorem txFrame_asm_pq {cfg : Config} {p : Image} {l l' : Line} (h : txFrame cfg p l = .next l') :
    l'.asm = l.asm ∧ l'.pq = l.pq := by
  obtain ⟨-, rfl⟩ := txFrame_next h
  exact ⟨rfl, rfl⟩

theorem txSend_asm_pq {cfg : Config} {bs : List Byte} {l l' : Line} (h : txSend cfg bs l = .next l') :
    l'.asm = l.asm ∧ l'.pq = l.pq := by
  refine txSendUpTo_keeps (I := fun m => m.asm = l.asm ∧ m.pq = l.pq) (fun p a b ha hab => ?_) ⟨rfl, rfl⟩ h
  obtain ⟨hasm, hpq⟩ := txFrame_asm_pq hab
  exact ⟨hasm.trans ha.1, hpq.trans ha.2⟩

/-- Only the assembler's steps, LINE.INIT, the queue's PQ.ENQ and PQ.DEQ and the two sends write a unit besides the ring
buffer, and the last four only their own. -/
theorem LineEffect.unitsKept_or_writer {cfg : Config} {i : Instr} {l l' : Line} (h : LineEffect cfg i l l') :
    UnitsKept l l' ∨ (∃ n, i = .asmStep n) ∨ (∃ n, i = .asmPoll n) ∨ (∃ n c a, i = .lineInit n c a) ∨
    (∃ n p, i = .pqEnq n p ∧ l' = (pqEnq p l).1) ∨ (∃ n p, i = .pqDeq n ∧ pqDeq l = .next (l', p)) ∨
    (((∃ n p, i = .txFrame n p) ∨ ∃ n bs, i = .txSend n bs) ∧ l'.asm = l.asm ∧ l'.pq = l.pq) := by
  cases i with
  | rbSetup n c => obtain ⟨-, -, rfl⟩ := h; exact .inl ⟨rfl, rfl, rfl, rfl⟩
  | rbWrite n b => obtain ⟨-, -, rfl⟩ := h; exact .inl (rbWrite_producerOnly b l).unitsKept
  | rbRead n => obtain ⟨b, hb⟩ := h; exact .inl (rbRead_readOnly hb).unitsKept
  | rbIsEmpty n => obtain ⟨-, rfl⟩ := h; exact .inl (gap_producerOnly _ l).unitsKept
  | crc8 bs k => cases h
  | asmStep n => simp
  | asmPoll n => simp
  | pqEnq n p => simp [h.2]
  | pqDeq n => obtain ⟨-, p, hp⟩ := h; simp [hp]
  | pqAvail n => obtain ⟨-, rfl⟩ := h; exact .inl (.refl l')
  | txFrame n p => simp [txFrame_asm_pq h.2]
  | txSend n bs => simp [txSend_asm_pq h.2]
  | lineInit n c a => simp
  | frameData n data crc => obtain ⟨-, -, rfl⟩ := h; exact .inl (deliver_producerOnly _ l).unitsKept
  | frameAck n => obtain ⟨-, -, rfl⟩ := h; exact .inl (deliver_producerOnly _ l).unitsKept
  | frameRetx n => obtain ⟨-, -, rfl⟩ := h; exact .inl (deliver_producerOnly _ l).unitsKept
  | packetImage p => cases h

theorem pqEnq_asm_tx (p : Image) (l : Line) :
    (pqEnq p l).1.asm = l.asm ∧ (pqEnq p l).1.tx = l.tx ∧ (pqEnq p l).1.lastTx = l.lastTx := by
  cases h : l.pq.isFull with
  | true => simp [pqEnq_full h]
  | false => simp [pqEnq_room h]

/-- 43_packet_queue.md R121: PQ.ENQ writes no slot but the one at the write index. -/
theorem pqEnq_slot_other (p : Image) (l : Line) {x : Nat} (hx : x ≠ l.pq.wr) :
    (pqEnq p l).1.pq.slot.read x = l.pq.slot.read x := by
  cases h : l.pq.isFull with
  | true => simp [pqEnq_full h]
  | false => simp [pqEnq_room h, Memory.read_write_other _ p hx]

/-- 43_packet_queue.md R122: of the queue PQ.DEQ writes the read index only, and no other unit. -/
theorem pqDeq_frame {l l' : Line} {p : Option Image} (h : pqDeq l = .next (l', p)) :
    l'.asm = l.asm ∧ l'.pq.slot = l.pq.slot ∧ l'.pq.wr = l.pq.wr ∧ l'.tx = l.tx ∧ l'.lastTx = l.lastTx := by
  obtain ⟨-, e⟩ | ⟨q, -, -, e⟩ := pqDeq_next h <;> cases e <;> exact ⟨rfl, rfl, rfl, rfl, rfl⟩

/-- Settles O52: from what each instruction does to its line, writer by writer. -/
theorem eachUnitHasItsWriters : Obligations.EachUnitHasItsWriters := by
  intro i s t k l l' h hl hl'
  obtain rfl | ⟨-, he⟩ := exec_line_of h hl hl'
  · simp
  refine ⟨fun hstep hpoll hinit => ?_, ?_, ?_⟩
  · obtain hk | ⟨n, rfl⟩ | ⟨n, rfl⟩ | ⟨n, c, a, rfl⟩ | ⟨n, p, rfl, rfl⟩ | ⟨n, p, rfl, hp⟩ | ⟨htx, hasm, hpq⟩ :=
      he.unitsKept_or_writer
    · simp [hk.asm, hk.pq, hk.tx, hk.lastTx]
    · exact absurd rfl (hstep n)
    · exact absurd rfl (hpoll n)
    · exact absurd rfl (hinit n c a)
    · simp [pqEnq_asm_tx p l]
    · obtain ⟨hasm, hslot, hwr, htx, hlast⟩ := pqDeq_frame hp
      simp [hasm, hslot, hwr, htx, hlast]
    · refine ⟨hasm, fun _ => by simp [hpq], fun _ _ => hpq, fun hframe hsend => ?_⟩
      obtain ⟨n, p, rfl⟩ | ⟨n, bs, rfl⟩ := htx
      · exact absurd rfl (hframe n p)
      · exact absurd rfl (hsend n bs)
  · rintro ⟨n, p, rfl⟩ x hx
    rw [he.2, pqEnq_slot_other p l hx]
  · rintro (⟨n, rfl⟩ | ⟨bs, c, rfl⟩ | ⟨p, rfl⟩)
    · exact he.2
    · cases he
    · cases he

end Sys2Proof.Machine
end

section
/-! The decoder reads well-formed instructions only. -/

namespace Sys2Proof

/-- R68, R70: padding up to `MAX_PAYLOAD` bytes gives the `data` field its size. -/
theorem length_padded {cfg : Config} {P : List Byte} (h : P.length ≤ cfg.MAX_PAYLOAD) :
    (padded cfg P).length = cfg.MAX_PAYLOAD := by
  simp [padded, h]

theorem mkpkt_sized {cfg : Config} {P : List Byte} (h : P.length ≤ cfg.MAX_PAYLOAD) : (mkpkt cfg P).Sized cfg :=
  length_padded h

theorem ofBytes_sized (cfg : Config) (bs : List Byte) : (Image.ofBytes cfg bs).Sized cfg :=
  (List.length_map _).trans List.length_range

/-- Readings in a row succeed when the first does and the rest do after it. -/
theorem except_bind_ok {α β : Type} {x : Except Reject α} {f : α → Except Reject β} {r : β}
    (h : (x >>= f) = .ok r) : ∃ a, x = .ok a ∧ f a = .ok r := by
  cases x with
  | error e => cases h
  | ok a => exact ⟨a, rfl, h⟩

theorem takeBytes_length {n : Nat} {bs : List Byte} {r : List Byte × List Byte} (h : takeBytes n bs = .ok r) :
    r.1.length = n := by
  unfold takeBytes at h
  split_ifs at h with hn
  cases h
  simp; omega

theorem takeImage_sized {cfg : Config} {bs : List Byte} {r : Image × List Byte} (h : takeImage cfg bs = .ok r) :
    r.1.Sized cfg := by
  obtain ⟨a, -, h⟩ := except_bind_ok h
  cases h
  exact ofBytes_sized cfg _

theorem decodeOperands_wellFormed {cfg : Config} {op : Nat} {bs : List Byte} {r : Instr × List Byte}
    (h : decodeOperands cfg op bs = .ok r) : r.1.wellFormed cfg = true := by
  unfold decodeOperands at h
  split at h
  -- a line alone
  case h_3 | h_4 | h_6 | h_7 | h_9 | h_10 =>
    obtain ⟨n, -, h⟩ := except_bind_ok h
    cases h; rfl
  -- two operands, neither of them an image
  case h_1 | h_2 | h_5 | h_12 =>
    obtain ⟨n, -, h⟩ := except_bind_ok h
    obtain ⟨x, -, h⟩ := except_bind_ok h
    cases h; rfl
  -- PQ.ENQ, TX.FRAME
  case h_8 | h_11 =>
    obtain ⟨n, -, h⟩ := except_bind_ok h
    obtain ⟨p, hp, h⟩ := except_bind_ok h
    cases h; exact decide_eq_true (takeImage_sized hp)
  -- LINE.INIT
  case h_13 =>
    obtain ⟨n, -, h⟩ := except_bind_ok h
    obtain ⟨c, -, h⟩ := except_bind_ok h
    obtain ⟨a, -, h⟩ := except_bind_ok h
    cases h; rfl
  -- no operation
  case h_14 => cases h

theorem decodeFrame_wellFormed {cfg : Config} {line : Nat} {bs : List Byte} {r : Instr × List Byte}
    (h : decodeFrame cfg line bs = .ok r) : r.1.wellFormed cfg = true := by
  unfold decodeFrame at h
  split at h
  · cases h
  · next L bs =>
    split_ifs at h with hL
    obtain ⟨⟨data, bs'⟩, hdata, h⟩ := except_bind_ok h
    obtain ⟨⟨crc, bs''⟩, -, h⟩ := except_bind_ok h
    have hlen : data.length = L.toNat := takeBytes_length hdata
    simp only at h
    split_ifs at h with hack hretx
    · cases h; rfl
    · cases h; rfl
    · cases h
      simp [Instr.wellFormed, hack, hretx]; omega

theorem decodeImage_wellFormed {cfg : Config} {bs : List Byte} {r : Instr × List Byte}
    (h : decodeImage cfg bs = .ok r) : r.1.wellFormed cfg = true := by
  obtain ⟨⟨p, bs'⟩, hp, h⟩ := except_bind_ok h
  have hsized : p.Sized cfg := takeImage_sized hp
  simp only at h
  split_ifs at h with hlen
  cases h
  simp only [Instr.wellFormed, Bool.and_eq_true, decide_eq_true_eq]
  exact ⟨hsized, by omega⟩

theorem decode_wellFormed {cfg : Config} {sp : Space} {bs : List Byte} {r : Instr × List Byte}
    (h : decode cfg sp bs = .ok r) : r.1.wellFormed cfg = true := by
  cases sp with
  | request =>
    change decodeRequest cfg bs = .ok r at h
    unfold decodeRequest at h
    split at h
    · cases h
    · split_ifs at h
      exact decodeOperands_wellFormed h
  | wire line => exact decodeFrame_wellFormed h
  | image => exact decodeImage_wellFormed h

end Sys2Proof
end

section
/-! The invariants of the units are kept: the queue's indices (43_packet_queue.md R121, R122, R126), the assembler's
transitions (42_assembler.md R103 to R117), the ring buffer under the steps of both contexts. -/

namespace Sys2Proof.Machine

/-! ## Indices into a ring, for any read index `rd` and write index `wr` -/

/-- The element as many places after the read index as the write index is, is the one at the write index. -/
theorem index_ahead {cap wr rd : Nat} (h : isPow2 cap = true) (hw : wr < cap) (hr : rd < cap) :
    (rd + ((wr + cap - rd) &&& (cap - 1))) &&& (cap - 1) = wr := by
  have hlt : (wr + cap - rd) &&& (cap - 1) < cap := by rw [mask_eq_mod h]; exact Nat.mod_lt _ (isPow2_pos h)
  rw [index_eq h hr hlt, ahead_eq h hw hr]
  split_ifs <;> omega

theorem ahead_advance_write_le {cap wr rd : Nat} (h : isPow2 cap = true) (hw : wr < cap) (hr : rd < cap) :
    (advance wr cap + cap - rd) &&& (cap - 1) ≤ ((wr + cap - rd) &&& (cap - 1)) + 1 := by
  have hadv := advance_eq h hw
  rw [ahead_eq h (advance_lt h) hr, ahead_eq h hw hr]
  split_ifs at hadv ⊢ <;> omega

theorem ahead_advance_read {cap wr rd : Nat} (h : isPow2 cap = true) (hw : wr < cap) (hr : rd < cap) (hne : rd ≠ wr) :
    ((wr + cap - advance rd cap) &&& (cap - 1)) + 1 = (wr + cap - rd) &&& (cap - 1) := by
  have hadv := advance_eq h hr
  rw [ahead_eq h hw (advance_lt h), ahead_eq h hw hr]
  split_ifs at hadv ⊢ <;> omega

theorem index_advance {cap : Nat} (h : isPow2 cap = true) (rd k : Nat) :
    (advance rd cap + k) &&& (cap - 1) = (rd + (k + 1)) &&& (cap - 1) := by
  rw [advance, mask_eq_mod h, mask_eq_mod h, mask_eq_mod h, Nat.mod_add_mod, Nat.add_right_comm, Nat.add_assoc]

/-! ## The queue -/

theorem PacketQueue.Inv.put {q : PacketQueue} (h : q.Inv) (p : Image) : (q.put p).Inv where
  cap_pow2 := h.cap_pow2
  cap_ge := h.cap_ge
  wr_lt := advance_lt h.cap_pow2
  rd_lt := h.rd_lt
  slot_wf := Memory.write_wf _ _ h.slot_wf
  slot_lt := Memory.write_lt h.wr_lt h.slot_lt
  live_filled := by
    intro k hk
    have hle : k ≤ q.count :=
      Nat.le_of_lt_succ (Nat.lt_of_lt_of_le hk (ahead_advance_write_le h.cap_pow2 h.wr_lt h.rd_lt))
    obtain hlt | rfl := Nat.lt_or_eq_of_le hle
    · exact Memory.read_write_ne_none _ _ _ _ (h.live_filled k hlt)
    · have hidx : (q.rd + q.count) &&& (q.cap - 1) = q.wr := index_ahead h.cap_pow2 h.wr_lt h.rd_lt
      simp [hidx, Memory.read_write_same]

theorem PacketQueue.Inv.drop {q : PacketQueue} (h : q.Inv) (hne : q.isEmpty = false) : q.drop.Inv where
  cap_pow2 := h.cap_pow2
  cap_ge := h.cap_ge
  wr_lt := h.wr_lt
  rd_lt := advance_lt h.cap_pow2
  slot_wf := h.slot_wf
  slot_lt := h.slot_lt
  live_filled := by
    intro k hk
    have hcount : q.drop.count + 1 = q.count :=
      ahead_advance_read h.cap_pow2 h.wr_lt h.rd_lt (by simpa [PacketQueue.isEmpty] using hne)
    rw [drop_slot, drop_rd, drop_cap, index_advance h.cap_pow2]
    exact h.live_filled (k + 1) (by omega)

/-- A queue after LINE.INIT: no slot filled, none queued. -/
theorem PacketQueue.inv_empty {cap : Nat} (h : isPow2 cap = true) (h2 : 2 ≤ cap) :
    PacketQueue.Inv { cap := cap, slot := [], wr := 0, rd := 0 } where
  cap_pow2 := h
  cap_ge := h2
  wr_lt := isPow2_pos h
  rd_lt := isPow2_pos h
  slot_wf := Memory.wf_nil
  slot_lt := by simp
  live_filled := by simp [PacketQueue.count, mask_eq_mod h]

/-! ## The assembler -/

theorem FilledFrom.sized {cfg : Config} {n : Nat} {p : Image} (h : FilledFrom cfg n p) : p.Sized cfg := by
  obtain ⟨received, rfl, hle, hdata⟩ := h
  exact (congrArg List.length hdata).trans (length_padded hle)

/-- 42_assembler.md R106: the next data byte takes the place of a pad. -/
theorem set_padded {cfg : Config} {P : List Byte} (h : P.length < cfg.MAX_PAYLOAD) (b : Byte) :
    (padded cfg P).set P.length b = padded cfg (P ++ [b]) := by
  obtain ⟨k, hk⟩ : ∃ k, cfg.MAX_PAYLOAD - P.length = k + 1 := ⟨cfg.MAX_PAYLOAD - P.length - 1, by omega⟩
  have hk' : cfg.MAX_PAYLOAD - (P.length + 1) = k := by omega
  simp [padded, hk, hk', List.replicate_succ]

theorem Assembler.inv_awaitingLength {cfg : Config} {a : Assembler} (h : a.phase = .awaitingLength) : a.Inv cfg :=
  ⟨by simp [h], by simp [h], by simp [h]⟩

theorem Assembler.inv_takeLength (cfg : Config) (b : Byte) (a : Assembler) : (a.takeLength cfg b).Inv cfg where
  recognised := by simp
  inData := fun _ => ⟨by simp, [], rfl, Nat.zero_le _, rfl⟩
  inCrc := by simp

theorem Assembler.Inv.takeData {cfg : Config} {a : Assembler} (h : a.Inv cfg) (hp : a.phase = .awaitingData)
    (hlen : a.cnt.toNat < a.pkt.length.toNat) (hmax : a.cnt.toNat < cfg.MAX_PAYLOAD) (b : Byte) :
    (a.takeData b).Inv cfg where
  recognised := h.recognised
  inData := by
    intro _
    obtain ⟨-, received, hcnt, -, hdata⟩ := h.inData hp
    have hnext : (a.cnt + 1).toNat = a.cnt.toNat + 1 := by bv_omega
    rw [takeData_cnt, takeData_pkt_length, hnext]
    refine ⟨hlen, received ++ [b], by simp [hcnt], hmax, ?_⟩
    change a.pkt.data.set a.cnt.toNat b = _
    rw [hdata, ← hcnt, set_padded (hcnt ▸ hmax)]
  inCrc := by simp [hp]

theorem Assembler.Inv.toAwaitingCrc {cfg : Config} {a : Assembler} (h : a.Inv cfg) (hp : a.phase = .awaitingData)
    (hlen : a.pkt.length.toNat ≤ a.cnt.toNat) : (a.toPhase .awaitingCrc).Inv cfg where
  recognised := by simp
  inData := by simp
  inCrc := fun _ => ⟨BitVec.eq_of_toNat_eq (Nat.le_antisymm (h.inData hp).1 hlen), (h.inData hp).2⟩

theorem Assembler.Inv.takeCrc {cfg : Config} {a : Assembler} (h : a.Inv cfg) (b : Byte) : (a.takeCrc b).Inv cfg :=
  ⟨h.recognised, h.inData, h.inCrc⟩

/-! ## The ring buffer -/

theorem rbWrite_bounded {b : Byte} {l : Line} (h : l.rb.Bounded) : (rbWrite b l).1.rb.Bounded := by
  cases hf : l.rb.full with
  | true => simpa [rbWrite_full hf] using h
  | false => simpa [rbWrite_room hf] using h.store b

theorem pMicro_bounded {l : Line} (h : l.rb.Bounded) : (pMicro l).rb.Bounded := by
  unfold pMicro
  split
  · exact h.w2 _
  · exact h.w3
  · exact h.w4
  · split
    · exact h
    · split_ifs <;> exact h

theorem pWhole_bounded {l : Line} (h : l.rb.Bounded) : (pWhole l).rb.Bounded := by
  unfold pWhole
  split
  · exact rbWrite_bounded h
  · exact h

theorem pStep_bounded (m : Interleave) {l : Line} (h : l.rb.Bounded) : (pStep m l).rb.Bounded := by
  cases m
  · exact pWhole_bounded h
  · exact pMicro_bounded h
  · exact pWhole_bounded h
  · exact pMicro_bounded h

theorem gap_bounded (m : Interleave) {l : Line} (h : l.rb.Bounded) : (gap m l).rb.Bounded :=
  gap_keeps (I := fun l => l.rb.Bounded) (fun _ _ h => h) (fun _ h => pStep_bounded m h) h

theorem settle_bounded (m : Interleave) (u : Bool) {l : Line} (h : l.rb.Bounded) : (settle m u l).rb.Bounded :=
  settle_keeps (I := fun l => l.rb.Bounded) (fun _ h => pMicro_bounded h) h

theorem deliver_bounded (bs : List Byte) {l : Line} (h : l.rb.Bounded) : (deliver bs l).1.rb.Bounded := by
  induction bs generalizing l with
  | nil => exact h
  | cons b bs ih => exact ih (rbWrite_bounded h)

theorem rbRead_bounded {m : Interleave} {l : Line} {r : Line × Option Byte} (hr : rbRead m l = .next r)
    (h : l.rb.Bounded) : r.1.rb.Bounded := by
  obtain ⟨-, ⟨l1, rfl, -, rfl⟩ | ⟨l2, l3, l4, b, -, rfl, -, rfl, rfl, rfl⟩⟩ := rbRead_next hr
  · exact gap_bounded m h
  · have h3 := gap_bounded m (gap_bounded m (gap_bounded m h))
    have hr3 : RingBuffer.Bounded ({ gap m (gap m (gap m l)) with rb := (gap m (gap m (gap m l))).rb.r3 } : Line).rb :=
      h3.r3
    exact (settle_bounded m _ (gap_bounded m hr3)).r4

end Sys2Proof.Machine
end

section
/-! The machine invariant: what keeps it on a line, transition by transition and instruction by instruction, and that every
step keeps it. With it goes what the bytes sent gain (44_frame_tx.md R132), which the invariant rests on. -/

namespace Sys2Proof.Machine

/-! ## Whole frames -/

/-- `tx` gains the frames of sendable packets only, and `last_tx` is the last of them when it gains any. -/
def SendsFrames (cfg : Config) (l l' : Line) : Prop :=
  ∃ sent : List Image, (∀ p ∈ sent, Sendable cfg p) ∧ l'.tx = l.tx ++ sent.flatMap wire ∧
    l'.lastTx = sent.getLast?.or l.lastTx

theorem SendsFrames.none {cfg : Config} {l l' : Line} (htx : l'.tx = l.tx) (hlast : l'.lastTx = l.lastTx) :
    SendsFrames cfg l l' := ⟨[], by simp, by simp [htx], by simp [hlast]⟩

theorem SendsFrames.trans {cfg : Config} {a b c : Line} (h : SendsFrames cfg a b) (k : SendsFrames cfg b c) :
    SendsFrames cfg a c := by
  obtain ⟨x, hx, htx, hlx⟩ := h
  obtain ⟨y, hy, hty, hly⟩ := k
  refine ⟨x ++ y, fun p hp => (List.mem_append.1 hp).elim (hx p) (hy p), by simp [hty, htx], ?_⟩
  rw [hly, hlx, List.getLast?_append, Option.or_assoc]

theorem txFrame_sendsFrames {cfg : Config} {p : Image} {l l' : Line} (hp : p.Sized cfg)
    (h : txFrame cfg p l = .next l') : SendsFrames cfg l l' := by
  obtain ⟨hlen, rfl⟩ := txFrame_next h
  exact ⟨[p], by simpa using ⟨hp, hlen⟩, by simp, by simp⟩

/-- Whole frames after whole frames are whole frames. -/
theorem Line.TxWhole.of_sendsFrames {cfg : Config} {l l' : Line} (h : l.TxWhole cfg) (k : SendsFrames cfg l l') :
    l'.TxWhole cfg := by
  obtain ⟨x, hx, htx, hlx⟩ := h
  obtain ⟨y, hy, hty, hly⟩ := k
  refine ⟨x ++ y, fun p hp => (List.mem_append.1 hp).elim (hx p) (hy p), by simp [hty, htx], ?_⟩
  rw [hly, hlx, List.getLast?_append]

/-! ## What keeps a line's invariant -/

/-- What an operation other than LINE.INIT makes of a line that meets its invariant: the invariant still holds, the line
is set up or not as before, and `tx` has gained whole frames only. -/
structure KeepsInv (cfg : Config) (l l' : Line) : Prop where
  inv : l'.Inv cfg
  configured : l'.configured = l.configured
  sends : SendsFrames cfg l l'

theorem KeepsInv.refl {cfg : Config} {l : Line} (h : l.Inv cfg) : KeepsInv cfg l l := ⟨h, rfl, .none rfl rfl⟩

theorem KeepsInv.trans {cfg : Config} {a b c : Line} (h : KeepsInv cfg a b) (k : KeepsInv cfg b c) : KeepsInv cfg a c :=
  ⟨k.inv, k.configured.trans h.configured, h.sends.trans k.sends⟩

/-- An operation on a ring buffer that is set up, inside its bounds. -/
theorem ReadOnly.keepsInv {cfg : Config} {l l' : Line} (k : ReadOnly l l') (h : l.Inv cfg)
    (hc : l.rb.configured = true) (hb : l'.rb.Bounded) : KeepsInv cfg l l' := by
  have hsends : SendsFrames cfg l l' := .none k.tx k.lastTx
  have hrb : l'.rb.configured = true := k.rb_configured.trans hc
  refine ⟨?_, k.configured, hsends⟩
  constructor
  case rb_bounded => exact fun _ => hb
  case rb_configured => exact fun _ => hrb
  case busy_configured => exact fun _ => hrb
  case sentinels => rw [k.configured, k.ackPkt, k.retxPkt]; exact h.sentinels
  case queue_size => rw [k.pq]; exact h.queue_size
  case queue => rw [k.configured, k.pq]; exact h.queue
  case assembler => rw [k.configured, k.asm]; exact h.assembler
  case tx_whole => exact h.tx_whole.of_sendsFrames hsends
  case queue_sized => rw [k.configured, k.pq]; exact h.queue_sized

theorem Line.Inv.withAsm {cfg : Config} {l : Line} (h : l.Inv cfg) {a : Assembler} (ha : a.Inv cfg) :
    KeepsInv cfg l { l with asm := a } :=
  ⟨⟨h.rb_bounded, h.rb_configured, h.busy_configured, h.sentinels, h.queue_size, h.queue, fun _ => ha, h.tx_whole,
    h.queue_sized⟩, rfl, .none rfl rfl⟩

theorem Line.Inv.withPq {cfg : Config} {l : Line} (h : l.Inv cfg) {q : PacketQueue} (hq : q.Inv)
    (hs : ∀ e ∈ q.slot, e.2.Sized cfg) : KeepsInv cfg l { l with pq := q } :=
  ⟨⟨h.rb_bounded, h.rb_configured, h.busy_configured, h.sentinels, ⟨hq.cap_pow2, hq.cap_ge⟩, fun _ => hq, h.assembler,
    h.tx_whole, fun _ => hs⟩, rfl, .none rfl rfl⟩

theorem Line.Inv.raise {cfg : Config} {l : Line} (h : l.Inv cfg) (c : Condition) : KeepsInv cfg l (l.raise c) :=
  ⟨⟨h.rb_bounded, h.rb_configured, h.busy_configured, h.sentinels, h.queue_size, h.queue, h.assembler, h.tx_whole,
    h.queue_sized⟩, rfl, .none rfl rfl⟩

/-- 42_assembler.md R116: back in `AwaitingLength` the assembler's invariant asks nothing of the packet. -/
theorem Line.Inv.restartAsm {cfg : Config} {l : Line} (h : l.Inv cfg) : KeepsInv cfg l l.restartAsm :=
  h.withAsm (Assembler.inv_awaitingLength rfl)

/-! ## The transmit path and the queue -/

theorem txFrame_keepsInv {cfg : Config} {p : Image} {l l' : Line} (h : l.Inv cfg) (hp : p.Sized cfg)
    (ht : txFrame cfg p l = .next l') : KeepsInv cfg l l' := by
  have hsends := txFrame_sendsFrames hp ht
  have hwhole := h.tx_whole.of_sendsFrames hsends
  obtain ⟨-, rfl⟩ := txFrame_next ht
  exact ⟨⟨h.rb_bounded, h.rb_configured, h.busy_configured, h.sentinels, h.queue_size, h.queue, h.assembler, hwhole,
    h.queue_sized⟩, rfl, hsends⟩

theorem pqEnq_keepsInv {cfg : Config} {p : Image} {l : Line} (h : l.Inv cfg) (hc : l.configured = true)
    (hp : p.Sized cfg) : KeepsInv cfg l (pqEnq p l).1 := by
  cases hf : l.pq.isFull with
  | true => rw [pqEnq_full hf]; exact .refl h
  | false =>
    rw [pqEnq_room hf]
    refine h.withPq ((h.queue hc).put p) fun e he => ?_
    obtain rfl | he := Memory.mem_write he
    · exact hp
    · exact h.queue_sized hc e he

theorem pqDeq_keepsInv {cfg : Config} {l l' : Line} {p : Option Image} (h : l.Inv cfg) (hc : l.configured = true)
    (hd : pqDeq l = .next (l', p)) : KeepsInv cfg l l' := by
  obtain ⟨-, e⟩ | ⟨q, hne, -, e⟩ := pqDeq_next hd
  · cases e; exact .refl h
  · cases e; exact h.withPq ((h.queue hc).drop hne) (h.queue_sized hc)

/-! ## The assembler's transitions -/

/-- 30_encoding.md R76: a sentinel's payload is one byte, so its image has its size. -/
theorem Line.Inv.sentinels_sized {cfg : Config} {l : Line} (hv : cfg.Valid) (h : l.Inv cfg) (hc : l.configured = true) :
    l.ackPkt.Sized cfg ∧ l.retxPkt.Sized cfg := by
  obtain ⟨hack, hretx⟩ := h.sentinels hc
  rw [hack, hretx]
  exact ⟨mkpkt_sized hv.payload_pos, mkpkt_sized hv.payload_pos⟩

theorem completeFrame_keepsInv {cfg : Config} {l l' : Line} (hv : cfg.Valid) (h : l.Inv cfg) (hc : l.configured = true)
    (hp : l.asm.pkt.Sized cfg) (hf : completeFrame cfg l = .next l') : KeepsInv cfg l l' := by
  obtain ⟨hack, hretx⟩ := h.sentinels_sized hv hc
  obtain ⟨-, ht⟩ | ⟨-, ht⟩ | ⟨-, rfl⟩ | ⟨-, ⟨hroom, ht⟩ | ⟨-, rfl⟩⟩ := completeFrame_next hf
  · exact (h.raise _).trans (txFrame_keepsInv (h.raise _).inv hretx ht)
  · exact txFrame_keepsInv h hretx ht
  · exact .refl h
  · have hq := pqEnq_keepsInv h hc hp
    exact hq.trans (txFrame_keepsInv hq.inv hack ht)
  · exact h.raise _

theorem rbRead_keepsInv {cfg : Config} {m : Interleave} {l l' : Line} {b : Option Byte} (h : l.Inv cfg)
    (hr : rbRead m l = .next (l', b)) : KeepsInv cfg l l' := by
  have hc : l.rb.configured = true := (rbRead_next hr).1
  exact (rbRead_readOnly hr).keepsInv h hc (rbRead_bounded hr (h.rb_bounded hc))

/-- A byte is read, then the assembler goes on to a state that meets its invariant. -/
theorem rbRead_withAsm_keepsInv {cfg : Config} {m : Interleave} {l l' : Line} {b : Option Byte} {a : Assembler}
    (h : l.Inv cfg) (hr : rbRead m l = .next (l', b)) (ha : a.Inv cfg) : KeepsInv cfg l { l' with asm := a } :=
  (rbRead_keepsInv h hr).trans ((rbRead_keepsInv h hr).inv.withAsm ha)

theorem asmStep_keepsInv {cfg : Config} {l : Line} {r : Line × Mark} (hv : cfg.Valid) (h : l.Inv cfg)
    (hc : l.configured = true) (hs : asmStep cfg l = .next r) : KeepsInv cfg l r.1 := by
  have ha := h.assembler hc
  obtain ⟨l', hr, rfl⟩ | ⟨l', b, -, hr, rfl⟩ | ⟨l', b, hp, hlen, hmax, hr, rfl⟩ | ⟨hp, hlen, rfl⟩ |
    ⟨l', l'', b, hp, hr, hf, rfl⟩ | ⟨-, rfl⟩ := asmStep_next hs
  · exact rbRead_keepsInv h hr
  · exact rbRead_withAsm_keepsInv h hr (Assembler.inv_takeLength cfg b _)
  · rw [(rbRead_readOnly hr).asm]
    exact rbRead_withAsm_keepsInv h hr (ha.takeData hp hlen hmax b)
  · exact h.withAsm (ha.toAwaitingCrc hp hlen)
  · rw [(rbRead_readOnly hr).asm] at hf
    have hcrc := rbRead_withAsm_keepsInv h hr (ha.takeCrc b)
    have hsized : (l.asm.takeCrc b).pkt.Sized cfg := (ha.inCrc hp).2.sized
    have hdone := hcrc.trans (completeFrame_keepsInv hv hcrc.inv (hcrc.configured.trans hc) hsized hf)
    exact hdone.trans hdone.inv.restartAsm
  · exact (h.raise _).trans (h.raise _).inv.restartAsm

theorem asmPoll_keepsInv {cfg : Config} {l : Line} {r : Line × Mark} (hv : cfg.Valid) (h : l.Inv cfg)
    (hc : l.configured = true) (hs : asmPoll cfg l = .next r) : KeepsInv cfg l r.1 :=
  asmPollUpTo_keeps (I := KeepsInv cfg l)
    (fun _ _ k hstep => k.trans (asmStep_keepsInv hv k.inv (k.configured.trans hc) hstep)) (.refl h) hs

/-- 44_frame_tx.md R130: every chunk TX.SEND sends has at most `MAX_PAYLOAD` bytes, so its image has its size. -/
theorem txSendUpTo_keepsInv {cfg : Config} {fuel : Nat} {bs : List Byte} {l l' : Line} (h : l.Inv cfg)
    (hs : txSendUpTo cfg fuel bs l = .next l') : KeepsInv cfg l l' := by
  induction fuel generalizing bs l with
  | zero => cases hs; exact .refl h
  | succ fuel ih =>
    unfold txSendUpTo at hs
    split_ifs at hs with hempty
    · cases hs; exact .refl h
    · split at hs
      · next l1 h1 =>
        have hchunk := txFrame_keepsInv h (mkpkt_sized (List.length_take_le _ _)) h1
        exact hchunk.trans (ih hchunk.inv hs)
      · cases hs
      · cases hs

/-! ## Instructions -/

theorem initLine_inv {cfg : Config} {c : Nat} {l : Line} (h : l.Inv cfg) (hp : isPow2 c = true) :
    (initLine cfg c l).Inv cfg where
  rb_bounded := fun _ => RingBuffer.bounded_setup hp
  rb_configured := fun _ => rfl
  busy_configured := fun _ => rfl
  sentinels := fun _ => ⟨rfl, rfl⟩
  queue_size := h.queue_size
  queue := fun _ => PacketQueue.inv_empty h.queue_size.1 h.queue_size.2
  assembler := fun _ => Assembler.inv_awaitingLength rfl
  tx_whole := ⟨[], by simp, rfl, rfl⟩
  queue_sized := by simp [initLine]

theorem rbSetup_keepsInv {cfg : Config} {c : Nat} {l : Line} (h : l.Inv cfg) (hp : isPow2 c = true) :
    KeepsInv cfg l { l with rb := RingBuffer.setup c } :=
  ⟨⟨fun _ => RingBuffer.bounded_setup hp, fun _ => rfl, fun _ => rfl, h.sentinels, h.queue_size, h.queue, h.assembler,
    h.tx_whole, h.queue_sized⟩, rfl, .none rfl rfl⟩

theorem deliver_keepsInv {cfg : Config} (bs : List Byte) {l : Line} (h : l.Inv cfg) (hc : l.rb.configured = true) :
    KeepsInv cfg l (deliver bs l).1 :=
  (deliver_producerOnly bs l).readOnly.keepsInv h hc (deliver_bounded bs (h.rb_bounded hc))

/-- Every instruction but LINE.INIT, which empties `tx`, keeps the invariant of its line and sends whole frames. -/
theorem LineEffect.keepsInv {cfg : Config} {i : Instr} {l l' : Line} (he : LineEffect cfg i l l') (hv : cfg.Valid)
    (h : l.Inv cfg) (hw : i.wellFormed cfg = true) (hi : ∀ n c a, i ≠ .lineInit n c a) : KeepsInv cfg l l' := by
  cases i with
  | rbSetup n c => obtain ⟨-, hp, rfl⟩ := he; exact rbSetup_keepsInv h hp
  | rbWrite n b =>
    obtain ⟨hc, -, rfl⟩ := he
    exact (rbWrite_producerOnly b l).readOnly.keepsInv h hc (rbWrite_bounded (h.rb_bounded hc))
  | rbRead n => obtain ⟨b, hr⟩ := he; exact rbRead_keepsInv h hr
  | rbIsEmpty n =>
    obtain ⟨hc, rfl⟩ := he
    exact (gap_producerOnly _ l).readOnly.keepsInv h hc (gap_bounded _ (h.rb_bounded hc))
  | crc8 bs k => cases he
  | asmStep n => obtain ⟨hc, m, hs⟩ := he; exact asmStep_keepsInv hv h hc hs
  | asmPoll n => obtain ⟨hc, m, hs⟩ := he; exact asmPoll_keepsInv hv h hc hs
  | pqEnq n p => obtain ⟨hc, rfl⟩ := he; exact pqEnq_keepsInv h hc (of_decide_eq_true hw)
  | pqDeq n => obtain ⟨hc, p, hd⟩ := he; exact pqDeq_keepsInv h hc hd
  | pqAvail n => obtain ⟨-, rfl⟩ := he; exact .refl h
  | txFrame n p => exact txFrame_keepsInv h (of_decide_eq_true hw) he.2
  | txSend n bs => exact txSendUpTo_keepsInv h he.2
  | lineInit n c a => exact absurd rfl (hi n c a)
  | frameData n data crc => obtain ⟨hc, -, rfl⟩ := he; exact deliver_keepsInv _ h hc
  | frameAck n => obtain ⟨hc, -, rfl⟩ := he; exact deliver_keepsInv _ h hc
  | frameRetx n => obtain ⟨hc, -, rfl⟩ := he; exact deliver_keepsInv _ h hc
  | packetImage p => cases he

theorem LineEffect.inv {cfg : Config} {i : Instr} {l l' : Line} (he : LineEffect cfg i l l') (hv : cfg.Valid)
    (h : l.Inv cfg) (hw : i.wellFormed cfg = true) : l'.Inv cfg := by
  by_cases hi : ∃ n c a, i = .lineInit n c a
  · obtain ⟨n, c, a, rfl⟩ := hi
    obtain ⟨-, -, hp, rfl⟩ := he
    exact initLine_inv h hp
  · push Not at hi
    exact (he.keepsInv hv h hw hi).inv

/-- Settles O42: an instruction keeps its line's invariant by sending whole frames only. -/
theorem sentBytesAreWholeFrames : Obligations.SentBytesAreWholeFrames := by
  intro s t i k l l' hs hw h hl hl' hi
  obtain rfl | ⟨hline, he⟩ := exec_line_of h hl hl'
  · exact SendsFrames.none rfl rfl
  · refine (he.keepsInv hs.valid (hs.lines l (List.mem_of_getElem? hl)) hw fun n c a e => ?_).sends
    subst e
    cases hline
    exact hi c a rfl

theorem exec_keepsInv {i : Instr} {s t : State} (hs : s.Inv) (hw : i.wellFormed s.config = true)
    (h : exec i s = .next t) : t.Inv := by
  have hcfg := exec_config h
  refine ⟨hcfg ▸ hs.valid, fun l' hl' => ?_⟩
  rw [hcfg]
  obtain ⟨k, hk⟩ := List.mem_iff_getElem?.1 hl'
  obtain ⟨l, hl, rfl | ⟨-, he⟩⟩ := exec_line h hk
  · exact hs.lines l' (List.mem_of_getElem? hl)
  · exact he.inv hs.valid (hs.lines l (List.mem_of_getElem? hl)) hw

/-! ## Steps -/

/-- A machine with another context issuing, another schedule: the invariant speaks of neither. -/
theorem State.Inv.fetched {s : State} (h : s.Inv) (c : Context) (rest : List Entry) : (s.fetched c rest).Inv :=
  ⟨h.valid, h.lines⟩

theorem arrive_next {n : Nat} {s t : State} (h : arrive n s = .next t) :
    ∃ l, s.lines[n]? = some l ∧ l.rb.configured = true ∧ t = s.after n (pStep s.config.INTERLEAVE l) .unit := by
  obtain ⟨l, l', r, hl, hf, rfl⟩ := onLine_next h
  split_ifs at hf with hc
  cases hf
  exact ⟨l, hl, hc, rfl⟩

theorem arrive_keepsInv {n : Nat} {s t : State} (hs : s.Inv) (h : arrive n s = .next t) : t.Inv := by
  obtain ⟨l, hl, hc, rfl⟩ := arrive_next h
  have hinv := hs.lines l (List.mem_of_getElem? hl)
  refine ⟨hs.valid, fun l' hl' => ?_⟩
  obtain hmem | rfl := List.mem_or_eq_of_mem_set hl'
  · exact hs.lines l' hmem
  · exact ((pStep_producerOnly _ l).readOnly.keepsInv hinv hc (pStep_bounded _ (hinv.rb_bounded hc))).inv

/-- Everything a step can do: nothing on an empty schedule; an arrival; the instruction its entry encodes. -/
theorem step_next {s t : State} (h : step s = .next t) :
    t = s ∨ (∃ n rest, arrive n (s.fetched .producer rest) = .next t) ∨
    ∃ c sp bytes rest r, decode s.config sp bytes = .ok r ∧ exec r.1 (s.fetched c rest) = .next t := by
  unfold step at h
  split at h
  · cases h; exact .inl rfl
  · exact .inr (.inl ⟨_, _, h⟩)
  · split at h
    · next hd => exact .inr (.inr ⟨_, _, _, _, _, hd, h⟩)
    · cases h

/-- Settles O54: an idle step, an arrival and a decoded instruction, which is well-formed, each keep it. -/
theorem stepKeepsTheInvariant : Obligations.StepKeepsTheInvariant := by
  intro s t hs h
  obtain rfl | ⟨n, rest, ha⟩ | ⟨c, sp, bytes, rest, r, hd, he⟩ := step_next h
  · exact ⟨hs, rfl⟩
  · refine ⟨arrive_keepsInv (hs.fetched _ _) ha, ?_⟩
    obtain ⟨l, -, -, rfl⟩ := arrive_next ha
    rfl
  · exact ⟨exec_keepsInv (hs.fetched c rest) (decode_wellFormed hd) he, exec_config (s := s.fetched c rest) he⟩

/-! ## Reset -/

/-- Settles O6: every element of the reset state by evaluation. -/
theorem resetIsPowerOn : Obligations.ResetIsPowerOn := by
  refine ⟨rfl, rfl, by decide, fun l hl => ?_⟩
  obtain rfl := List.eq_of_mem_replicate hl
  exact ⟨rfl, rfl, rfl, fun _ => rfl, fun _ => rfl⟩

theorem defaultConfig_valid : Config.default.Valid := ⟨rfl, by decide, by decide, by decide, by decide⟩

theorem powerOn_inv (cfg : Config) {q : Nat} (hq : isPow2 q = true) (h2 : 2 ≤ q) : (Line.powerOn cfg q).Inv cfg where
  rb_bounded := nofun
  rb_configured := nofun
  busy_configured := fun h => absurd rfl h
  sentinels := nofun
  queue_size := ⟨hq, h2⟩
  queue := nofun
  assembler := nofun
  tx_whole := ⟨[], by simp, rfl, rfl⟩
  queue_sized := nofun

theorem powerOn_sound (cfg : Config) (q : Nat) {m : Interleave} (hm : m ≠ .anyOrder) : (Line.powerOn cfg q).Sound m where
  setting := hm
  busy_concurrent := fun _ => rfl
  rb_stored := nofun
  writing := ⟨fun h => absurd rfl h, nofun, nofun⟩

/-- Settles O7: a line at power-on is not set up, so the invariants ask little of it. -/
theorem resetMeetsInvariants : Obligations.ResetMeetsInvariants := by
  refine ⟨⟨defaultConfig_valid, fun l hl => ?_⟩, fun l hl => ?_⟩
  · obtain rfl := List.eq_of_mem_replicate hl
    exact powerOn_inv _ (by decide) (by decide)
  · obtain rfl := List.eq_of_mem_replicate hl
    exact powerOn_sound _ _ (by decide)

end Sys2Proof.Machine
end

section
/-! RB.WRITE by its micro-steps (20_memory.md R55): what each micro-step of context P does, and that with nothing between
them they are the indivisible write. -/

namespace Sys2Proof.Machine

/-! ## One micro-step of context P -/

/-- `w1` with no slot free: the byte is dropped. -/
theorem pMicro_w1_full {l : Line} {b : Byte} {rest : List Byte} (hb : l.p.busy = none) (hx : l.p.rx = b :: rest)
    (hf : l.rb.full = true) :
    pMicro l = (Line.raise (.overrun b) { l with p := l.p.withRx rest }).reply false := by
  simp [pMicro, hb, hx, hf]

/-- `w1` with a slot free: the write goes on to `w2`. -/
theorem pMicro_w1_room {l : Line} {b : Byte} {rest : List Byte} (hb : l.p.busy = none) (hx : l.p.rx = b :: rest)
    (hf : l.rb.full = false) :
    pMicro l = { l with p := (l.p.withRx rest).withBusy (some ⟨b, .w2⟩) } := by
  simp [pMicro, hb, hx, hf]

theorem pMicro_w2 {l : Line} {b : Byte} (h : l.p.busy = some ⟨b, .w2⟩) :
    pMicro l = { l with rb := l.rb.w2 b, p := l.p.withBusy (some ⟨b, .w3⟩) } := by
  simp [pMicro, h]

theorem pMicro_w3 {l : Line} {b : Byte} (h : l.p.busy = some ⟨b, .w3⟩) :
    pMicro l = { l with rb := l.rb.w3, p := l.p.withBusy (some ⟨b, .w4⟩) } := by
  simp [pMicro, h]

theorem pMicro_w4 {l : Line} {b : Byte} (h : l.p.busy = some ⟨b, .w4⟩) :
    pMicro l = Line.reply true { l with rb := l.rb.w4, p := l.p.withBusy none } := by
  simp [pMicro, h]

/-! ## The whole write -/

/-- 20_memory.md R58: a whole operation of context P begins when no RB.WRITE is in progress and a byte is there. -/
theorem pWhole_of_idle {l : Line} {b : Byte} {rest : List Byte} (hb : l.p.busy = none) (hx : l.p.rx = b :: rest) :
    pWhole l = (rbWrite b { l with p := l.p.withRx rest }).1 := by
  simp [pWhole, hb, hx]

theorem pWhole_full {l : Line} {b : Byte} {rest : List Byte} (hb : l.p.busy = none) (hx : l.p.rx = b :: rest)
    (hf : l.rb.full = true) :
    pWhole l = (Line.raise (.overrun b) { l with p := l.p.withRx rest }).reply false := by
  simp [pWhole_of_idle hb hx, rbWrite_full, hf]

theorem pWhole_room {l : Line} {b : Byte} {rest : List Byte} (hb : l.p.busy = none) (hx : l.p.rx = b :: rest)
    (hf : l.rb.full = false) :
    pWhole l = Line.reply true { l with rb := l.rb.store b, p := l.p.withRx rest } := by
  simp [pWhole_of_idle hb hx, rbWrite_room, hf]

/-- `w2`, `w3`, `w4` with nothing between them store the byte and end the write. -/
theorem pMicro_iterate_from_w2 {l : Line} {b : Byte} (h : l.p.busy = some ⟨b, .w2⟩) :
    pMicro^[3] l = Line.reply true { l with rb := l.rb.store b, p := l.p.withBusy none } := by
  calc pMicro^[3] l
      = pMicro (pMicro { l with rb := l.rb.w2 b, p := l.p.withBusy (some ⟨b, .w3⟩) }) :=
        congrArg pMicro^[2] (pMicro_w2 h)
    _ = pMicro { l with rb := (l.rb.w2 b).w3, p := l.p.withBusy (some ⟨b, .w4⟩) } :=
        congrArg pMicro (pMicro_w3 (b := b) rfl)
    _ = Line.reply true { l with rb := l.rb.store b, p := l.p.withBusy none } := pMicro_w4 (b := b) rfl

/-- A write begun and ended leaves none in progress, as before it. -/
theorem withBusy_withBusy_of_idle {p : Producer} (h : p.busy = none) (w : Option PendingWrite) :
    (p.withBusy w).withBusy none = p := by
  cases p; cases h; rfl

/-- `w1` to `w4` with nothing between them, on a ring buffer with a slot free. -/
theorem pMicro_iterate_from_w1 {l : Line} {b : Byte} {rest : List Byte} (hb : l.p.busy = none)
    (hx : l.p.rx = b :: rest) (hf : l.rb.full = false) :
    pMicro^[4] l = Line.reply true { l with rb := l.rb.store b, p := l.p.withRx rest } := by
  have hidle : (l.p.withRx rest).busy = none := hb
  rw [Function.iterate_succ_apply, pMicro_w1_room hb hx hf, pMicro_iterate_from_w2 (b := b) rfl,
    withBusy_withBusy_of_idle hidle]

/-- Settles O59: a refused write is its `w1` alone, any other is `w1` to `w4` in a row. -/
theorem microStepsTogetherAreTheWrite : Obligations.MicroStepsTogetherAreTheWrite := by
  intro l b rest hb hx
  refine ⟨fun hf => ?_, fun hf => ?_, pWhole_of_idle hb hx⟩
  · rw [pMicro_w1_full hb hx hf, pWhole_full hb hx hf]
  · rw [pMicro_iterate_from_w1 hb hx hf, pWhole_room hb hx hf]

end Sys2Proof.Machine
end

section
/-! Every well-formed instruction is read back whole from its encoding, whatever bytes follow
(30_encoding.md R68 to R84). -/

namespace Sys2Proof

@[simp] theorem except_ok_bind {α β : Type} (a : α) (f : α → Except Reject β) : (Except.ok a >>= f) = f a := rfl

@[simp] theorem except_pure {α : Type} (a : α) : (pure a : Except Reject α) = .ok a := rfl

/-! ## Operands -/

theorem takeNat_natBytesUpTo {fuel n : Nat} (h : n ≤ fuel) (rest : List Byte) :
    takeNat (natBytesUpTo fuel n ++ rest) = .ok (n, rest) := by
  induction fuel generalizing n with
  | zero =>
    obtain rfl := Nat.le_zero.mp h
    rfl
  | succ fuel ih =>
    by_cases hn : n < 128
    · have hb : n % 256 = n := Nat.mod_eq_of_lt (by omega)
      simp [natBytesUpTo, takeNat, hn, hb]
    · have hb : (128 + n % 128) % 256 = 128 + n % 128 := by omega
      have hpos : n / 128 ≠ 0 := by omega
      simp [natBytesUpTo, takeNat, hn, hb, ih (n := n / 128) (by omega), hpos]
      omega

@[simp] theorem takeNat_natBytes (n : Nat) (rest : List Byte) : takeNat (natBytes n ++ rest) = .ok (n, rest) :=
  takeNat_natBytesUpTo le_rfl rest

theorem takeBytes_append {n : Nat} {bs : List Byte} (h : bs.length = n) (rest : List Byte) :
    takeBytes n (bs ++ rest) = .ok (bs, rest) := by
  subst h
  simp [takeBytes]

@[simp] theorem takeByte_cons (b : Byte) (rest : List Byte) : takeByte (b :: rest) = .ok (b, rest) := rfl

@[simp] theorem takeBool_boolBytes (a : Bool) (rest : List Byte) : takeBool (boolBytes a ++ rest) = .ok (a, rest) := by
  cases a <;> rfl

@[simp] theorem takeSeq_seqBytes (p rest : List Byte) : takeSeq (seqBytes p ++ rest) = .ok (p, rest) := by
  simp [takeSeq, seqBytes, takeBytes_append]

/-- R68: an image of the right size is rebuilt from its bytes. -/
theorem ofBytes_bytes {cfg : Config} {p : Image} (h : p.Sized cfg) : Image.ofBytes cfg p.bytes = p := by
  obtain ⟨len, data, crc⟩ := p
  simp only [Image.Sized] at h
  have hdata : ((List.range cfg.MAX_PAYLOAD).map fun i => (data ++ [crc])[i]?.getD 0) = data := by
    refine List.ext_getElem (by simp [h]) fun i _ hi => ?_
    simp [List.getElem?_append_left hi, hi]
  have hcrc : (data ++ [crc])[cfg.MAX_PAYLOAD]?.getD 0 = crc := by simp [← h]
  simpa [Image.ofBytes, Image.bytes, Nat.add_comm 1] using And.intro hdata hcrc

theorem takeImage_bytes {cfg : Config} {p : Image} (hv : cfg.Valid) (h : p.Sized cfg) (rest : List Byte) :
    takeImage cfg (p.bytes ++ rest) = .ok (p, rest) := by
  have hlen : p.bytes.length = cfg.PACKET_DATA_LENGTH := by
    have := hv.image_size
    simp [Image.bytes, h]; omega
  simp [takeImage, takeBytes_append hlen, ofBytes_bytes h]

/-! ## Frames -/

/-- R76: the two sentinel frames differ in their marker. -/
theorem retxFrame_ne_ackFrame {cfg : Config} (hv : cfg.Valid) : retxFrame cfg ≠ ackFrame cfg := by
  have := hv.marks_differ.symm
  simp [retxFrame, ackFrame, retxImage, ackImage, Laws.RowMatch.wire_mkpkt_one, this]

/-- R72, R76: the row that the frame of `data` and `crc` belongs to. -/
def frameRow (cfg : Config) (line : Nat) (data : List Byte) (crc : Byte) : Instr :=
  if frameBytes data crc = ackFrame cfg then .frameAck line
  else if frameBytes data crc = retxFrame cfg then .frameRetx line
  else .frameData line data crc

/-- R72: a frame is read whole, as the row it belongs to. -/
theorem decodeFrame_frameBytes {cfg : Config} (hv : cfg.Valid) (line : Nat) {data : List Byte}
    (h : data.length ≤ cfg.MAX_PAYLOAD) (crc : Byte) (rest : List Byte) :
    decodeFrame cfg line (frameBytes data crc ++ rest) = .ok (frameRow cfg line data crc, rest) := by
  have hcount : (BitVec.ofNat 8 data.length : Byte).toNat = data.length := by
    have := hv.payload_le
    simp; omega
  have hbytes : frameBytes data crc ++ rest = BitVec.ofNat 8 data.length :: (data ++ crc :: rest) := by
    simp [frameBytes]
  have hdata := takeBytes_append (bs := data) rfl (crc :: rest)
  simp only [hbytes, decodeFrame, frameRow, hcount, Nat.not_lt.mpr h, if_false, hdata, takeByte_cons,
    except_ok_bind, except_pure]
  split_ifs <;> rfl

/-- R76: a sentinel frame is a marker between its count and a CRC byte. -/
theorem decodeFrame_ackFrame {cfg : Config} (hv : cfg.Valid) (line : Nat) (rest : List Byte) :
    decodeFrame cfg line (ackFrame cfg ++ rest) = .ok (.frameAck line, rest) := by
  have hframe : ackFrame cfg = frameBytes [cfg.ACK_MARK] (ackImage cfg).crc := Laws.RowMatch.wire_mkpkt_one cfg _
  rw [hframe, decodeFrame_frameBytes hv line (data := [cfg.ACK_MARK]) hv.payload_pos]
  simp [frameRow, ← hframe]

theorem decodeFrame_retxFrame {cfg : Config} (hv : cfg.Valid) (line : Nat) (rest : List Byte) :
    decodeFrame cfg line (retxFrame cfg ++ rest) = .ok (.frameRetx line, rest) := by
  have hframe : retxFrame cfg = frameBytes [cfg.RETX_MARK] (retxImage cfg).crc := Laws.RowMatch.wire_mkpkt_one cfg _
  rw [hframe, decodeFrame_frameBytes hv line (data := [cfg.RETX_MARK]) hv.payload_pos]
  simp [frameRow, ← hframe, retxFrame_ne_ackFrame hv]

theorem decodeFrame_frameData {cfg : Config} (hv : cfg.Valid) {line : Nat} {data : List Byte} {crc : Byte}
    (h : (Instr.frameData line data crc).wellFormed cfg = true) (rest : List Byte) :
    decodeFrame cfg line (frameBytes data crc ++ rest) = .ok (.frameData line data crc, rest) := by
  simp only [Instr.wellFormed, Bool.and_eq_true, decide_eq_true_eq, Bool.not_eq_true', beq_eq_false_iff_ne] at h
  obtain ⟨⟨hlen, hack⟩, hretx⟩ := h
  rw [decodeFrame_frameBytes hv line hlen]
  simp [frameRow, hack, hretx]

/-! ## Images and requests -/

theorem decodeImage_bytes {cfg : Config} (hv : cfg.Valid) {p : Image}
    (h : (Instr.packetImage p).wellFormed cfg = true) (rest : List Byte) :
    decodeImage cfg (p.bytes ++ rest) = .ok (.packetImage p, rest) := by
  simp only [Instr.wellFormed, Bool.and_eq_true, decide_eq_true_eq] at h
  obtain ⟨hsized, hlen⟩ := h
  simp [decodeImage, takeImage_bytes hv hsized, Nat.not_lt.mpr hlen]

/-- R81: a request is its code, then its operands. -/
theorem decodeRequest_cons (cfg : Config) {op : Byte} (h : op.toNat < 16) (bs : List Byte) :
    decodeRequest cfg (op :: bs) = decodeOperands cfg op.toNat bs := by
  simp [decodeRequest, Nat.not_le.mpr h]

/-- By the space of the instruction: a request is read by its code and its operands in order, a frame by its row, an image
by its bytes. -/
theorem decode_encode_append {cfg : Config} (hv : cfg.Valid) {i : Instr} (h : i.wellFormed cfg = true)
    (rest : List Byte) : decode cfg i.space (encode cfg i ++ rest) = .ok (i, rest) := by
  cases i with
  | frameData n data crc => exact decodeFrame_frameData hv h rest
  | frameAck n => exact decodeFrame_ackFrame hv n rest
  | frameRetx n => exact decodeFrame_retxFrame hv n rest
  | packetImage p => exact decodeImage_bytes hv h rest
  | pqEnq n p | txFrame n p =>
    have hp := takeImage_bytes hv (of_decide_eq_true h) rest
    simp [decode, encode, Instr.space, decodeRequest_cons, decodeOperands, hp]
  | rbSetup n c | rbWrite n b | rbRead n | rbIsEmpty n | crc8 bs k | asmStep n | asmPoll n | pqDeq n | pqAvail n
  | txSend n bs | lineInit n c a =>
    simp [decode, encode, Instr.space, decodeRequest_cons, decodeOperands]

end Sys2Proof
end

section
/-! One step of the machine: what it does for each kind of entry of the schedule (20_memory.md R62, R64). -/

namespace Sys2Proof.Machine

theorem onLine_noSuchLine {n : Nat} {s : State} (h : s.lines[n]? = none) (f : Line → LineResult) :
    onLine n f s = .refused .noSuchLine := by
  simp [onLine, h]

theorem onLine_of_refused {n : Nat} {f : Line → LineResult} {s : State} {l : Line} {e : Refusal}
    (hl : s.lines[n]? = some l) (hf : f l = .refused e) : onLine n f s = .refused e := by
  simp [onLine, hl, hf]

theorem step_idle {s : State} (h : s.schedule = []) : step s = .next s := by
  simp [step, h]

theorem step_arrive {s : State} {n : Nat} {rest : List Entry} (h : s.schedule = .arrive n :: rest) :
    step s = arrive n (s.fetched .producer rest) := by
  simp [step, h]

theorem step_issue {s : State} {c : Context} {sp : Space} {bytes : List Byte} {rest : List Entry}
    {r : Instr × List Byte} (h : s.schedule = .issue c sp bytes :: rest) (hd : decode s.config sp bytes = .ok r) :
    step s = exec r.1 (s.fetched c rest) := by
  simp [step, h, hd]

theorem arrive_noSuchLine {n : Nat} {s : State} (h : s.lines[n]? = none) : arrive n s = .refused .noSuchLine :=
  onLine_noSuchLine h _

theorem arrive_of_configured {n : Nat} {s : State} {l : Line} (hl : s.lines[n]? = some l)
    (hc : l.rb.configured = true) : arrive n s = .next (s.after n (pStep s.config.INTERLEAVE l) .unit) :=
  onLine_of_next hl (if_pos hc)

theorem arrive_notConfigured {n : Nat} {s : State} {l : Line} (hl : s.lines[n]? = some l)
    (hc : l.rb.configured = false) : arrive n s = .refused .notConfigured :=
  onLine_of_refused hl (by simp [hc])

/-- Settles O5: an issued entry by reading its instruction back from its encoding, an arrival by its line. -/
theorem stepExecutesTheScheduledInstruction : Obligations.StepExecutesTheScheduledInstruction := by
  refine ⟨fun s c i trailing rest hv hw h => ?_, fun s n rest h => ?_, fun s h => step_idle h⟩
  · exact step_issue h (decode_encode_append hv hw trailing)
  · rw [step_arrive h]
    exact ⟨fun hn => arrive_noSuchLine hn, fun l hl =>
      ⟨fun hc => arrive_notConfigured hl hc, fun hc => arrive_of_configured hl hc⟩⟩

end Sys2Proof.Machine
end

section
/-! What the decoder reads is encoded by exactly the bytes it was read from (30_encoding.md R68 to R84): for each operand
form, frame, image and request, the bytes are those of what was read, then the rest. -/

namespace Sys2Proof

/-! ## Operands -/

theorem natBytesUpTo_of_le {f g m : Nat} (hf : m ≤ f) (hg : m ≤ g) : natBytesUpTo f m = natBytesUpTo g m := by
  induction f generalizing g m with
  | zero =>
    obtain rfl := Nat.le_zero.mp hf
    cases g <;> rfl
  | succ f ih =>
    cases g with
    | zero =>
      obtain rfl := Nat.le_zero.mp hg
      rfl
    | succ g =>
      have htail : natBytesUpTo f (m / 128) = natBytesUpTo g (m / 128) := ih (by omega) (by omega)
      simp only [natBytesUpTo, htail]

/-- A natural number below 128 is its own only byte. -/
theorem natBytes_of_lt {n : Nat} (h : n < 128) : natBytes n = [BitVec.ofNat 8 n] := by
  cases n with
  | zero => rfl
  | succ n => exact if_pos h

/-- A larger one is seven bits, marked by the high bit, then the bytes of the quotient. -/
theorem natBytes_of_ge {n : Nat} (h : 128 ≤ n) :
    natBytes n = BitVec.ofNat 8 (128 + n % 128) :: natBytes (n / 128) := by
  obtain ⟨k, rfl⟩ : ∃ k, n = k + 1 := ⟨n - 1, by omega⟩
  have htail : natBytesUpTo k ((k + 1) / 128) = natBytes ((k + 1) / 128) := natBytesUpTo_of_le (by omega) le_rfl
  rw [natBytes, natBytesUpTo, if_neg (Nat.not_lt.mpr h), htail]

theorem takeNat_ok {bs : List Byte} {r : Nat × List Byte} (h : takeNat bs = .ok r) : natBytes r.1 ++ r.2 = bs := by
  induction bs generalizing r with
  | nil => cases h
  | cons b bs ih =>
    rw [takeNat] at h
    split_ifs at h with hb
    · cases h
      simp [natBytes_of_lt hb]
    · split at h
      · cases h
      · next m rest hm =>
        split_ifs at h with hpos
        cases h
        have hlt := b.isLt
        have hge : 128 ≤ b.toNat - 128 + 128 * m := by omega
        have hdiv : (b.toNat - 128 + 128 * m) / 128 = m := by omega
        have hmod : 128 + (b.toNat - 128 + 128 * m) % 128 = b.toNat := by omega
        rw [natBytes_of_ge hge, hdiv, hmod, BitVec.ofNat_toNat, BitVec.setWidth_eq, List.cons_append, ih hm]

theorem takeByte_ok {bs : List Byte} {r : Byte × List Byte} (h : takeByte bs = .ok r) : r.1 :: r.2 = bs := by
  cases bs with
  | nil => cases h
  | cons b bs => cases h; rfl

theorem takeBytes_ok {n : Nat} {bs : List Byte} {r : List Byte × List Byte} (h : takeBytes n bs = .ok r) :
    r.1 ++ r.2 = bs := by
  unfold takeBytes at h
  split_ifs at h
  cases h
  exact List.take_append_drop n bs

theorem takeBool_ok {bs : List Byte} {r : Bool × List Byte} (h : takeBool bs = .ok r) : boolBytes r.1 ++ r.2 = bs := by
  cases bs with
  | nil => cases h
  | cons b bs =>
    rw [takeBool] at h
    split_ifs at h with h0 h1
    · cases h; simp [boolBytes, h0]
    · cases h; simp [boolBytes, h1]

theorem takeSeq_ok {bs : List Byte} {r : List Byte × List Byte} (h : takeSeq bs = .ok r) : seqBytes r.1 ++ r.2 = bs := by
  obtain ⟨⟨n, bs'⟩, hn, hp⟩ := except_bind_ok h
  have hlen : r.1.length = n := takeBytes_length hp
  rw [seqBytes, hlen, List.append_assoc, takeBytes_ok hp, takeNat_ok hn]

/-- R68: as many bytes as an image has are the bytes of an image. -/
theorem exists_bytes_eq {cfg : Config} {bs : List Byte} (hv : cfg.Valid) (h : bs.length = cfg.PACKET_DATA_LENGTH) :
    ∃ p : Image, p.Sized cfg ∧ p.bytes = bs := by
  have hsize := hv.image_size
  obtain ⟨L, tail, rfl⟩ := List.exists_cons_of_length_pos (l := bs) (by omega)
  obtain rfl | ⟨data, crc, rfl⟩ := List.eq_nil_or_concat' tail
  · simp only [List.length_singleton] at h
    have hpos := hv.payload_pos
    omega
  · simp only [List.length_cons, List.length_append, List.length_nil] at h
    have hdata : data.length = cfg.MAX_PAYLOAD := by omega
    exact ⟨⟨L, data, crc⟩, hdata, by simp [Image.bytes]⟩

theorem bytes_ofBytes {cfg : Config} {bs : List Byte} (hv : cfg.Valid) (h : bs.length = cfg.PACKET_DATA_LENGTH) :
    (Image.ofBytes cfg bs).bytes = bs := by
  obtain ⟨p, hp, rfl⟩ := exists_bytes_eq hv h
  rw [ofBytes_bytes hp]

theorem takeImage_ok {cfg : Config} {bs : List Byte} {r : Image × List Byte} (hv : cfg.Valid)
    (h : takeImage cfg bs = .ok r) : r.1.bytes ++ r.2 = bs := by
  obtain ⟨a, ha, h⟩ := except_bind_ok h
  cases h
  rw [bytes_ofBytes hv (takeBytes_length ha), takeBytes_ok ha]

/-! ## The three spaces -/

theorem decodeOperands_ok {cfg : Config} {op : Nat} {bs : List Byte} {r : Instr × List Byte} (hv : cfg.Valid)
    (h : decodeOperands cfg op bs = .ok r) :
    r.1.space = .request ∧ encode cfg r.1 ++ r.2 = BitVec.ofNat 8 op :: bs := by
  unfold decodeOperands at h
  split at h
  -- a line alone
  case h_3 | h_4 | h_6 | h_7 | h_9 | h_10 =>
    obtain ⟨n, hn, h⟩ := except_bind_ok h
    cases h
    simp [Instr.space, encode, takeNat_ok hn]
  -- RB.SETUP
  case h_1 =>
    obtain ⟨n, hn, h⟩ := except_bind_ok h
    obtain ⟨c, hc, h⟩ := except_bind_ok h
    cases h
    simp [Instr.space, encode, takeNat_ok hc, takeNat_ok hn]
  -- RB.WRITE
  case h_2 =>
    obtain ⟨n, hn, h⟩ := except_bind_ok h
    obtain ⟨b, hb, h⟩ := except_bind_ok h
    cases h
    simp [Instr.space, encode, takeByte_ok hb, takeNat_ok hn]
  -- CRC8
  case h_5 =>
    obtain ⟨p, hp, h⟩ := except_bind_ok h
    obtain ⟨k, hk, h⟩ := except_bind_ok h
    cases h
    simp [Instr.space, encode, takeNat_ok hk, takeSeq_ok hp]
  -- PQ.ENQ, TX.FRAME
  case h_8 | h_11 =>
    obtain ⟨n, hn, h⟩ := except_bind_ok h
    obtain ⟨p, hp, h⟩ := except_bind_ok h
    cases h
    simp [Instr.space, encode, takeImage_ok hv hp, takeNat_ok hn]
  -- TX.SEND
  case h_12 =>
    obtain ⟨n, hn, h⟩ := except_bind_ok h
    obtain ⟨p, hp, h⟩ := except_bind_ok h
    cases h
    simp [Instr.space, encode, takeSeq_ok hp, takeNat_ok hn]
  -- LINE.INIT
  case h_13 =>
    obtain ⟨n, hn, h⟩ := except_bind_ok h
    obtain ⟨c, hc, h⟩ := except_bind_ok h
    obtain ⟨a, ha, h⟩ := except_bind_ok h
    cases h
    simp [Instr.space, encode, takeBool_ok ha, takeNat_ok hc, takeNat_ok hn]
  -- no operation
  case h_14 => cases h

theorem decodeRequest_ok {cfg : Config} {bs : List Byte} {r : Instr × List Byte} (hv : cfg.Valid)
    (h : decodeRequest cfg bs = .ok r) : r.1.space = .request ∧ encode cfg r.1 ++ r.2 = bs := by
  cases bs with
  | nil => cases h
  | cons op bs =>
    rw [decodeRequest] at h
    split_ifs at h
    simpa using decodeOperands_ok hv h

theorem decodeFrame_ok {cfg : Config} {line : Nat} {bs : List Byte} {r : Instr × List Byte}
    (h : decodeFrame cfg line bs = .ok r) : r.1.space = .wire line ∧ encode cfg r.1 ++ r.2 = bs := by
  cases bs with
  | nil => cases h
  | cons L bs =>
    rw [decodeFrame] at h
    split_ifs at h
    obtain ⟨⟨data, bs'⟩, hdata, h⟩ := except_bind_ok h
    obtain ⟨⟨crc, rest⟩, hcrc, h⟩ := except_bind_ok h
    have hlen : data.length = L.toNat := takeBytes_length hdata
    have hbytes : frameBytes data crc ++ rest = L :: bs := by
      simp [frameBytes, hlen, takeByte_ok hcrc, takeBytes_ok hdata]
    simp only at h
    split_ifs at h with hack hretx
    · cases h; exact ⟨rfl, (congrArg (· ++ rest) hack).symm.trans hbytes⟩
    · cases h; exact ⟨rfl, (congrArg (· ++ rest) hretx).symm.trans hbytes⟩
    · cases h; exact ⟨rfl, hbytes⟩

theorem decodeImage_ok {cfg : Config} {bs : List Byte} {r : Instr × List Byte} (hv : cfg.Valid)
    (h : decodeImage cfg bs = .ok r) : r.1.space = .image ∧ encode cfg r.1 ++ r.2 = bs := by
  obtain ⟨⟨p, rest⟩, hp, h⟩ := except_bind_ok h
  simp only at h
  split_ifs at h
  cases h
  exact ⟨rfl, takeImage_ok hv hp⟩

theorem decode_ok {cfg : Config} {sp : Space} {bs : List Byte} {r : Instr × List Byte} (hv : cfg.Valid)
    (h : decode cfg sp bs = .ok r) : r.1.space = sp ∧ encode cfg r.1 ++ r.2 = bs := by
  cases sp with
  | request => exact decodeRequest_ok hv h
  | wire line => exact decodeFrame_ok h
  | image => exact decodeImage_ok hv h

/-- Settles O1: the encoding of each instruction is read back operand by operand. -/
theorem decodeOfEncodeIsIdentity : Obligations.DecodeOfEncodeIsIdentity :=
  fun _ _ rest hv hw => decode_encode_append hv hw rest

/-- Settles O2: each operand form is read from exactly its own bytes, so each space is. -/
theorem encodeOfDecodeIsIdentity : Obligations.EncodeOfDecodeIsIdentity :=
  fun _ _ _ _ _ hv h => ⟨decode_wellFormed h, decode_ok hv h⟩

end Sys2Proof
end

section
/-! Images: their bytes determine them, their CRC does not cover its own byte, and what `mkpkt` and the rebuilding of a
frame write (30_encoding.md R68 to R77). -/

namespace Sys2Proof

/-! ## The bytes of an image -/

theorem bytes_injective {p q : Image} (h : p.bytes = q.bytes) : p = q := by
  obtain ⟨len, data, crc⟩ := p
  obtain ⟨len', data', crc'⟩ := q
  simpa [Image.bytes] using h

theorem bytes_inj {p q : Image} : p.bytes = q.bytes ↔ p = q := ⟨bytes_injective, congrArg Image.bytes⟩

theorem length_bytes {cfg : Config} {p : Image} (hv : cfg.Valid) (h : p.Sized cfg) :
    p.bytes.length = cfg.PACKET_DATA_LENGTH := by
  have hsize := hv.image_size
  simp only [Image.bytes, List.length_cons, List.length_append, List.length_nil, h]
  omega

/-- R71, R7: the CRC covers bytes before the CRC byte only. -/
theorem computedCrc_setCrc {cfg : Config} {p : Image} (hv : cfg.Valid) (h : p.Sized cfg) (c : Byte) :
    ({ p with crc := c } : Image).computedCrc cfg = p.computedCrc cfg := by
  have hspan : cfg.PACKET_LENGTH ≤ (p.length :: p.data).length := by
    have := hv.crc_span
    simp only [List.length_cons, h]; omega
  have htake (c : Byte) : ({ p with crc := c } : Image).bytes.take cfg.PACKET_LENGTH =
      (p.length :: p.data).take cfg.PACKET_LENGTH :=
    List.take_append_of_le_length (l₂ := [c]) hspan
  simp only [Image.computedCrc, crc8, htake c, htake p.crc]

/-! ## Building an image -/

/-- R75: `mkpkt` writes the CRC of the image it returns. -/
theorem mkpkt_crc {cfg : Config} {P : List Byte} (hv : cfg.Valid) (h : P.length ≤ cfg.MAX_PAYLOAD) :
    (mkpkt cfg P).crc = (mkpkt cfg P).computedCrc cfg :=
  computedCrc_setCrc (p := mkpkt cfg P) hv (mkpkt_sized h) 0

theorem mkpkt_bytes (cfg : Config) (P : List Byte) :
    (mkpkt cfg P).bytes = BitVec.ofNat 8 P.length ::
      (P ++ List.replicate (cfg.MAX_PAYLOAD - P.length) cfg.FILL ++ [(mkpkt cfg P).crc]) := rfl

/-- R74, R75: the image rebuilt from the frame of a payload, when its CRC byte is right, is the payload's image. -/
theorem fromWire_eq_mkpkt {cfg : Config} {P : List Byte} {c : Byte} (hv : cfg.Valid) (h : P.length ≤ cfg.MAX_PAYLOAD)
    (hc : (fromWire cfg P c).computedCrc cfg = c) : fromWire cfg P c = mkpkt cfg P := by
  have hcrc : (mkpkt cfg P).crc = c := (mkpkt_crc hv h).trans
    ((computedCrc_setCrc (p := fromWire cfg P c) hv (length_padded h) _).trans hc)
  rw [← hcrc]
  rfl

/-- The image of a payload that fits determines it: the count says how much of the data field is payload. -/
theorem mkpkt_injective {cfg : Config} {P Q : List Byte} (hv : cfg.Valid) (hP : P.length ≤ cfg.MAX_PAYLOAD)
    (hQ : Q.length ≤ cfg.MAX_PAYLOAD) (h : mkpkt cfg P = mkpkt cfg Q) : P = Q := by
  have hmax := hv.payload_le
  have hcount : BitVec.ofNat 8 P.length = BitVec.ofNat 8 Q.length := congrArg Image.length h
  have hdata : padded cfg P = padded cfg Q := congrArg Image.data h
  have hlen : P.length = Q.length := by
    have := congrArg BitVec.toNat hcount
    simp only [BitVec.toNat_ofNat] at this
    omega
  exact (List.append_inj hdata hlen).1

theorem mkpkt_inj {cfg : Config} {P Q : List Byte} (hv : cfg.Valid) (hP : P.length ≤ cfg.MAX_PAYLOAD)
    (hQ : Q.length ≤ cfg.MAX_PAYLOAD) : mkpkt cfg P = mkpkt cfg Q ↔ P = Q :=
  ⟨mkpkt_injective hv hP hQ, congrArg (mkpkt cfg)⟩

/-- Settles O22: the bytes by definition, the CRC because it does not cover its own byte; the example by evaluation. -/
theorem mkpktBuildsTheImage : Obligations.MkpktBuildsTheImage := by
  refine ⟨fun cfg P hv h => ⟨mkpkt_bytes cfg P, mkpkt_crc hv h, length_bytes hv (mkpkt_sized h)⟩, ?_⟩
  decide +kernel

/-- Settles O24: a sentinel is the image of its marker; the default bytes by evaluation. -/
theorem sentinelImagesAndFrames : Obligations.SentinelImagesAndFrames := by
  refine ⟨fun cfg hv => ?_, ?_⟩
  · exact ⟨mkpkt_bytes cfg _, mkpkt_bytes cfg _, mkpkt_crc hv hv.payload_pos, mkpkt_crc hv hv.payload_pos,
      Laws.RowMatch.wire_mkpkt_one cfg _, Laws.RowMatch.wire_mkpkt_one cfg _⟩
  · decide +kernel

/-! ## Classes -/

/-- R76, R77: the two sentinels differ in their payload. -/
theorem retxImage_ne_ackImage {cfg : Config} (hv : cfg.Valid) : retxImage cfg ≠ ackImage cfg := fun h =>
  hv.marks_differ.symm (List.singleton_inj.mp (mkpkt_injective hv hv.payload_pos hv.payload_pos h))

section
variable {cfg : Config} {retx ack p : Image}

theorem classify_eq_corrupt : classify cfg retx ack p = .corrupt ↔ p.computedCrc cfg ≠ p.crc := by
  unfold classify
  split_ifs <;> simp_all

theorem classify_eq_retx : classify cfg retx ack p = .retx ↔ p.computedCrc cfg = p.crc ∧ p = retx := by
  unfold classify
  split_ifs <;> simp_all

/-- The RETX sentinel is compared first, which the ACK sentinel is not. -/
theorem classify_eq_ack (hne : retx ≠ ack) :
    classify cfg retx ack p = .ack ↔ p.computedCrc cfg = p.crc ∧ p = ack := by
  unfold classify
  split_ifs with hcrc hretx hack
  · simp [hcrc]
  · simp [hretx, hne]
  · simpa [hack] using hcrc
  · simp [hack]

end

/-- Settles O25: images are compared as their bytes are; an image off the wire with a right CRC is the image of its data
bytes, which determines them. -/
theorem classOfAReceivedImage : Obligations.ClassOfAReceivedImage := by
  refine ⟨fun s p hv _ => ⟨classify s.config (retxImage s.config) (ackImage s.config) p, rfl, classify_eq_corrupt, ?_, ?_⟩,
    fun cfg data crc hv hlen hcrc => ?_⟩
  · rw [bytes_inj]
    exact classify_eq_retx
  · rw [bytes_inj]
    exact classify_eq_ack (retxImage_ne_ackImage hv)
  · rw [fromWire_eq_mkpkt hv hlen hcrc]
    exact ⟨mkpkt_inj hv hlen hv.payload_pos, mkpkt_inj hv hlen hv.payload_pos⟩

end Sys2Proof
end

section
/-! The pseudo-operations (30_encoding.md R86, 45_line_api.md R138 to R141) and the programs they stand for. -/

namespace Sys2Proof.Machine

theorem withCtx_self {s : State} {c : Context} (h : s.ctx = c) : { s with ctx := c } = s := by
  subst h
  rfl

/-- An operation of context K on a line depends on what is run on that line's state only. -/
theorem consumerOp_congr {n : Nat} {f g : Line → LineResult} {s : State} {l : Line} (hs : s.IssuesOn .consumer n l)
    (h : f l = g l) : consumerOp n f s = consumerOp n g s := by
  simp [consumerOp, requireContext_pass hs.1, onLine, hs.2, whenConfigured, h]

theorem consumerOp_ctx {n : Nat} {f : Line → LineResult} {s t : State} (h : consumerOp n f s = .next t) :
    t.ctx = .consumer := by
  obtain ⟨l, l', r, hs, -, -, rfl⟩ := consumerOp_next h
  exact hs.1

theorem runProgram_cons_next {c : Context} {i : Instr} {rest : List (Context × Instr)} {s t : State}
    {rs : List Response} (h : runProgram ((c, i) :: rest) s = .next (t, rs)) :
    ∃ s' rs', exec i { s with ctx := c } = .next s' ∧ runProgram rest s' = .next (t, rs') ∧ rs = s'.resp :: rs' := by
  rw [runProgram] at h
  split at h
  · cases h
  · cases h
  · next s' hi =>
    split at h
    · cases h
    · cases h
    · next t' rs' hrest =>
      cases h
      exact ⟨s', rs', hi, hrest, rfl⟩

/-- A program of two operations of context K completes as its second does after its first. -/
theorem runProgram_pair_next_iff {i j : Instr} {s t : State} {rs : List Response} (hs : s.ctx = .consumer)
    (hctx : ∀ s', exec i s = .next s' → s'.ctx = .consumer) :
    runProgram [(.consumer, i), (.consumer, j)] s = .next (t, rs) ↔
      ∃ s', exec i s = .next s' ∧ exec j s' = .next t ∧ rs = [s'.resp, t.resp] := by
  constructor
  · intro h
    obtain ⟨s', rs', hi, hrest, rfl⟩ := runProgram_cons_next h
    obtain ⟨t', rs'', hj, hend, rfl⟩ := runProgram_cons_next hrest
    cases hend
    rw [withCtx_self hs] at hi
    rw [withCtx_self (hctx s' hi)] at hj
    exact ⟨s', hi, hj, rfl⟩
  · rintro ⟨s', hi, hj, rfl⟩
    refine runProgram_cons_of_next ((congrArg (exec i) (withCtx_self hs)).trans hi) ?_
    exact runProgram_cons_of_next ((congrArg (exec j) (withCtx_self (hctx s' hi))).trans hj) rfl

/-- R138: READ_NEXT_PACKET completes when its poll does and its dequeue does after it. -/
theorem readNextPacket_next_iff {n : Nat} {s t : State} :
    readNextPacket n s = .next t ↔ ∃ s', exec (.asmPoll n) s = .next s' ∧ exec (.pqDeq n) s' = .next t := by
  change _ ↔ ∃ s', execAsmPoll n s = .next s' ∧ execPqDeq n s' = .next t
  unfold readNextPacket
  cases execAsmPoll n s <;> simp

/-- Settles O45: READ_NEXT_PACKET is the program of its two operations, SEND_ACK and SEND_RETX are TX.FRAME of the
sentinel their line holds, the others are their operation by definition. -/
theorem pseudoOperationsAreTheirExpansions : Obligations.PseudoOperationsAreTheirExpansions := by
  intro s n bytes l hs
  refine ⟨fun t => ?_, rfl, rfl, rfl, consumerOp_congr hs rfl, consumerOp_congr hs rfl⟩
  have hctx (s' : State) (h : exec (.asmPoll n) s = .next s') : s'.ctx = .consumer := consumerOp_ctx h
  refine readNextPacket_next_iff.trans ⟨?_, ?_⟩
  · rintro ⟨s', hpoll, hdeq⟩
    exact ⟨s'.resp, (runProgram_pair_next_iff hs.1 hctx).mpr ⟨s', hpoll, hdeq, rfl⟩⟩
  · rintro ⟨r, h⟩
    obtain ⟨s', hpoll, hdeq, -⟩ := (runProgram_pair_next_iff hs.1 hctx).mp h
    exact ⟨s', hpoll, hdeq⟩

end Sys2Proof.Machine
end

section
/-! Words of the opcode table (30_encoding.md R82) and the operation codes it reserves (R83). -/

namespace Sys2Proof.Machine

theorem decodeOperands_reserved (cfg : Config) {op : Nat} (h : 0xD ≤ op) (bs : List Byte) :
    decodeOperands cfg op bs = .error .noSuchOperation := by
  unfold decodeOperands
  split
  case h_14 => rfl
  all_goals omega

theorem step_undecodable {s : State} {c : Context} {sp : Space} {bytes : List Byte} {rest : List Entry} {e : Reject}
    (h : s.schedule = .issue c sp bytes :: rest) (hd : decode s.config sp bytes = .error e) :
    step s = .refused (refusalOf e) := by
  simp [step, h, hd]

/-- Settles O3: the request rows by definition; the frame and image rows by evaluating the sentinels' CRC. -/
theorem tableWordsDecodeToTheirRows : Obligations.TableWordsDecodeToTheirRows := by
  refine ⟨rfl, rfl, rfl, rfl, rfl, rfl, rfl, rfl, rfl, rfl, rfl, rfl, rfl, ?_⟩
  decide +kernel

/-- Settles O4: a reserved code is below 16, so it is read as a code, and the operands of none. -/
theorem reservedOperationCodesRefused : Obligations.ReservedOperationCodesRefused := by
  intro s c op bs rest hlow hhigh h
  have hdecode : decode s.config .request (op :: bs) = .error .noSuchOperation :=
    (decodeRequest_cons s.config (by omega) bs).trans (decodeOperands_reserved s.config hlow bs)
  exact step_undecodable h hdecode

end Sys2Proof.Machine
end

section
/-! The elements of a ring, oldest first: the live bytes of the ring buffer (10_state.md R19) and the packets queued
(R28) are both read this way. -/

namespace Sys2Proof.Machine

variable {α : Type}

/-- The `n` elements from index `rd` on, around a ring of `cap` places. -/
def Memory.ring (m : Memory α) (cap rd n : Nat) : List α :=
  (List.range n).filterMap fun k => m.read ((rd + k) &&& (cap - 1))

theorem RingBuffer.live_eq_ring (rb : RingBuffer) : rb.live = rb.buf.ring rb.cap rb.rd rb.count := rfl

/-- Fewer than `cap` places after the read index, each place is another element. -/
theorem index_injective {cap rd j k : Nat} (h : isPow2 cap = true) (hr : rd < cap) (hj : j < cap) (hk : k < cap)
    (he : (rd + j) &&& (cap - 1) = (rd + k) &&& (cap - 1)) : j = k := by
  rw [index_eq h hr hj, index_eq h hr hk] at he
  split_ifs at he <;> omega

theorem Memory.length_ring {m : Memory α} {cap rd n : Nat} (h : ∀ k < n, m.read ((rd + k) &&& (cap - 1)) ≠ none) :
    (m.ring cap rd n).length = n := by
  refine (List.filterMap_length_eq_length.mpr fun k hk => ?_).trans List.length_range
  exact Option.isSome_iff_ne_none.mpr (h k (List.mem_range.mp hk))

/-- What is stored at the first place after the `n` elements comes after them. -/
theorem Memory.ring_write {cap rd n : Nat} (h : isPow2 cap = true) (hr : rd < cap) (hn : n < cap) (m : Memory α) (v : α) :
    (m.write ((rd + n) &&& (cap - 1)) v).ring cap rd (n + 1) = m.ring cap rd n ++ [v] := by
  have hkept : ∀ k ∈ List.range n, (m.write ((rd + n) &&& (cap - 1)) v).read ((rd + k) &&& (cap - 1)) =
      m.read ((rd + k) &&& (cap - 1)) := by
    intro k hk
    have hkn : k < n := List.mem_range.mp hk
    exact Memory.read_write_other m v fun he => hkn.ne (index_injective h hr (hkn.trans hn) hn he)
  rw [Memory.ring, List.range_succ, List.filterMap_append, List.filterMap_congr hkept]
  simp [Memory.ring, Memory.read_write_same]

/-- The element at the read index is the first, the others are those from the advanced index on. -/
theorem Memory.ring_succ {cap rd : Nat} (h : isPow2 cap = true) (hr : rd < cap) {m : Memory α} {v : α}
    (hv : m.read rd = some v) (n : Nat) : m.ring cap rd (n + 1) = v :: m.ring cap (advance rd cap) n := by
  have hfirst : (rd + 0) &&& (cap - 1) = rd := by rw [mask_eq_mod h, Nat.add_zero, Nat.mod_eq_of_lt hr]
  simp only [Memory.ring, List.range_succ_eq_map, List.filterMap_cons, hfirst, hv, List.filterMap_map, index_advance h]
  rfl

end Sys2Proof.Machine
end

section
/-! The ring buffer between operations as a queue of bytes (40_ring_buffer.md R91, 10_state.md R19): its count and its
live bytes, what a whole write and a whole read make of them. -/

namespace Sys2Proof.Machine

/-! ## Count and live bytes -/

theorem RingBuffer.count_of_full {rb : RingBuffer} (h : rb.full = true) : rb.count = rb.cap := if_pos h

theorem RingBuffer.count_of_not_full {rb : RingBuffer} (h : rb.full = false) : rb.count = rb.distance := by
  simp [RingBuffer.count, RingBuffer.distance, h]

theorem RingBuffer.count_lt_of_not_full {rb : RingBuffer} (hb : rb.Bounded) (h : rb.full = false) :
    rb.count < rb.cap := by
  rw [RingBuffer.count_of_not_full h]
  exact RingBuffer.distance_lt hb

theorem RingBuffer.full_iff_count {rb : RingBuffer} (hb : rb.Bounded) : rb.full = true ↔ rb.count = rb.cap := by
  refine ⟨RingBuffer.count_of_full, fun h => ?_⟩
  by_contra hf
  exact (RingBuffer.count_lt_of_not_full hb (by simpa using hf)).ne h

theorem RingBuffer.not_full_iff_count {rb : RingBuffer} (hb : rb.Bounded) :
    rb.full = false ↔ rb.count < rb.cap := by
  refine ⟨RingBuffer.count_lt_of_not_full hb, fun h => ?_⟩
  rw [← Bool.not_eq_true, RingBuffer.full_iff_count hb]
  exact h.ne

theorem RingBuffer.count_le_cap {rb : RingBuffer} (hb : rb.Bounded) : rb.count ≤ rb.cap := by
  cases hf : rb.full with
  | true => exact (RingBuffer.count_of_full hf).le
  | false => exact (RingBuffer.count_lt_of_not_full hb hf).le

theorem RingBuffer.isEmptyForRead_iff {rb : RingBuffer} : rb.isEmptyForRead = true ↔ rb.rd = rb.wr ∧ rb.full = false := by
  simp [RingBuffer.isEmptyForRead]

theorem RingBuffer.isEmptyForRead_eq_false_iff {rb : RingBuffer} :
    rb.isEmptyForRead = false ↔ ¬ (rb.rd = rb.wr ∧ rb.full = false) := by
  rw [← RingBuffer.isEmptyForRead_iff, Bool.not_eq_true]

/-- 10_state.md R19: RB.READ's own test is that no byte is live. -/
theorem RingBuffer.isEmptyForRead_iff_count {rb : RingBuffer} (hb : rb.Bounded) :
    rb.isEmptyForRead = true ↔ rb.count = 0 := by
  rw [RingBuffer.isEmptyForRead_iff]
  cases hf : rb.full with
  | true => simpa [RingBuffer.count_of_full hf] using (isPow2_pos hb.cap_pow2).ne'
  | false =>
    have := hb.wr_lt
    have := hb.rd_lt
    simp only [RingBuffer.count_of_not_full hf, RingBuffer.distance_eq hb, and_true]
    split_ifs <;> omega

theorem RingBuffer.Stored.read_ne_none {rb : RingBuffer} (hb : rb.Bounded) (h : rb.Stored) {k : Nat}
    (hk : k < rb.count) : rb.buf.read ((rb.rd + k) &&& (rb.cap - 1)) ≠ none := by
  cases hf : rb.full with
  | true =>
    refine h.full_stored hf _ ?_
    rw [mask_eq_mod hb.cap_pow2]
    exact Nat.mod_lt _ (isPow2_pos hb.cap_pow2)
  | false => exact h.live_stored k (by rwa [← RingBuffer.count_of_not_full hf])

theorem RingBuffer.Stored.length_live {rb : RingBuffer} (hb : rb.Bounded) (h : rb.Stored) : rb.live.length = rb.count :=
  Memory.length_ring fun _ hk => h.read_ne_none hb hk

/-! ## A write into a buffer that is not full -/

/-- 40_ring_buffer.md R88: the byte at the write cursor, the cursor advanced, the flag as the two cursors then say. -/
theorem RingBuffer.store_of_not_full {rb : RingBuffer} (hf : rb.full = false) (b : Byte) :
    rb.store b = { rb with
      wr := advance rb.wr rb.cap
      full := decide (advance rb.wr rb.cap = rb.rd)
      buf := rb.buf.write rb.wr b } := by
  simp [RingBuffer.store, RingBuffer.w2, RingBuffer.w3, RingBuffer.w4, RingBuffer.fullAfterWrite, hf, beq_eq_decide]

section
variable {rb : RingBuffer} (hb : rb.Bounded) (hf : rb.full = false) (b : Byte)
include hb hf

theorem RingBuffer.count_store : (rb.store b).count = rb.count + 1 := by
  have hw := hb.wr_lt
  have hr := hb.rd_lt
  have hadv := advance_eq hb.cap_pow2 hw
  rw [RingBuffer.count_of_not_full hf, RingBuffer.distance_eq hb]
  by_cases heq : advance rb.wr rb.cap = rb.rd
  · have hfull : (rb.store b).full = true := by simp [RingBuffer.store_of_not_full hf, heq]
    rw [RingBuffer.count_of_full hfull]
    change rb.cap = _
    split_ifs at hadv ⊢ <;> omega
  · have hroom : (rb.store b).full = false := by simp [RingBuffer.store_of_not_full hf, heq]
    rw [RingBuffer.count_of_not_full hroom, RingBuffer.distance_eq (hb.store b)]
    change (if rb.rd ≤ advance rb.wr rb.cap then advance rb.wr rb.cap - rb.rd
      else advance rb.wr rb.cap + rb.cap - rb.rd) = _
    split_ifs at hadv ⊢ <;> omega

theorem RingBuffer.live_store : (rb.store b).live = rb.live ++ [b] := by
  have hwr : (rb.rd + rb.count) &&& (rb.cap - 1) = rb.wr := by
    rw [RingBuffer.count_of_not_full hf]
    exact index_ahead hb.cap_pow2 hb.wr_lt hb.rd_lt
  have hring := Memory.ring_write hb.cap_pow2 hb.rd_lt (RingBuffer.count_lt_of_not_full hb hf) rb.buf b
  rw [hwr, ← RingBuffer.count_store hb hf b] at hring
  exact hring

theorem RingBuffer.Stored.store (h : rb.Stored) : (rb.store b).Stored :=
  have hreach := h.reachable.store hb hf b
  ⟨hreach.live_stored, hreach.full_stored, fun hfull => by simpa [RingBuffer.store_of_not_full hf] using hfull⟩

end

/-! ## A read from a buffer that is not empty -/

theorem RingBuffer.count_r3_r4 {rb : RingBuffer} (hb : rb.Bounded) (h : rb.Stored) (hne : rb.isEmptyForRead = false) :
    rb.r3.r4.count + 1 = rb.count := by
  have hafter : rb.r3.r4.count = (rb.wr + rb.cap - advance rb.rd rb.cap) &&& (rb.cap - 1) :=
    RingBuffer.count_of_not_full rfl
  rw [hafter]
  cases hf : rb.full with
  | true =>
    have hr := hb.rd_lt
    have hadv := advance_eq hb.cap_pow2 hr
    rw [RingBuffer.count_of_full hf, h.full_equal hf, ahead_eq hb.cap_pow2 hr (advance_lt hb.cap_pow2)]
    split_ifs at hadv ⊢ <;> omega
  | false =>
    rw [RingBuffer.count_of_not_full hf]
    exact ahead_advance_read hb.cap_pow2 hb.wr_lt hb.rd_lt (by simpa [RingBuffer.isEmptyForRead, hf] using hne)

/-- The oldest live byte is the one at the read cursor, and the read leaves the others. -/
theorem RingBuffer.exists_live_eq_cons {rb : RingBuffer} (hb : rb.Bounded) (h : rb.Stored)
    (hne : rb.isEmptyForRead = false) : ∃ b, rb.buf.read rb.rd = some b ∧ rb.live = b :: rb.r3.r4.live := by
  have hcount := RingBuffer.count_r3_r4 hb h hne
  have hfirst := h.read_ne_none hb (k := 0) (by omega)
  rw [mask_eq_mod hb.cap_pow2, Nat.add_zero, Nat.mod_eq_of_lt hb.rd_lt] at hfirst
  obtain ⟨b, hread⟩ := Option.ne_none_iff_exists'.mp hfirst
  refine ⟨b, hread, ?_⟩
  rw [RingBuffer.live_eq_ring, ← hcount, Memory.ring_succ hb.cap_pow2 hb.rd_lt hread]
  rfl

theorem RingBuffer.Stored.r3_r4 {rb : RingBuffer} (hb : rb.Bounded) (h : rb.Stored) (hne : rb.isEmptyForRead = false) :
    rb.r3.r4.Stored :=
  (h.reachable.r3 hb hne).r4

end Sys2Proof.Machine
end

section
/-! RB.SETUP, RB.WRITE, RB.READ and RB.ISEMPTY on the line they name (40_ring_buffer.md R87 to R90). -/

namespace Sys2Proof.Machine

/-! ## RB.SETUP -/

section
variable {s : State} {n c : Nat} {l : Line} (hs : s.IssuesOn .init n l)
include hs

theorem exec_rbSetup_alreadyConfigured (h : l.rb.configured = true) :
    exec (.rbSetup n c) s = .refused .alreadyConfigured := by
  simp [exec, execRbSetup, requireContext_pass hs.1, hs.2, h]

theorem exec_rbSetup_configError (h : l.rb.configured = false) (hp : isPow2 c = false) :
    exec (.rbSetup n c) s = .next (s.configError .invalidCapacity) := by
  simp [exec, execRbSetup, requireContext_pass hs.1, hs.2, h, hp]

theorem exec_rbSetup_ok (h : l.rb.configured = false) (hp : isPow2 c = true) :
    exec (.rbSetup n c) s = .next (s.after n { l with rb := RingBuffer.setup c } .ok) := by
  simp [exec, execRbSetup, requireContext_pass hs.1, hs.2, h, hp, State.after]

end

/-! ## RB.WRITE -/

theorem rbWrite_p_rx (b : Byte) (l : Line) : (rbWrite b l).1.p.rx = l.p.rx := by
  cases h : l.rb.full with
  | true => simp [rbWrite_full h]
  | false => simp [rbWrite_room h]

theorem rbWrite_p_plan (b : Byte) (l : Line) : (rbWrite b l).1.p.plan = l.p.plan := by
  cases h : l.rb.full with
  | true => simp [rbWrite_full h]
  | false => simp [rbWrite_room h]

theorem rbWrite_rb_of_full (b : Byte) {l : Line} (h : l.rb.full = true) : (rbWrite b l).1.rb = l.rb := by
  simp [rbWrite_full h]

/-- The one element RB.WRITE stores to is at the write cursor, and it stores only when the buffer is not full. -/
theorem rbWrite_read_other (b : Byte) {l : Line} {a : Nat} (h : l.rb.full = true ∨ a ≠ l.rb.wr) :
    (rbWrite b l).1.rb.buf.read a = l.rb.buf.read a := by
  cases hf : l.rb.full with
  | true => rw [rbWrite_rb_of_full b hf]
  | false =>
    rw [rbWrite_room hf]
    exact Memory.read_write_other _ b (h.resolve_left (by simp [hf]))

/-- RB.WRITE never clears the flag. -/
theorem rbWrite_full_kept_or_set (b : Byte) (l : Line) :
    (rbWrite b l).1.rb.full = l.rb.full ∨ (rbWrite b l).1.rb.full = true := by
  cases hf : l.rb.full with
  | true => exact .inl (by rw [rbWrite_rb_of_full b hf, hf])
  | false => exact (Bool.eq_false_or_eq_true _).symm

theorem exec_rbWrite_next {s : State} {n : Nat} {b : Byte} {l l' : Line} {r : Bool} (hs : s.IssuesOn .producer n l)
    (hc : l.rb.configured = true) (hb : l.p.busy = none) (h : rbWrite b l = (l', r)) :
    exec (.rbWrite n b) s = .next (s.after n l' (.bool r)) := by
  rw [exec_rbWrite_of_issuesOn hs hc hb, h]

/-! ## RB.READ and RB.ISEMPTY -/

theorem rbRead_quiet_fault {m : Interleave} {l : Line} (hq : Quiet m l) (hc : l.rb.configured = true)
    (he : l.rb.isEmptyForRead = false) (hb : l.rb.buf.read l.rb.rd = none) :
    rbRead m l = .fault .readOfNoValue := by
  simp [rbRead, hc, gap_quiet hq, he, hb]

section
variable {s : State} {n : Nat} {l : Line} (hs : s.IssuesOn .consumer n l)
include hs

theorem exec_rbRead_next {l' : Line} {b : Option Byte} (h : rbRead s.config.INTERLEAVE l = .next (l', b)) :
    exec (.rbRead n) s = .next (s.after n l' (.optByte b)) := by
  simp [exec, execRbRead, requireContext_pass hs.1, onLine_of_next (l' := l') (r := .optByte b) hs.2, answering, h]

theorem exec_rbRead_fault {e : Fault} (h : rbRead s.config.INTERLEAVE l = .fault e) :
    exec (.rbRead n) s = .fault e := by
  simp [exec, execRbRead, requireContext_pass hs.1, onLine, hs.2, answering, h]

theorem exec_rbIsEmpty (hc : l.rb.configured = true) :
    exec (.rbIsEmpty n) s = .next (s.after n (gap s.config.INTERLEAVE l)
      (.bool (gap s.config.INTERLEAVE l).rb.cursorsEqual)) := by
  simp [exec, execRbIsEmpty, requireContext_pass hs.1, onLine, hs.2, rbIsEmpty, hc, State.after]

end

end Sys2Proof.Machine
end

section
/-! A line whose ring buffer is between operations, seen as the queue of its live bytes (20_memory.md R59): what a write
and a read do to it, and runs of them. -/

namespace Sys2Proof.Machine

/-- The ring buffer is set up and meets its invariants, and no step of context P falls inside an operation of context
K. -/
structure Line.QuietRing (m : Interleave) (l : Line) : Prop where
  configured : l.rb.configured = true
  bounded : l.rb.Bounded
  stored : l.rb.Stored
  quiet : Quiet m l

theorem Line.QuietRing.of_inv {cfg : Config} {m : Interleave} {l : Line} (hc : l.rb.configured = true) (h : l.Inv cfg)
    (hs : l.Sound m) (hq : Quiet m l) : l.QuietRing m :=
  ⟨hc, h.rb_bounded hc, hs.rb_stored hc, hq⟩

theorem RingBuffer.stored_setup {c : Nat} (h : isPow2 c = true) : (RingBuffer.setup c).Stored where
  live_stored := fun k hk => by simp [RingBuffer.setup, RingBuffer.distance, mask_eq_mod h] at hk
  full_stored := nofun
  full_equal := nofun

theorem RingBuffer.live_setup {c : Nat} (h : isPow2 c = true) : (RingBuffer.setup c).live = [] := by
  simp [RingBuffer.live, RingBuffer.count, RingBuffer.setup, mask_eq_mod h]

theorem Line.QuietRing.setup {m : Interleave} {l : Line} {c : Nat} (hq : Quiet m l) (h : isPow2 c = true) :
    Line.QuietRing m { l with rb := RingBuffer.setup c } :=
  ⟨rfl, RingBuffer.bounded_setup h, RingBuffer.stored_setup h, hq⟩

section
variable {m : Interleave} {l : Line} (h : l.QuietRing m)
include h

theorem Line.QuietRing.length_live : l.rb.live.length = l.rb.count := h.stored.length_live h.bounded

/-! ## A write -/

theorem Line.QuietRing.rbWrite_of_room (hroom : l.rb.live.length < l.rb.cap) (b : Byte) :
    ∃ l', rbWrite b l = (l', true) ∧ l'.rb.cap = l.rb.cap ∧ l'.rb.live = l.rb.live ++ [b] ∧ l'.QuietRing m := by
  have hf : l.rb.full = false := (RingBuffer.not_full_iff_count h.bounded).mpr (by rwa [← h.length_live])
  exact ⟨_, rbWrite_room hf, rfl, RingBuffer.live_store h.bounded hf b, h.configured, h.bounded.store b,
    h.stored.store h.bounded hf b, h.quiet⟩

theorem Line.QuietRing.rbWrite_of_full (hfull : l.rb.cap ≤ l.rb.live.length) (b : Byte) :
    ∃ l', rbWrite b l = (l', false) ∧ l'.rb = l.rb ∧ l'.QuietRing m := by
  have hcount : l.rb.count = l.rb.cap := Nat.le_antisymm (RingBuffer.count_le_cap h.bounded) (h.length_live ▸ hfull)
  have hf : l.rb.full = true := (RingBuffer.full_iff_count h.bounded).mpr hcount
  exact ⟨_, rbWrite_full hf, rfl, h.configured, h.bounded, h.stored, h.quiet⟩

/-! ## A read -/

theorem Line.QuietRing.isEmptyForRead_of_empty (hlive : l.rb.live = []) : l.rb.isEmptyForRead = true := by
  rw [RingBuffer.isEmptyForRead_iff_count h.bounded, ← h.length_live, hlive, List.length_nil]

theorem Line.QuietRing.cursorsEqual_of_empty (hlive : l.rb.live = []) : l.rb.cursorsEqual = true :=
  beq_iff_eq.mpr (RingBuffer.isEmptyForRead_iff.mp (h.isEmptyForRead_of_empty hlive)).1

theorem Line.QuietRing.rbRead_of_empty (hlive : l.rb.live = []) : rbRead m l = .next (l, none) :=
  rbRead_quiet_none h.quiet h.configured (h.isEmptyForRead_of_empty hlive)

theorem Line.QuietRing.rbRead_of_live {b : Byte} {bs : List Byte} (hlive : l.rb.live = b :: bs) :
    rbRead m l = .next ({ l with rb := l.rb.r3.r4 }, some b) ∧ l.rb.r3.r4.live = bs ∧
      Line.QuietRing m { l with rb := l.rb.r3.r4 } := by
  have hne : l.rb.isEmptyForRead = false := by
    rw [← Bool.not_eq_true, RingBuffer.isEmptyForRead_iff_count h.bounded, ← h.length_live, hlive]
    simp
  obtain ⟨b', hread, hcons⟩ := RingBuffer.exists_live_eq_cons h.bounded h.stored hne
  obtain ⟨rfl, rfl⟩ := List.cons.inj (hlive.symm.trans hcons)
  exact ⟨rbRead_quiet_some h.quiet h.configured hne hread, rfl,
    h.configured, h.bounded.r3.r4, h.stored.r3_r4 h.bounded hne, h.quiet⟩

end

end Sys2Proof.Machine
end

section
/-! Runs of ring buffer instructions: which bytes the buffer holds before and after, and what is answered
(20_memory.md R59). -/

namespace Sys2Proof.Machine

/-! ## Programs -/

theorem runProgram_append {p q : List (Context × Instr)} {s t u : State} {rs qs : List Response}
    (hp : runProgram p s = .next (t, rs)) (hq : runProgram q t = .next (u, qs)) :
    runProgram (p ++ q) s = .next (u, rs ++ qs) := by
  induction p generalizing s rs with
  | nil => cases hp; exact hq
  | cons x p ih =>
    obtain ⟨s', rs', hx, hrest, rfl⟩ := runProgram_cons_next hp
    exact runProgram_cons_of_next hx (ih hrest)

theorem runProgram_singleton {c : Context} {i : Instr} {s t : State} (h : exec i { s with ctx := c } = .next t) :
    runProgram [(c, i)] s = .next (t, [t.resp]) :=
  runProgram_cons_of_next h rfl

/-! ## One ring buffer -/

/-- Between operations the ring buffer of line `n`, of capacity `cap`, holds the bytes `bs`, oldest first. -/
def State.HoldsRing (s : State) (n cap : Nat) (bs : List Byte) : Prop :=
  s.LineIs n fun l => l.QuietRing s.config.INTERLEAVE ∧ l.rb.cap = cap ∧ l.rb.live = bs

/-- From every state whose ring buffer holds `bs` the program completes, answers `rs` and leaves `bs'` in the buffer. -/
def RingRuns (n cap : Nat) (p : List (Context × Instr)) (bs : List Byte) (rs : List Response) (bs' : List Byte) : Prop :=
  ∀ s : State, s.HoldsRing n cap bs → ∃ t, runProgram p s = .next (t, rs) ∧ t.HoldsRing n cap bs'

theorem State.HoldsRing.after {s : State} {n cap : Nat} {l l' : Line} {bs : List Byte} {r : Response}
    (hl : s.lines[n]? = some l) (h : l'.QuietRing s.config.INTERLEAVE) (hcap : l'.rb.cap = cap)
    (hlive : l'.rb.live = bs) : (s.after n l' r).HoldsRing n cap bs :=
  ⟨l', after_lines_self hl l' r, h, hcap, hlive⟩

section
variable {n cap : Nat} {bs : List Byte}

theorem RingRuns.nil : RingRuns n cap [] bs [] bs := fun s h => ⟨s, rfl, h⟩

theorem RingRuns.append {p q : List (Context × Instr)} {rs qs : List Response} {bs' bs'' : List Byte}
    (hp : RingRuns n cap p bs rs bs') (hq : RingRuns n cap q bs' qs bs'') :
    RingRuns n cap (p ++ q) bs (rs ++ qs) bs'' := by
  intro s hs
  obtain ⟨t, hrun, ht⟩ := hp s hs
  obtain ⟨u, hrun', hu⟩ := hq t ht
  exact ⟨u, runProgram_append hrun hrun', hu⟩

theorem ringRuns_rbWrite_accepted (h : bs.length < cap) (b : Byte) :
    RingRuns n cap [(.producer, .rbWrite n b)] bs [.bool true] (bs ++ [b]) := by
  rintro s ⟨l, hl, hring, rfl, rfl⟩
  obtain ⟨l', hwrite, hcap, hlive, hring'⟩ := hring.rbWrite_of_room h b
  have hexec := exec_rbWrite_next (s := { s with ctx := .producer }) ⟨rfl, hl⟩ hring.configured hring.quiet.1 hwrite
  exact ⟨_, runProgram_singleton hexec, .after hl hring' hcap hlive⟩

theorem ringRuns_rbWrite_refused (h : cap ≤ bs.length) (b : Byte) :
    RingRuns n cap [(.producer, .rbWrite n b)] bs [.bool false] bs := by
  rintro s ⟨l, hl, hring, rfl, rfl⟩
  obtain ⟨l', hwrite, hrb, hring'⟩ := hring.rbWrite_of_full h b
  have hexec := exec_rbWrite_next (s := { s with ctx := .producer }) ⟨rfl, hl⟩ hring.configured hring.quiet.1 hwrite
  exact ⟨_, runProgram_singleton hexec, .after hl hring' (by rw [hrb]) (by rw [hrb])⟩

theorem ringRuns_rbRead_byte (b : Byte) (bs : List Byte) :
    RingRuns n cap [(.consumer, .rbRead n)] (b :: bs) [.optByte (some b)] bs := by
  rintro s ⟨l, hl, hring, rfl, hlive⟩
  obtain ⟨hread, hrest, hring'⟩ := hring.rbRead_of_live hlive
  exact ⟨_, runProgram_singleton (exec_rbRead_next (s := { s with ctx := .consumer }) ⟨rfl, hl⟩ hread),
    .after hl hring' rfl hrest⟩

theorem ringRuns_rbRead_none : RingRuns n cap [(.consumer, .rbRead n)] [] [.optByte none] [] := by
  rintro s ⟨l, hl, hring, rfl, hlive⟩
  have hread := hring.rbRead_of_empty hlive
  exact ⟨_, runProgram_singleton (exec_rbRead_next (s := { s with ctx := .consumer }) ⟨rfl, hl⟩ hread),
    .after hl hring rfl hlive⟩

theorem ringRuns_rbIsEmpty_true : RingRuns n cap [(.consumer, .rbIsEmpty n)] [] [.bool true] [] := by
  rintro s ⟨l, hl, hring, rfl, hlive⟩
  have hexec := exec_rbIsEmpty (s := { s with ctx := .consumer }) ⟨rfl, hl⟩ hring.configured
  rw [gap_quiet hring.quiet, hring.cursorsEqual_of_empty hlive] at hexec
  exact ⟨_, runProgram_singleton hexec, .after hl hring rfl hlive⟩

/-! ## Runs -/

theorem ringRuns_rbWrites (ws : List Byte) (h : bs.length + ws.length ≤ cap) :
    RingRuns n cap (allIn .producer (ws.map (.rbWrite n))) bs (List.replicate ws.length (.bool true)) (bs ++ ws) := by
  induction ws generalizing bs with
  | nil => rw [List.append_nil]; exact .nil
  | cons b ws ih =>
    rw [List.length_cons] at h
    have hfirst := ringRuns_rbWrite_accepted (n := n) (cap := cap) (bs := bs) (by omega) b
    have hrest := ih (bs := bs ++ [b]) (by simp only [List.length_append, List.length_singleton]; omega)
    rw [List.append_assoc] at hrest
    exact hfirst.append hrest

theorem ringRuns_rbReads (bs : List Byte) :
    RingRuns n cap (List.replicate bs.length (.consumer, .rbRead n)) bs (bs.map fun b => .optByte (some b)) [] := by
  induction bs with
  | nil => exact .nil
  | cons b bs ih => exact (ringRuns_rbRead_byte b bs).append ih

/-- A write or a read, whatever the buffer holds: the bytes held and the one accepted, if any, are the one returned, if
any, and the bytes held after it. -/
theorem ringRuns_ringOp (bs : List Byte) (op : Option Byte) :
    ∃ r bs', RingRuns n cap [ringOp n op] bs [r] bs' ∧ bs ++ accepted [op] [r] = delivered [r] ++ bs' := by
  cases op with
  | some b =>
    obtain hroom | hfull := Nat.lt_or_ge bs.length cap
    · exact ⟨_, _, ringRuns_rbWrite_accepted hroom b, rfl⟩
    · exact ⟨_, _, ringRuns_rbWrite_refused hfull b, List.append_nil bs⟩
  | none =>
    cases bs with
    | nil => exact ⟨_, _, ringRuns_rbRead_none, rfl⟩
    | cons b bs => exact ⟨_, _, ringRuns_rbRead_byte b bs, List.append_nil (b :: bs)⟩

end

theorem accepted_cons (op : Option Byte) (ops : List (Option Byte)) (r : Response) (rs : List Response) :
    accepted (op :: ops) (r :: rs) = accepted [op] [r] ++ accepted ops rs := by
  cases op with
  | none => simp [accepted]
  | some b =>
    by_cases hr : r = .bool true
    · simp [accepted, hr]
    · simp [accepted, hr]

theorem delivered_cons (r : Response) (rs : List Response) : delivered (r :: rs) = delivered [r] ++ delivered rs := by
  cases r with
  | optByte b => cases b <;> rfl
  | _ => rfl

theorem ringRuns_ringOps {n cap : Nat} (ops : List (Option Byte)) (bs : List Byte) :
    ∃ rs bs', RingRuns n cap (ops.map (ringOp n)) bs rs bs' ∧ bs ++ accepted ops rs = delivered rs ++ bs' := by
  induction ops generalizing bs with
  | nil => exact ⟨[], bs, .nil, List.append_nil bs⟩
  | cons op ops ih =>
    obtain ⟨r, mid, hop, hfirst⟩ := ringRuns_ringOp (n := n) (cap := cap) bs op
    obtain ⟨rs, bs', hops, hrest⟩ := ih mid
    refine ⟨r :: rs, bs', hop.append hops, ?_⟩
    calc bs ++ accepted (op :: ops) (r :: rs)
        = delivered [r] ++ (mid ++ accepted ops rs) := by
          rw [accepted_cons, ← List.append_assoc, hfirst, List.append_assoc]
      _ = delivered (r :: rs) ++ bs' := by rw [hrest, delivered_cons r rs, List.append_assoc]

end Sys2Proof.Machine
end

section
/-! The obligations about the ring buffer (40_ring_buffer.md R87 to R95). -/

namespace Sys2Proof.Machine

/-- Settles O16: the live bytes are the queue; a write appends to them until they are `C`, a read takes the first. -/
theorem ringBufferIsABoundedQueue : Obligations.RingBufferIsABoundedQueue := by
  intro s n l hl hc hinv hsound hquiet
  have h : l.QuietRing s.config.INTERLEAVE := .of_inv hc hinv hsound hquiet
  have hlen := h.length_live
  refine ⟨hlen, RingBuffer.count_le_cap h.bounded, fun b hctx hroom => ?_, fun b hctx hfull => ?_,
    fun hctx hpos => ?_, fun hctx hzero => ?_⟩
  · obtain ⟨l', hwrite, hcap, hlive, h'⟩ := h.rbWrite_of_room (hlen ▸ hroom) b
    have hcount : l'.rb.count = l.rb.count + 1 := by
      rw [← h'.length_live, hlive, List.length_append, List.length_singleton, hlen]
    refine ⟨l', exec_rbWrite_next ⟨hctx, hl⟩ hc hquiet.1 hwrite, hlive, hcount, ?_, h'.bounded, h'.stored⟩
    rw [RingBuffer.full_iff_count h'.bounded, hcount, hcap]
  · obtain ⟨l', hwrite, hrb, -⟩ := h.rbWrite_of_full (hlen ▸ hfull.ge) b
    exact ⟨l', exec_rbWrite_next ⟨hctx, hl⟩ hc hquiet.1 hwrite, hrb⟩
  · obtain ⟨b, bs, hlive⟩ := List.exists_cons_of_length_pos (hlen ▸ hpos)
    obtain ⟨hread, rfl, h'⟩ := h.rbRead_of_live hlive
    have hcount : l.rb.r3.r4.count = l.rb.count - 1 := by
      have := congrArg List.length hlive
      rw [List.length_cons, hlen, h'.length_live] at this
      exact Nat.eq_sub_of_add_eq this.symm
    exact ⟨b, _, exec_rbRead_next ⟨hctx, hl⟩ hread, hlive, hcount, rfl, h'.bounded, h'.stored⟩
  · have hnil : l.rb.live = [] := List.eq_nil_of_length_eq_zero (hlen.trans hzero)
    exact exec_rbRead_next ⟨hctx, hl⟩ (h.rbRead_of_empty hnil)

/-- Settles O18: by induction over the operations, each of which keeps the order of the bytes. -/
theorem ringBufferDeliversInOrder : Obligations.RingBufferDeliversInOrder := by
  intro ops s n l hl hc hinv hsound hquiet
  obtain ⟨rs, bs', hruns, horder⟩ := ringRuns_ringOps (n := n) (cap := l.rb.cap) ops l.rb.live
  obtain ⟨t, hrun, l', hl', -, -, rfl⟩ := hruns s ⟨l, hl, .of_inv hc hinv hsound hquiet, rfl, rfl⟩
  exact ⟨t, rs, l', hrun, hl', horder⟩

/-- Settles O8: no bit is shared with the predecessor exactly for a power of two, zero excluded. -/
theorem isPow2HoldsExactlyOfPowersOfTwo : Obligations.IsPow2HoldsExactlyOfPowersOfTwo := by
  intro c
  refine Iff.trans ?_ Nat.ne_zero_and_sub_one_eq_zero_iff_isPowerOfTwo
  simp [isPow2, Nat.one_le_iff_ne_zero]

/-- Settles O9: for a power of two the mask is the remainder. -/
theorem cursorAdvancesModuloCapacity : Obligations.CursorAdvancesModuloCapacity := by
  intro C cursor hC _
  refine ⟨rfl, mask_eq_mod hC _, advance_lt hC, ?_⟩
  rw [advance, mask_eq_mod hC, Nat.sub_add_cancel (isPow2_pos hC), Nat.mod_self]

/-- Settles O12: what a whole write leaves of its line, and that it runs on that line only. -/
theorem rbWriteFrame : Obligations.RbWriteFrame := by
  intro s t n b h
  obtain ⟨l, l', r, hs, -, -, hf, rfl⟩ := producerOp_next h
  cases hf
  have hp := rbWrite_producerOnly b l
  refine ⟨fun k hk => by simp [hk.symm], rfl, rfl, rfl, rfl, l, (rbWrite b l).1, hs.2,
    after_lines_self hs.2 _ _, fun a ha => rbWrite_read_other b ha, hp.rb_rd, hp.rb_cap, hp.rb_configured,
    rbWrite_rb_of_full b, rbWrite_full_kept_or_set b l, hp.configured, hp.ackPkt, hp.retxPkt, hp.asm, hp.pq, hp.lastTx,
    hp.tx, rbWrite_p_rx b l, rbWrite_p_plan b l, rbWrite_p_busy b l⟩

/-- Settles O13: by whether RB.READ's emptiness test holds and whether the element holds a value. -/
theorem rbReadReturnsTheOldestByte : Obligations.RbReadReturnsTheOldestByte := by
  intro s n l hs hc hq
  refine ⟨fun he => ?_, fun hne b hb => ?_, fun hne hb => ?_, rfl⟩
  · exact exec_rbRead_next hs (rbRead_quiet_none hq hc (RingBuffer.isEmptyForRead_iff.mpr he))
  · exact exec_rbRead_next hs (rbRead_quiet_some hq hc (RingBuffer.isEmptyForRead_eq_false_iff.mpr hne) hb)
  · exact exec_rbRead_fault hs (rbRead_quiet_fault hq hc (RingBuffer.isEmptyForRead_eq_false_iff.mpr hne) hb)

/-- Settles O17: set-up leaves no byte; then `C` writes, one refused, `C` reads and one that finds nothing. -/
theorem ringBufferHoldsExactlyItsCapacity : Obligations.RingBufferHoldsExactlyItsCapacity := by
  rintro s n c l bs extra hl hc hquiet hpow rfl
  have hsetup := exec_rbSetup_ok (s := { s with ctx := .init }) ⟨rfl, hl⟩ hc hpow
  have hempty : (State.after { s with ctx := .init } n { l with rb := RingBuffer.setup bs.length } .ok).HoldsRing n
      bs.length [] := .after hl (.setup hquiet hpow) rfl (RingBuffer.live_setup hpow)
  have hruns := (((ringRuns_rbIsEmpty_true.append (ringRuns_rbWrites bs (by simp))).append
    (ringRuns_rbWrite_refused le_rfl extra)).append (ringRuns_rbReads bs)).append
      (ringRuns_rbRead_none (n := n) (cap := bs.length))
  obtain ⟨t, hrun, -⟩ := hruns _ hempty
  exact ⟨t, runProgram_cons_of_next hsetup hrun⟩

/-- Settles O10: by whether the ring buffer is set up and whether the capacity is a power of two. -/
theorem rbSetupSetsUpOrFails : Obligations.RbSetupSetsUpOrFails := by
  intro s n c l hs
  exact ⟨exec_rbSetup_alreadyConfigured hs, exec_rbSetup_configError hs, exec_rbSetup_ok hs, by decide, by decide, rfl⟩

/-- Settles O11: by whether the flag is set. -/
theorem rbWriteStoresOrDrops : Obligations.RbWriteStoresOrDrops := by
  intro s n b l hs hc hb
  refine ⟨fun hf => exec_rbWrite_next hs hc hb (rbWrite_full hf), fun hf => ?_, rfl⟩
  rw [exec_rbWrite_next hs hc hb (rbWrite_room hf), RingBuffer.store_of_not_full hf]
  rfl

/-- Settles O15: the answer by definition; when quiet the point before `e1` changes nothing. -/
theorem rbIsEmptyComparesTheCursors : Obligations.RbIsEmptyComparesTheCursors := by
  intro s n l hs hc
  have hexec := exec_rbIsEmpty hs hc
  refine ⟨hexec, fun hq => ?_, rfl⟩
  rw [gap_quiet hq] at hexec
  exact hexec

end Sys2Proof.Machine
end

section
/-! CRC-8: the byte-update step and what the fold over it keeps (41_crc8.md R97, R98, R101), for every polynomial and
seed where the rule does not need its own. -/

namespace Sys2Proof

variable {cfg : Config}

/-! ## One round -/

theorem byte_high_bit (c : Byte) : c.getLsbD 7 = true ↔ c.toNat / 128 = 1 := by
  have hc := c.isLt
  change c.toNat.testBit 7 = true ↔ _
  rw [Nat.testBit_eq_decide_div_mod_eq, decide_eq_true_iff]
  omega

theorem byte_shiftLeft_one (c : Byte) : c <<< 1 = BitVec.ofNat 8 (c.toNat * 2) := by
  apply BitVec.eq_of_toNat_eq
  simp [Nat.shiftLeft_eq]

/-- R97: the round in arithmetic. -/
theorem crc8Round_eq (cfg : Config) (c : Byte) : crc8Round cfg c =
    if c.toNat / 128 = 1 then BitVec.ofNat 8 (c.toNat * 2) ^^^ cfg.CRC_POLY else BitVec.ofNat 8 (c.toNat * 2) := by
  simp only [crc8Round, byte_high_bit, byte_shiftLeft_one]

/-- R101 (a): the polynomial is applied as often as the two high bits are set, and twice is not at all. -/
theorem crc8Round_xor (cfg : Config) (a b : Byte) :
    crc8Round cfg (a ^^^ b) = crc8Round cfg a ^^^ crc8Round cfg b := by
  simp only [crc8Round, BitVec.getLsbD_xor, BitVec.shiftLeft_xor_distrib]
  cases a.getLsbD 7 <;> cases b.getLsbD 7
  case false.false => rfl
  case false.true => exact BitVec.xor_assoc ..
  case true.false =>
    change a <<< 1 ^^^ b <<< 1 ^^^ cfg.CRC_POLY = a <<< 1 ^^^ cfg.CRC_POLY ^^^ b <<< 1
    ac_rfl
  case true.true =>
    have hpair : a <<< 1 ^^^ cfg.CRC_POLY ^^^ (b <<< 1 ^^^ cfg.CRC_POLY) =
        a <<< 1 ^^^ b <<< 1 ^^^ (cfg.CRC_POLY ^^^ cfg.CRC_POLY) := by ac_rfl
    simpa using hpair.symm

theorem crc8Round_zero (cfg : Config) : crc8Round cfg 0 = 0 := by simp [crc8Round]

/-- R101 (c): the shift leaves bit 0 clear, so the polynomial's constant term is there to see when it was applied. -/
theorem eq_zero_of_crc8Round_eq_zero (hodd : cfg.CRC_POLY.getLsbD 0 = true) {c : Byte} (h : crc8Round cfg c = 0) :
    c = 0 := by
  unfold crc8Round at h
  split at h
  · have hbit : (c <<< 1 ^^^ cfg.CRC_POLY).getLsbD 0 = false := by rw [h]; rfl
    rw [BitVec.getLsbD_xor, hodd] at hbit
    simp at hbit
  · next hlow =>
    rw [byte_high_bit] at hlow
    have htwice : c.toNat * 2 % 256 = 0 := by
      rw [byte_shiftLeft_one] at h
      exact congrArg BitVec.toNat h
    apply BitVec.eq_of_toNat_eq
    change c.toNat = 0
    omega

theorem crc8Round_injective (hodd : cfg.CRC_POLY.getLsbD 0 = true) : Function.Injective (crc8Round cfg) := by
  intro a b h
  apply BitVec.xor_eq_zero_iff.mp
  apply eq_zero_of_crc8Round_eq_zero hodd
  rw [crc8Round_xor, h]
  exact BitVec.xor_self

/-! ## The byte-update step -/

theorem crc8Upd_eq_iterate (cfg : Config) (c b : Byte) : crc8Upd cfg c b = (crc8Round cfg)^[8] (c ^^^ b) := rfl

theorem crc8Upd_xor (cfg : Config) (c c' b b' : Byte) :
    crc8Upd cfg (c ^^^ c') (b ^^^ b') = crc8Upd cfg c b ^^^ crc8Upd cfg c' b' := by
  have hswap : c ^^^ c' ^^^ (b ^^^ b') = c ^^^ b ^^^ (c' ^^^ b') := by ac_rfl
  simp only [crc8Upd_eq_iterate, hswap]
  exact Function.Semiconj₂.iterate (crc8Round_xor cfg) 8 _ _

/-- R101 (b): a running value that meets itself is cleared. -/
@[simp] theorem crc8Upd_self (cfg : Config) (c : Byte) : crc8Upd cfg c c = 0 := by
  rw [crc8Upd_eq_iterate, BitVec.xor_self]
  exact Function.iterate_fixed (crc8Round_zero cfg) 8

theorem crc8Upd_left_injective (hodd : cfg.CRC_POLY.getLsbD 0 = true) (b : Byte) :
    Function.Injective fun c => crc8Upd cfg c b :=
  fun _ _ h => (BitVec.xor_left_inj b).mp ((crc8Round_injective hodd).iterate 8 h)

theorem crc8Upd_right_injective (hodd : cfg.CRC_POLY.getLsbD 0 = true) (c : Byte) :
    Function.Injective (crc8Upd cfg c) :=
  fun _ _ h => (BitVec.xor_right_inj c).mp ((crc8Round_injective hodd).iterate 8 h)

/-! ## The fold over the bytes -/

/-- R101 (a), from any two running values. -/
theorem foldl_crc8Upd_xor (cfg : Config) (a b : List Byte) (c c' : Byte) (h : a.length = b.length) :
    (List.zipWith (· ^^^ ·) a b).foldl (crc8Upd cfg) (c ^^^ c') =
      a.foldl (crc8Upd cfg) c ^^^ b.foldl (crc8Upd cfg) c' := by
  induction a generalizing b c c' with
  | nil => cases b with
    | nil => rfl
    | cons y b => simp at h
  | cons x a ih => cases b with
    | nil => simp at h
    | cons y b =>
      rw [List.zipWith_cons_cons, List.foldl_cons, crc8Upd_xor]
      exact ih b _ _ (Nat.succ.inj h)

theorem foldl_crc8Upd_injective (hodd : cfg.CRC_POLY.getLsbD 0 = true) (bs : List Byte) :
    Function.Injective fun c => bs.foldl (crc8Upd cfg) c := by
  induction bs with
  | nil => exact Function.injective_id
  | cons b bs ih => exact ih.comp (crc8Upd_left_injective hodd b)

/-! ## CRC8 -/

@[simp] theorem crc8_zero (cfg : Config) (bs : List Byte) : crc8 cfg bs 0 = cfg.CRC_SEED := rfl

theorem crc8_length (cfg : Config) (bs : List Byte) :
    crc8 cfg bs bs.length = bs.foldl (crc8Upd cfg) cfg.CRC_SEED := by
  rw [crc8, List.take_length]

theorem crc8_succ (cfg : Config) {bs : List Byte} {k : Nat} (h : k < bs.length) :
    crc8 cfg bs (k + 1) = crc8Upd cfg (crc8 cfg bs k) bs[k] := by
  rw [crc8, List.take_succ_eq_append_getElem h, List.foldl_append]
  rfl

/-- R98: a leading zero leaves a seed of zero as it is. -/
theorem crc8_cons_zero (hseed : cfg.CRC_SEED = 0) (bs : List Byte) (k : Nat) :
    crc8 cfg (0 :: bs) (k + 1) = crc8 cfg bs k := by
  simp [crc8, hseed]

/-- R101 (d): bytes past the count do not matter. -/
theorem crc8_append (cfg : Config) {bs : List Byte} {k : Nat} (h : k ≤ bs.length) (tail : List Byte) :
    crc8 cfg (bs ++ tail) k = crc8 cfg bs k := by
  rw [crc8, List.take_append_of_le_length h, crc8]

/-- R101 (a). -/
theorem crc8_xor (hseed : cfg.CRC_SEED = 0) {a b : List Byte} (h : a.length = b.length) :
    crc8 cfg (List.zipWith (· ^^^ ·) a b) a.length = crc8 cfg a a.length ^^^ crc8 cfg b b.length := by
  have hlen : a.length = (List.zipWith (· ^^^ ·) a b).length := by simp [h]
  calc crc8 cfg (List.zipWith (· ^^^ ·) a b) a.length
      = (List.zipWith (· ^^^ ·) a b).foldl (crc8Upd cfg) (0 ^^^ 0) := by rw [hlen, crc8_length, hseed]; rfl
    _ = a.foldl (crc8Upd cfg) 0 ^^^ b.foldl (crc8Upd cfg) 0 := foldl_crc8Upd_xor cfg a b 0 0 h
    _ = crc8 cfg a a.length ^^^ crc8 cfg b b.length := by rw [crc8_length, crc8_length, hseed]

/-- R101 (b), for every polynomial and seed. -/
theorem crc8_append_crc8 (cfg : Config) (m : List Byte) :
    crc8 cfg (m ++ [crc8 cfg m m.length]) (m.length + 1) = 0 := by
  rw [crc8_succ cfg (by simp), crc8_append cfg le_rfl, List.getElem_concat_length rfl, crc8Upd_self]

/-- The counted bytes before a byte, that byte, and the counted bytes after it. -/
theorem crc8_set (cfg : Config) {m : List Byte} {i k : Nat} (hik : i < k) (h : i < m.length) (x : Byte) :
    crc8 cfg (m.set i x) k = ((m.take k).drop (i + 1)).foldl (crc8Upd cfg)
      (crc8Upd cfg (((m.take k).take i).foldl (crc8Upd cfg) cfg.CRC_SEED) x) := by
  have hcounted : i < (m.take k).length := by simp [hik, h]
  rw [crc8, List.take_set, List.set_eq_take_append_cons_drop, if_pos hcounted, List.foldl_append, List.foldl_cons]

/-- R101 (c), of any change of one counted byte: the running values differ after it and stay so. -/
theorem crc8_set_injective (hodd : cfg.CRC_POLY.getLsbD 0 = true) {m : List Byte} {i k : Nat} (hik : i < k)
    (h : i < m.length) : Function.Injective fun x => crc8 cfg (m.set i x) k := by
  intro x y hxy
  simp only [crc8_set cfg hik h] at hxy
  exact crc8Upd_right_injective hodd _ (foldl_crc8Upd_injective hodd _ hxy)

theorem crc8_set_ne (hodd : cfg.CRC_POLY.getLsbD 0 = true) {m : List Byte} {i k : Nat} {x : Byte} (hik : i < k)
    (h : i < m.length) (hx : x ≠ m[i]) : crc8 cfg (m.set i x) k ≠ crc8 cfg m k := by
  intro hsame
  refine hx (crc8_set_injective hodd hik h ?_)
  simpa using hsame

theorem xor_twoPow_ne {w bit : Nat} (h : bit < w) (b : BitVec w) : b ^^^ BitVec.twoPow w bit ≠ b := by
  intro hsame
  simpa [h] using congrArg (·.getLsbD bit) hsame

/-! ## The obligations -/

/-- Settles O19: the eight rounds are eight iterations of one, each the arithmetic one; the examples by evaluation. -/
theorem crc8UpdateIsEightRounds : Obligations.Crc8UpdateIsEightRounds := by
  refine ⟨fun cfg c b => ?_, by decide, by decide⟩
  rw [crc8Upd_eq_iterate, funext (crc8Round_eq cfg)]

/-- Settles O21: a round is additive, and injective because the polynomial has a constant term; the fold keeps both. -/
theorem crc8IsLinearAndSeesEverySingleBit : Obligations.Crc8IsLinearAndSeesEverySingleBit := by
  intro cfg hpoly hseed
  have hodd : cfg.CRC_POLY.getLsbD 0 = true := by rw [hpoly]; decide
  exact ⟨fun a b h => crc8_xor hseed h, crc8_append_crc8 cfg,
    fun m i bit h hbit => crc8_set_ne hodd h h (xor_twoPow_ne hbit m[i]), fun m tail => crc8_append cfg le_rfl tail⟩

/-- Settles O20: the meaning by definition, the function by the recursion of its fold; the values by evaluation. -/
theorem crc8AnswersThePureFunction : Obligations.Crc8AnswersThePureFunction := by
  refine ⟨fun s bytes length => ⟨fun h => if_pos h, fun h => if_neg h.not_ge, crc8_zero s.config bytes,
    crc8_succ s.config, fun hseed => crc8_cons_zero hseed bytes, rfl⟩, ?_⟩
  decide +kernel

end Sys2Proof
end

section
/-! One transition of the assembler, case by case (42_assembler.md R103 to R116), and ASM.STEP and ASM.POLL on the line
they name. -/

namespace Sys2Proof.Machine

/-! ## Operations of context K that answer or fault -/

theorem consumerOp_answering_of_next {α : Type} {n : Nat} {g : α → Response}
    {f : Line → Host.Outcome (Line × α) Fault Refusal} {s : State} {l l' : Line} {a : α}
    (hs : s.IssuesOn .consumer n l) (hc : l.configured = true) (hf : f l = .next (l', a)) :
    consumerOp n (fun l => answering g (f l)) s = .next (s.after n l' (g a)) :=
  consumerOp_of_next hs hc (by rw [hf]; rfl)

theorem consumerOp_answering_of_fault {α : Type} {n : Nat} {g : α → Response}
    {f : Line → Host.Outcome (Line × α) Fault Refusal} {s : State} {l : Line} {e : Fault}
    (hs : s.IssuesOn .consumer n l) (hc : l.configured = true) (hf : f l = .fault e) :
    consumerOp n (fun l => answering g (f l)) s = .fault e := by
  simp [consumerOp, requireContext_pass hs.1, onLine, hs.2, whenConfigured, hc, hf, answering]

/-- An operation of context K faults as it does on the line it names. -/
theorem consumerOp_answering_fault {α : Type} {n : Nat} {g : α → Response}
    {f : Line → Host.Outcome (Line × α) Fault Refusal} {s : State} {e : Fault}
    (h : consumerOp n (fun l => answering g (f l)) s = .fault e) :
    ∃ l, s.lines[n]? = some l ∧ l.configured = true ∧ f l = .fault e := by
  obtain ⟨l, hs, hc, hf⟩ := consumerOp_fault h
  exact ⟨l, hs.2, hc, answering_fault hf⟩

/-! ## Transitions that read a byte, or find none -/

/-- 42_assembler.md R103: the next transition reads a byte. In `AwaitingData` it does so as long as the counter is below
`length` and there is room for the byte (R107). -/
def Assembler.WantsByte (cfg : Config) (a : Assembler) : Prop :=
  match a.phase with
  | .awaitingLength => True
  | .awaitingData => a.cnt.toNat < a.pkt.length.toNat ∧ a.cnt.toNat < cfg.MAX_PAYLOAD
  | .awaitingCrc => True
  | .unrecognised => False

section
variable {cfg : Config} {l l' l'' : Line} {b : Byte}

theorem Assembler.wantsByte_awaitingLength {a : Assembler} (h : a.phase = .awaitingLength) : a.WantsByte cfg := by
  simp [Assembler.WantsByte, h]

theorem Assembler.wantsByte_awaitingData {a : Assembler} (h : a.phase = .awaitingData)
    (hlen : a.cnt.toNat < a.pkt.length.toNat) (hmax : a.cnt.toNat < cfg.MAX_PAYLOAD) : a.WantsByte cfg := by
  simp [Assembler.WantsByte, h, hlen, hmax]

theorem Assembler.wantsByte_awaitingCrc {a : Assembler} (h : a.phase = .awaitingCrc) : a.WantsByte cfg := by
  simp [Assembler.WantsByte, h]

theorem asmStep_of_none (hw : l.asm.WantsByte cfg) (hr : rbRead cfg.INTERLEAVE l = .next (l', none)) :
    asmStep cfg l = .next (l', .idle) := by
  cases hp : l.asm.phase with
  | awaitingLength => simp [asmStep, hp, hr]
  | awaitingData =>
    obtain ⟨hlen, hmax⟩ : l.asm.cnt.toNat < l.asm.pkt.length.toNat ∧ l.asm.cnt.toNat < cfg.MAX_PAYLOAD := by
      simpa [Assembler.WantsByte, hp] using hw
    simp [asmStep, hp, hlen, hmax, hr]
  | awaitingCrc => simp [asmStep, hp, hr]
  | unrecognised => simp [Assembler.WantsByte, hp] at hw

/-- R104, R105. -/
theorem asmStep_of_length (hp : l.asm.phase = .awaitingLength) (hr : rbRead cfg.INTERLEAVE l = .next (l', some b)) :
    asmStep cfg l = .next ({ l' with asm := l.asm.takeLength cfg b }, .progress) := by
  rw [← (rbRead_readOnly hr).asm]
  simp [asmStep, hp, hr]

/-- R106. -/
theorem asmStep_of_data (hp : l.asm.phase = .awaitingData) (hlen : l.asm.cnt.toNat < l.asm.pkt.length.toNat)
    (hmax : l.asm.cnt.toNat < cfg.MAX_PAYLOAD) (hr : rbRead cfg.INTERLEAVE l = .next (l', some b)) :
    asmStep cfg l = .next ({ l' with asm := l.asm.takeData b }, .progress) := by
  rw [← (rbRead_readOnly hr).asm]
  simp [asmStep, hp, hlen, hmax, hr]

/-- R108, R116. -/
theorem asmStep_of_crc (hp : l.asm.phase = .awaitingCrc) (hr : rbRead cfg.INTERLEAVE l = .next (l', some b))
    (hf : completeFrame cfg { l' with asm := l.asm.takeCrc b } = .next l'') :
    asmStep cfg l = .next (l''.restartAsm, .progress) := by
  rw [← (rbRead_readOnly hr).asm] at hf
  simp [asmStep, hp, hr, hf]

/-! ## Transitions that read none -/

/-- R106: the counter has reached `length`. -/
theorem asmStep_of_data_complete (hp : l.asm.phase = .awaitingData) (h : l.asm.pkt.length.toNat ≤ l.asm.cnt.toNat) :
    asmStep cfg l = .next ({ l with asm := l.asm.toPhase .awaitingCrc }, .progress) := by
  simp [asmStep, hp, h.not_gt]

/-- R107. -/
theorem asmStep_of_out_of_range (hp : l.asm.phase = .awaitingData) (hlen : l.asm.cnt.toNat < l.asm.pkt.length.toNat)
    (hmax : cfg.MAX_PAYLOAD ≤ l.asm.cnt.toNat) : asmStep cfg l = .fault .lengthOutOfRange := by
  simp [asmStep, hp, hlen, hmax.not_gt]

/-- R115. -/
theorem asmStep_of_unrecognised (hp : l.asm.phase = .unrecognised) :
    asmStep cfg l = .next ((l.raise .protocolDesync).restartAsm, .progress) := by
  simp [asmStep, hp]

end

/-! ## ASM.STEP -/

section
variable {s : State} {n : Nat} {l l' : Line} (hs : s.IssuesOn .consumer n l) (hc : l.configured = true)
include hs hc

theorem exec_asmStep_next {m : Mark} (h : asmStep s.config l = .next (l', m)) :
    exec (.asmStep n) s = .next (s.after n l' (.mark m)) :=
  consumerOp_answering_of_next hs hc h

theorem exec_asmStep_fault {e : Fault} (h : asmStep s.config l = .fault e) : exec (.asmStep n) s = .fault e :=
  consumerOp_answering_of_fault hs hc h

end

/-- Settles O27: the transition in `AwaitingLength`, by what the read answers. -/
theorem asmTakesALengthByte : Obligations.AsmTakesALengthByte := by
  intro s n l l' hs hc hp
  exact ⟨fun b hr => exec_asmStep_next hs hc (asmStep_of_length hp hr),
    fun hr => exec_asmStep_next hs hc (asmStep_of_none (Assembler.wantsByte_awaitingLength hp) hr)⟩

/-- Settles O28: the transition in `AwaitingData`, by where the counter stands and what the read answers. -/
theorem asmTakesADataByte : Obligations.AsmTakesADataByte := by
  intro s n l l' hs hc hp
  refine ⟨fun hlen hmax => ⟨fun b hr => ?_, fun hr => ?_⟩, fun hlen hmax => ?_, fun hdone => ?_, rfl⟩
  · rw [exec_asmStep_next hs hc (asmStep_of_data hp hlen hmax hr), Assembler.takeData, hp]
  · exact exec_asmStep_next hs hc (asmStep_of_none (Assembler.wantsByte_awaitingData hp hlen hmax) hr)
  · exact exec_asmStep_fault hs hc (asmStep_of_out_of_range hp hlen hmax)
  · exact exec_asmStep_next hs hc (asmStep_of_data_complete hp hdone)

/-- Settles O30: the transition in an unrecognised phase. -/
theorem asmRecoversFromAnUnrecognisedPhase : Obligations.AsmRecoversFromAnUnrecognisedPhase :=
  fun _ _ _ hs hc hp => exec_asmStep_next hs hc (asmStep_of_unrecognised hp)

end Sys2Proof.Machine
end

section
/-! Completing a frame (42_assembler.md R108 to R112): what is done with it by its class, and what that leaves alone. -/

namespace Sys2Proof.Machine

/-- 44_frame_tx.md R129: the line after the packet `p` has been sent and cached. -/
def Line.sent (p : Image) (l : Line) : Line := { l.byteSend (wire p) with lastTx := some p }

section
variable {cfg : Config} {l : Line}

/-- R76: a sentinel's `length` is 1, so TX.FRAME sends it. -/
theorem txFrame_sentinel (hv : cfg.Valid) {p : Image} {b : Byte} (hp : p = mkpkt cfg [b]) (l : Line) :
    txFrame cfg p l = .next (l.sent (mkpkt cfg [b])) := by
  subst hp
  exact txFrame_of_le l hv.payload_pos

/-! ## By class -/

section
variable (hv : cfg.Valid) (hack : l.ackPkt = ackImage cfg) (hretx : l.retxPkt = retxImage cfg)
include hv hretx

/-- R109. -/
theorem completeFrame_corrupt (h : l.asm.pkt.computedCrc cfg ≠ l.asm.pkt.crc) :
    completeFrame cfg l = .next ((l.raise .frameCorruption).sent (retxImage cfg)) := by
  have hclass : classify cfg l.retxPkt l.ackPkt l.asm.pkt = .corrupt := classify_eq_corrupt.mpr h
  rw [completeFrame, hclass]
  exact txFrame_sentinel hv hretx _

/-- R110. -/
theorem completeFrame_retx (h : l.asm.pkt.computedCrc cfg = l.asm.pkt.crc) (hp : l.asm.pkt = retxImage cfg) :
    completeFrame cfg l = .next (l.sent (retxImage cfg)) := by
  have hclass : classify cfg l.retxPkt l.ackPkt l.asm.pkt = .retx := classify_eq_retx.mpr ⟨h, hp.trans hretx.symm⟩
  rw [completeFrame, hclass]
  exact txFrame_sentinel hv hretx _

include hack

/-- R111. -/
theorem completeFrame_ack (h : l.asm.pkt.computedCrc cfg = l.asm.pkt.crc) (hp : l.asm.pkt = ackImage cfg) :
    completeFrame cfg l = .next l := by
  have hne : l.retxPkt ≠ l.ackPkt := by rw [hretx, hack]; exact retxImage_ne_ackImage hv
  have hclass : classify cfg l.retxPkt l.ackPkt l.asm.pkt = .ack := (classify_eq_ack hne).mpr ⟨h, hp.trans hack.symm⟩
  rw [completeFrame, hclass]

omit hv in
theorem classify_ordinary (h : l.asm.pkt.computedCrc cfg = l.asm.pkt.crc) (hr : l.asm.pkt ≠ retxImage cfg)
    (ha : l.asm.pkt ≠ ackImage cfg) : classify cfg l.retxPkt l.ackPkt l.asm.pkt = .ordinary := by
  simp [classify, h, hretx, hack, hr, ha]

/-- R112, with a slot free. -/
theorem completeFrame_queued (h : l.asm.pkt.computedCrc cfg = l.asm.pkt.crc) (hr : l.asm.pkt ≠ retxImage cfg)
    (ha : l.asm.pkt ≠ ackImage cfg) (hq : l.pq.isFull = false) :
    completeFrame cfg l = .next (Line.sent (ackImage cfg) { l with pq := l.pq.put l.asm.pkt }) := by
  rw [completeFrame, classify_ordinary hack hretx h hr ha, pqEnq_room hq]
  exact txFrame_sentinel hv hack _

omit hv in
/-- R112, with none. -/
theorem completeFrame_dropped (h : l.asm.pkt.computedCrc cfg = l.asm.pkt.crc) (hr : l.asm.pkt ≠ retxImage cfg)
    (ha : l.asm.pkt ≠ ackImage cfg) (hq : l.pq.isFull = true) :
    completeFrame cfg l = .next (l.raise .queueFull) := by
  rw [completeFrame, classify_ordinary hack hretx h hr ha, pqEnq_full hq]

theorem completeFrame_completes : ∃ l', completeFrame cfg l = .next l' := by
  by_cases h : l.asm.pkt.computedCrc cfg = l.asm.pkt.crc
  case neg => exact ⟨_, completeFrame_corrupt hv hretx h⟩
  by_cases hr : l.asm.pkt = retxImage cfg
  case pos => exact ⟨_, completeFrame_retx hv hretx h hr⟩
  by_cases ha : l.asm.pkt = ackImage cfg
  case pos => exact ⟨_, completeFrame_ack hv hack hretx h ha⟩
  cases hq : l.pq.isFull with
  | false => exact ⟨_, completeFrame_queued hv hack hretx h hr ha hq⟩
  | true => exact ⟨_, completeFrame_dropped hack hretx h hr ha hq⟩

end

end

theorem PacketQueue.isFull_iff {q : PacketQueue} : q.isFull = true ↔ (q.wr + 1) &&& (q.cap - 1) = q.rd := by
  simp [PacketQueue.isFull, advance]

theorem PacketQueue.isFull_eq_false_iff {q : PacketQueue} :
    q.isFull = false ↔ (q.wr + 1) &&& (q.cap - 1) ≠ q.rd := by
  simp [PacketQueue.isFull, advance]

/-- Settles O29: the CRC byte is taken, then the frame is completed by its class. -/
theorem asmCompletesAFrame : Obligations.AsmCompletesAFrame := by
  intro s n l l' hs hv hc hp hack hretx
  refine ⟨fun hr => exec_asmStep_next hs hc (asmStep_of_none (Assembler.wantsByte_awaitingCrc hp) hr), fun b hr => ?_⟩
  have hread := rbRead_readOnly hr
  have hack' := hread.ackPkt.trans hack
  have hretx' := hread.retxPkt.trans hretx
  have hstep {l''} (hf : completeFrame s.config { l' with asm := l.asm.takeCrc b } = .next l'') :
      exec (.asmStep n) s = .next (s.after n l''.restartAsm (.mark .progress)) :=
    exec_asmStep_next hs hc (asmStep_of_crc hp hr hf)
  simp only [← hread.tx, ← hread.pq]
  refine ⟨fun h => ?_, fun h hpkt => ?_, fun h hpkt => ?_, fun h hne hne' => ⟨fun hroom => ?_, fun hfull => ?_⟩⟩
  · exact hstep (completeFrame_corrupt hv hretx' h)
  · exact hstep (completeFrame_retx hv hretx' h hpkt)
  · exact hstep (completeFrame_ack hv hack' hretx' h hpkt)
  · exact hstep (completeFrame_queued hv hack' hretx' h hne hne' (PacketQueue.isFull_eq_false_iff.mpr hroom))
  · exact hstep (completeFrame_dropped hack' hretx' h hne hne' (PacketQueue.isFull_iff.mpr hfull))

end Sys2Proof.Machine
end

section
/-! RB.READ while context P runs (20_memory.md R57, 70_reset_and_hazards.md R173 (a)): what P's steps keep of a sound ring
buffer, that a read of one completes and leaves one, and that each byte read is one less to read. -/

namespace Sys2Proof.Machine

/-! ## The ring buffer at the micro-steps -/

/-- Storing what an element already holds changes no element. -/
theorem Memory.read_write_of_read {α : Type} {m : Memory α} {a : Nat} {v : α} (h : m.read a = some v) (x : Nat) :
    (m.write a v).read x = m.read x := by
  by_cases hx : x = a
  · rw [hx, Memory.read_write_same, h]
  · exact Memory.read_write_other m v hx

/-- A buffer whose cursors are equal and whose flag is clear holds nothing, so nothing need be stored. -/
theorem RingBuffer.stored_of_empty {rb : RingBuffer} (hb : rb.Bounded) (he : rb.rd = rb.wr) (hf : rb.full = false) :
    rb.Stored where
  live_stored := fun k hk => by
    rw [RingBuffer.distance_eq hb] at hk
    split_ifs at hk <;> omega
  full_stored := by simp [hf]
  full_equal := by simp [hf]

theorem RingBuffer.Stored.w2 {rb : RingBuffer} (h : rb.Stored) (b : Byte) : (rb.w2 b).Stored where
  live_stored := fun k hk => Memory.read_write_ne_none _ _ _ _ (h.live_stored k hk)
  full_stored := fun hf a ha => Memory.read_write_ne_none _ _ _ _ (h.full_stored hf a ha)
  full_equal := h.full_equal

section
variable {rb : RingBuffer} (hb : rb.Bounded) (h : rb.Stored) (hf : rb.full = false)
include hb h hf

/-- After `w3` of a write whose byte is stored the elements are those after the whole write. -/
theorem RingBuffer.Stored.w3_w4 (hbyte : rb.buf.read rb.wr ≠ none) : rb.w3.w4.Stored := by
  obtain ⟨b, hread⟩ := Option.ne_none_iff_exists'.mp hbyte
  have hstore := h.store hb hf b
  constructor
  case live_stored =>
    intro k hk
    rw [w4_buf, w3_buf, ← Memory.read_write_of_read hread]
    exact hstore.live_stored k hk
  case full_stored =>
    intro hfull a ha
    rw [w4_buf, w3_buf, ← Memory.read_write_of_read hread]
    exact hstore.full_stored hfull a ha
  case full_equal => exact hstore.full_equal

theorem RingBuffer.Stored.w3 (hbyte : rb.buf.read rb.wr ≠ none) : rb.w3.Stored :=
  ⟨(h.w3_w4 hb hf hbyte).live_stored, by simp [hf], by simp [hf]⟩

end

theorem RingBuffer.count_le_count_w4 {rb : RingBuffer} (hb : rb.Bounded) : rb.count ≤ rb.w4.count := by
  by_cases he : rb.wr = rb.rd
  · have hfull : rb.w4.full = true := by simp [RingBuffer.fullAfterWrite, he]
    rw [RingBuffer.count_of_full hfull]
    exact RingBuffer.count_le_cap hb
  · have hne : (rb.wr == rb.rd) = false := beq_eq_false_iff_ne.mpr he
    have hsame : rb.w4 = rb := by simp [RingBuffer.w4, RingBuffer.fullAfterWrite, hne]
    rw [hsame]

theorem RingBuffer.count_r4_le {rb : RingBuffer} (hb : rb.Bounded) : rb.r4.count ≤ rb.count := by
  cases hf : rb.full with
  | true =>
    rw [RingBuffer.count_of_full hf]
    exact RingBuffer.count_le_cap hb.r4
  | false => simp [RingBuffer.count, hf]

/-! ## A line whose ring buffer is sound -/

/-- The ring buffer is set up and meets its invariants, with context P's RB.WRITE between any two of its micro-steps. -/
structure Line.SoundRing (m : Interleave) (l : Line) : Prop where
  configured : l.rb.configured = true
  bounded : l.rb.Bounded
  sound : l.Sound m

theorem Line.SoundRing.stored {m : Interleave} {l : Line} (h : l.SoundRing m) : l.rb.Stored :=
  h.sound.rb_stored h.configured

theorem Line.Sound.of_rb_busy {m : Interleave} {l l' : Line} (h : l.Sound m) (hrb : l'.rb = l.rb)
    (hbusy : l'.p.busy = l.p.busy) : l'.Sound m := by
  obtain ⟨hset, hbc, hst, hnf, hbyte, hfill⟩ := h
  exact ⟨hset, hbusy ▸ hbc, hrb ▸ hst, by rwa [hrb, hbusy], by rwa [hrb, hbusy], by rwa [hrb, hbusy]⟩

theorem Line.SoundRing.of_rb_busy {m : Interleave} {l l' : Line} (h : l.SoundRing m) (hrb : l'.rb = l.rb)
    (hbusy : l'.p.busy = l.p.busy) : l'.SoundRing m :=
  ⟨hrb ▸ h.configured, hrb ▸ h.bounded, h.sound.of_rb_busy hrb hbusy⟩

/-- With no RB.WRITE in progress soundness is the ring buffer's own. -/
theorem Line.SoundRing.of_idle {m : Interleave} {l : Line} (hm : m ≠ .anyOrder) (hbusy : l.p.busy = none)
    (hc : l.rb.configured = true) (hb : l.rb.Bounded) (hs : l.rb.Stored) : l.SoundRing m :=
  ⟨hc, hb, hm, fun _ => hbusy, fun _ => hs, by simp [hbusy], by simp [hbusy], by simp [hbusy]⟩

/-! ## What is there to read -/

/-- An RB.WRITE is between `w3` and `w4`. -/
abbrev Line.FlagDue (l : Line) : Prop := l.p.busy.map (·.next) = some .w4

/-- The ring buffer as it is once the `w4` that is due, if one is, has been made. -/
def Line.flagged (l : Line) : RingBuffer := if l.FlagDue then l.rb.w4 else l.rb

/-- The bytes that wait to be read. -/
def Line.held (l : Line) : Nat := l.flagged.count

/-- The bytes that context P may still store: those of the RX source, and that of the write in progress before `w3`. -/
def Line.incoming (l : Line) : Nat :=
  l.p.rx.length + if l.p.busy = none ∨ l.FlagDue then 0 else 1

theorem Line.flagged_of_due {l : Line} (h : l.FlagDue) : l.flagged = l.rb.w4 := if_pos h

theorem Line.flagged_of_not_due {l : Line} (h : ¬ l.FlagDue) : l.flagged = l.rb := if_neg h

/-- What is stored once the flag is set was stored before it. -/
theorem Line.stored_of_flagged {l : Line} (h : l.flagged.Stored) (hf : l.rb.full = false) : l.rb.Stored := by
  refine ⟨?_, by simp [hf], by simp [hf]⟩
  by_cases hdue : l.FlagDue
  · exact (Line.flagged_of_due hdue ▸ h).live_stored
  · exact (Line.flagged_of_not_due hdue ▸ h).live_stored

theorem Line.flagged_of_idle {l : Line} (h : l.p.busy = none) : l.flagged = l.rb := if_neg (by simp [h])

section
variable {m : Interleave} {l : Line} (h : l.SoundRing m)
include h

theorem Line.SoundRing.flagged_bounded : l.flagged.Bounded := by
  unfold Line.flagged
  split_ifs
  · exact h.bounded.w4
  · exact h.bounded

/-- 70_reset_and_hazards.md R172: a write that has filled the buffer has stored every element before it says so. -/
theorem Line.SoundRing.flagged_stored : l.flagged.Stored := by
  by_cases hdue : l.FlagDue
  case neg => rw [Line.flagged_of_not_due hdue]; exact h.stored
  have hbusy : l.p.busy ≠ none := by intro hn; simp [Line.FlagDue, hn] at hdue
  have hfull : l.rb.w4.full = true → l.rb.wr = l.rb.rd := by
    simp [RingBuffer.fullAfterWrite, h.sound.writing.not_full hbusy]
  rw [Line.flagged_of_due hdue]
  exact ⟨h.stored.live_stored, fun hf => h.sound.writing.filled hdue (hfull hf), hfull⟩

theorem Line.SoundRing.count_le_held : l.rb.count ≤ l.held := by
  unfold Line.held Line.flagged
  split_ifs
  · exact RingBuffer.count_le_count_w4 h.bounded
  · exact le_rfl

theorem Line.SoundRing.held_le_cap : l.held ≤ l.rb.cap := by
  have hle := RingBuffer.count_le_cap h.flagged_bounded
  have hcap : l.flagged.cap = l.rb.cap := by unfold Line.flagged; split_ifs <;> rfl
  exact hcap ▸ hle

theorem Line.SoundRing.flagged_not_empty (hpos : 0 < l.held) : l.flagged.isEmptyForRead = false := by
  rw [← Bool.not_eq_true, RingBuffer.isEmptyForRead_iff_count h.flagged_bounded]
  exact hpos.ne'

/-- 70_reset_and_hazards.md R173 (a): the byte at the read cursor has been stored when there is one to read. -/
theorem Line.SoundRing.exists_read (hpos : 0 < l.held) : ∃ b, l.rb.buf.read l.rb.rd = some b := by
  obtain ⟨b, hread, -⟩ := RingBuffer.exists_live_eq_cons h.flagged_bounded h.flagged_stored (h.flagged_not_empty hpos)
  have hbuf : l.flagged.buf = l.rb.buf := by unfold Line.flagged; split_ifs <;> rfl
  have hrd : l.flagged.rd = l.rb.rd := by unfold Line.flagged; split_ifs <;> rfl
  rw [hbuf, hrd] at hread
  exact ⟨b, hread⟩

/-- While the flag is set no RB.WRITE is in progress. -/
theorem Line.SoundRing.idle_of_full (hf : l.rb.full = true) : l.p.busy = none := by
  by_contra hbusy
  simp [h.sound.writing.not_full hbusy] at hf

end

/-! ## Steps of context P -/

/-- A step of context P leaves a sound ring buffer, takes no byte from it and adds none that was not to come. -/
structure Produces (m : Interleave) (l l' : Line) : Prop where
  ring : l'.SoundRing m
  held : l.held ≤ l'.held
  total : l'.held + l'.incoming ≤ l.held + l.incoming

theorem Produces.refl {m : Interleave} {l : Line} (h : l.SoundRing m) : Produces m l l := ⟨h, le_rfl, le_rfl⟩

theorem Produces.trans {m : Interleave} {a b c : Line} (h : Produces m a b) (k : Produces m b c) : Produces m a c :=
  ⟨k.ring, h.held.trans k.held, k.total.trans h.total⟩

/-- Steps that store nothing. -/
theorem Produces.of_flagged {m : Interleave} {l l' : Line} (h : l'.SoundRing m) (hf : l'.flagged = l.flagged)
    (hi : l'.incoming ≤ l.incoming) : Produces m l l' := by
  have hheld : l'.held = l.held := congrArg RingBuffer.count hf
  exact ⟨h, hheld.ge, by omega⟩

theorem pMicro_no_byte {l : Line} (hbusy : l.p.busy = none) (hx : l.p.rx = []) : pMicro l = l := by
  simp [pMicro, hbusy, hx]

theorem pWhole_no_byte {l : Line} (hx : l.p.rx = []) : pWhole l = l := by
  simp [pWhole, hx]

/-- Everything a micro-step of context P can do: nothing; `w1` refused, `w1`, `w2`, `w3`, `w4`. -/
theorem pMicro_cases (l : Line) :
    (l.p.busy = none ∧ l.p.rx = [] ∧ pMicro l = l) ∨
    (∃ b rest, l.p.busy = none ∧ l.p.rx = b :: rest ∧ l.rb.full = true ∧
      pMicro l = (Line.raise (.overrun b) { l with p := l.p.withRx rest }).reply false) ∨
    (∃ b rest, l.p.busy = none ∧ l.p.rx = b :: rest ∧ l.rb.full = false ∧
      pMicro l = { l with p := (l.p.withRx rest).withBusy (some ⟨b, .w2⟩) }) ∨
    (∃ b, l.p.busy = some ⟨b, .w2⟩ ∧ pMicro l = { l with rb := l.rb.w2 b, p := l.p.withBusy (some ⟨b, .w3⟩) }) ∨
    (∃ b, l.p.busy = some ⟨b, .w3⟩ ∧ pMicro l = { l with rb := l.rb.w3, p := l.p.withBusy (some ⟨b, .w4⟩) }) ∨
    (∃ b, l.p.busy = some ⟨b, .w4⟩ ∧ pMicro l = Line.reply true { l with rb := l.rb.w4, p := l.p.withBusy none }) := by
  cases hbusy : l.p.busy with
  | none =>
    cases hx : l.p.rx with
    | nil => exact .inl ⟨rfl, rfl, pMicro_no_byte hbusy hx⟩
    | cons b rest =>
      cases hf : l.rb.full with
      | true => exact .inr (.inl ⟨b, rest, rfl, rfl, rfl, pMicro_w1_full hbusy hx hf⟩)
      | false => exact .inr (.inr (.inl ⟨b, rest, rfl, rfl, rfl, pMicro_w1_room hbusy hx hf⟩))
  | some w =>
    obtain ⟨b, next⟩ := w
    cases next with
    | w2 => exact .inr (.inr (.inr (.inl ⟨b, rfl, pMicro_w2 hbusy⟩)))
    | w3 => exact .inr (.inr (.inr (.inr (.inl ⟨b, rfl, pMicro_w3 hbusy⟩))))
    | w4 => exact .inr (.inr (.inr (.inr (.inr ⟨b, rfl, pMicro_w4 hbusy⟩))))

/-- `w3` makes the byte stored by `w2` one that waits, whether or not it fills the buffer. -/
theorem RingBuffer.count_w3_w4 {rb : RingBuffer} (hb : rb.Bounded) (hf : rb.full = false) :
    rb.w3.w4.count = rb.count + 1 :=
  RingBuffer.count_store hb hf 0

section
variable {l : Line} {b : Byte} {rest : List Byte} (h : l.SoundRing .concurrent)
include h

theorem Line.SoundRing.produces_w1 (hbusy : l.p.busy = none) (hx : l.p.rx = b :: rest) (hf : l.rb.full = false) :
    Produces .concurrent l { l with p := (l.p.withRx rest).withBusy (some ⟨b, .w2⟩) } := by
  refine .of_flagged ?_ (by simp [Line.flagged, hbusy]) (by simp [Line.incoming, hbusy, hx])
  exact ⟨h.configured, h.bounded, h.sound.setting, by simp, fun _ => h.stored, fun _ => hf, by simp, by simp⟩

theorem Line.SoundRing.produces_w2 (hbusy : l.p.busy = some ⟨b, .w2⟩) :
    Produces .concurrent l { l with rb := l.rb.w2 b, p := l.p.withBusy (some ⟨b, .w3⟩) } := by
  have hf : l.rb.full = false := h.sound.writing.not_full (by simp [hbusy])
  have hheld : Line.held { l with rb := l.rb.w2 b, p := l.p.withBusy (some ⟨b, .w3⟩) } = l.held := by
    simp [Line.held, Line.flagged, hbusy, RingBuffer.count]
  refine ⟨⟨h.configured, h.bounded.w2 b, h.sound.setting, by simp, fun _ => h.stored.w2 b, fun _ => hf, fun _ => ?_,
    by simp⟩, hheld.ge, by simp [hheld, Line.incoming, hbusy]⟩
  simp [Memory.read_write_same]

theorem Line.SoundRing.produces_w3 (hbusy : l.p.busy = some ⟨b, .w3⟩) :
    Produces .concurrent l { l with rb := l.rb.w3, p := l.p.withBusy (some ⟨b, .w4⟩) } := by
  have hf : l.rb.full = false := h.sound.writing.not_full (by simp [hbusy])
  have hbyte : l.rb.buf.read l.rb.wr ≠ none := h.sound.writing.byte_stored (by simp [hbusy])
  have hafter := h.stored.w3_w4 h.bounded hf hbyte
  have hheld : Line.held { l with rb := l.rb.w3, p := l.p.withBusy (some ⟨b, .w4⟩) } = l.held + 1 := by
    simp [Line.held, Line.flagged, hbusy, RingBuffer.count_w3_w4 h.bounded hf]
  refine ⟨⟨h.configured, h.bounded.w3, h.sound.setting, by simp, fun _ => h.stored.w3 h.bounded hf hbyte, fun _ => hf,
    by simp, fun _ heq => ?_⟩, by omega, by simp [hheld, Line.incoming, hbusy]; omega⟩
  exact hafter.full_stored (by simpa [RingBuffer.fullAfterWrite] using .inl heq)

theorem Line.SoundRing.produces_w4 (hbusy : l.p.busy = some ⟨b, .w4⟩) :
    Produces .concurrent l (Line.reply true { l with rb := l.rb.w4, p := l.p.withBusy none }) := by
  have hflag : l.flagged = l.rb.w4 := Line.flagged_of_due (by simp [Line.FlagDue, hbusy])
  refine .of_flagged (.of_idle h.sound.setting rfl h.configured h.bounded.w4 (hflag ▸ h.flagged_stored)) hflag.symm ?_
  simp [Line.incoming, hbusy]

end

/-- A refused write takes a byte of the RX source and stores none. -/
theorem Line.SoundRing.produces_refused {m : Interleave} {l : Line} {b : Byte} {rest : List Byte} (h : l.SoundRing m)
    (hbusy : l.p.busy = none) (hx : l.p.rx = b :: rest) :
    Produces m l ((Line.raise (.overrun b) { l with p := l.p.withRx rest }).reply false) :=
  .of_flagged (h.of_rb_busy rfl rfl) rfl (by simp [Line.incoming, hbusy, hx])

theorem pMicro_produces {l : Line} (h : l.SoundRing .concurrent) : Produces .concurrent l (pMicro l) := by
  obtain ⟨-, -, e⟩ | ⟨b, rest, hbusy, hx, -, e⟩ | ⟨b, rest, hbusy, hx, hf, e⟩ | ⟨b, hbusy, e⟩ | ⟨b, hbusy, e⟩ |
    ⟨b, hbusy, e⟩ := pMicro_cases l
  · rw [e]; exact .refl h
  · rw [e]; exact h.produces_refused hbusy hx
  · rw [e]; exact h.produces_w1 hbusy hx hf
  · rw [e]; exact h.produces_w2 hbusy
  · rw [e]; exact h.produces_w3 hbusy
  · rw [e]; exact h.produces_w4 hbusy

theorem pWhole_produces {m : Interleave} {l : Line} (h : l.SoundRing m) (hm : m ≠ .concurrent) :
    Produces m l (pWhole l) := by
  have hbusy := h.sound.busy_concurrent hm
  cases hx : l.p.rx with
  | nil => rw [pWhole_no_byte hx]; exact .refl h
  | cons b rest =>
    cases hf : l.rb.full with
    | true => rw [pWhole_full hbusy hx hf]; exact h.produces_refused hbusy hx
    | false =>
      have hcount := RingBuffer.count_store h.bounded hf b
      rw [pWhole_room hbusy hx hf]
      refine ⟨.of_idle h.sound.setting hbusy h.configured (h.bounded.store b) (h.stored.store h.bounded hf b), ?_, ?_⟩
      · simp [Line.held, Line.flagged, hbusy, hcount]
      · simp [Line.held, Line.flagged, Line.incoming, hbusy, hcount, hx]; omega

theorem pStep_produces {m : Interleave} {l : Line} (h : l.SoundRing m) : Produces m l (pStep m l) := by
  cases m with
  | preempt => exact pWhole_produces h (by decide)
  | concurrent => exact pMicro_produces h
  | atomic => exact pWhole_produces h (by decide)
  | anyOrder => exact absurd rfl h.sound.setting

theorem gap_produces {m : Interleave} {l : Line} (h : l.SoundRing m) : Produces m l (gap m l) :=
  gap_keeps (I := Produces m l) (fun _ _ k => ⟨k.ring.of_rb_busy rfl rfl, k.held, k.total⟩)
    (fun _ k => k.trans (pStep_produces k.ring)) (.refl h)

/-! ## From `r3` to `r4` -/

/-- While the flag is set, context P's writes are refused: the ring buffer stays. -/
structure Refuses (l l' : Line) : Prop where
  rb : l'.rb = l.rb
  idle : l'.p.busy = none
  incoming : l'.incoming ≤ l.incoming

theorem Refuses.of_refused {l : Line} {b : Byte} {rest : List Byte} (hbusy : l.p.busy = none) (hx : l.p.rx = b :: rest) :
    Refuses l ((Line.raise (.overrun b) { l with p := l.p.withRx rest }).reply false) :=
  ⟨rfl, hbusy, by simp [Line.incoming, hbusy, hx]⟩

theorem pMicro_refuses {l : Line} (hf : l.rb.full = true) (hbusy : l.p.busy = none) : Refuses l (pMicro l) := by
  cases hx : l.p.rx with
  | nil => rw [pMicro_no_byte hbusy hx]; exact ⟨rfl, hbusy, le_rfl⟩
  | cons b rest => rw [pMicro_w1_full hbusy hx hf]; exact .of_refused hbusy hx

theorem pWhole_refuses {l : Line} (hf : l.rb.full = true) (hbusy : l.p.busy = none) : Refuses l (pWhole l) := by
  cases hx : l.p.rx with
  | nil => rw [pWhole_no_byte hx]; exact ⟨rfl, hbusy, le_rfl⟩
  | cons b rest => rw [pWhole_full hbusy hx hf]; exact .of_refused hbusy hx

theorem pStep_refuses (m : Interleave) {l : Line} (hf : l.rb.full = true) (hbusy : l.p.busy = none) :
    Refuses l (pStep m l) := by
  cases m with
  | preempt => exact pWhole_refuses hf hbusy
  | concurrent => exact pMicro_refuses hf hbusy
  | atomic => exact pWhole_refuses hf hbusy
  | anyOrder => exact pMicro_refuses hf hbusy

theorem Refuses.trans {a b c : Line} (h : Refuses a b) (k : Refuses b c) : Refuses a c :=
  ⟨k.rb.trans h.rb, k.idle, k.incoming.trans h.incoming⟩

theorem gap_refuses {m : Interleave} {l : Line} (hf : l.rb.full = true) (hbusy : l.p.busy = none) :
    Refuses l (gap m l) :=
  gap_keeps (I := Refuses l) (fun _ _ k => ⟨k.rb, k.idle, k.incoming⟩)
    (fun _ k => k.trans (pStep_refuses m (k.rb ▸ hf) k.idle)) ⟨rfl, hbusy, le_rfl⟩

/-- 70_reset_and_hazards.md R173: K's `r3` has taken the only byte, whose `w4` is due or, once made, has set the flag. -/
structure TookUnflagged (l l' : Line) : Prop where
  rd_eq_wr : l'.rb.rd = l'.rb.wr
  due_or_full : l'.FlagDue ∨ (l'.p.busy = none ∧ l'.rb.full = true)
  incoming : l'.incoming ≤ l.incoming

theorem TookUnflagged.pMicro_of_due {l l' : Line} (h : TookUnflagged l l') (hdue : l'.FlagDue) :
    (pMicro l').p.busy = none ∧ TookUnflagged l (pMicro l') := by
  obtain ⟨⟨b, next⟩, hbusy, rfl⟩ := Option.map_eq_some_iff.mp hdue
  rw [pMicro_w4 hbusy]
  refine ⟨rfl, h.rd_eq_wr, .inr ⟨rfl, ?_⟩, le_trans ?_ h.incoming⟩
  · simp [RingBuffer.fullAfterWrite, h.rd_eq_wr]
  · simp [Line.incoming, hbusy]

theorem TookUnflagged.after_pMicro {l l' : Line} (h : TookUnflagged l l') : TookUnflagged l (pMicro l') := by
  obtain hdue | ⟨hbusy, hf⟩ := h.due_or_full
  · exact (h.pMicro_of_due hdue).2
  · have k := pMicro_refuses hf hbusy
    exact ⟨k.rb ▸ h.rd_eq_wr, .inr ⟨k.idle, k.rb ▸ hf⟩, k.incoming.trans h.incoming⟩

/-- What is waited for before `r4` is the `w4` that is due: after it the write is at its end. -/
theorem TookUnflagged.after_settle {l l' : Line} (h : TookUnflagged l l') :
    (settle .concurrent true l').p.busy = none ∧ TookUnflagged l (settle .concurrent true l') := by
  obtain hdue | ⟨hbusy, -⟩ := h.due_or_full
  · have e : settle .concurrent true l' = pMicro l' := if_pos ⟨rfl, hdue⟩
    rw [e]
    exact h.pMicro_of_due hdue
  · rw [settle_idle hbusy]
    exact ⟨hbusy, h⟩

/-! ## RB.READ -/

/-- The number of bytes that reads can still take from the line, what context P has yet to deliver counted in. -/
def Line.unread (l : Line) : Nat := l.held + l.incoming

/-- A read of `l` has left `l'`: a sound ring buffer, with fewer bytes left to read. -/
structure Consumes (m : Interleave) (l l' : Line) : Prop where
  ring : l'.SoundRing m
  unread_lt : l'.unread < l.unread

section
variable {m : Interleave} {l l' : Line} (h : l.SoundRing m) (hpos : 0 < l.held)
include h hpos

/-- What `r3` and `r4` leave of the ring buffer, but for the flag of a write that is due. -/
theorem Line.SoundRing.count_flagged_r3_r4 : l.flagged.r3.r4.count + 1 = l.held :=
  RingBuffer.count_r3_r4 h.flagged_bounded h.flagged_stored (h.flagged_not_empty hpos)

/-- The read of a full buffer: nothing is stored before `r4`. -/
theorem Refuses.consumes (hf : l.rb.full = true) (k : Refuses { l with rb := l.rb.r3 } l') :
    Consumes m l { l' with rb := l'.rb.r4 } := by
  have hidle := h.idle_of_full hf
  have hflag : l.flagged = l.rb := Line.flagged_of_idle hidle
  have hne := h.flagged_not_empty hpos
  have hcount := h.count_flagged_r3_r4 hpos
  rw [hflag] at hne hcount
  have hrb : l'.rb.r4 = l.rb.r3.r4 := congrArg RingBuffer.r4 k.rb
  have hheld : Line.held { l' with rb := l'.rb.r4 } = l.rb.r3.r4.count :=
    (congrArg RingBuffer.count (Line.flagged_of_idle (l := { l' with rb := l'.rb.r4 }) k.idle)).trans
      (congrArg RingBuffer.count hrb)
  have hinc : Line.incoming { l' with rb := l'.rb.r4 } ≤ l.incoming := k.incoming
  refine ⟨.of_idle h.sound.setting k.idle ?_ ?_ ?_, ?_⟩
  · exact (congrArg RingBuffer.configured hrb).trans h.configured
  · exact hrb ▸ h.bounded.r3.r4
  · exact hrb ▸ h.stored.r3_r4 h.bounded hne
  · unfold Line.unread
    omega

/-- The read of the only byte, before the flag of its write: nothing is left. -/
theorem TookUnflagged.consumes (hc : l'.rb.configured = true) (hb : l'.rb.Bounded) (hidle : l'.p.busy = none)
    (k : TookUnflagged l l') : Consumes m l { l' with rb := l'.rb.r4 } := by
  have hempty : l'.rb.r4.count = 0 :=
    (RingBuffer.isEmptyForRead_iff_count hb.r4).mp (RingBuffer.isEmptyForRead_iff.mpr ⟨k.rd_eq_wr, rfl⟩)
  have hheld : Line.held { l' with rb := l'.rb.r4 } = 0 :=
    (congrArg RingBuffer.count (Line.flagged_of_idle (l := { l' with rb := l'.rb.r4 }) hidle)).trans hempty
  have hinc : Line.incoming { l' with rb := l'.rb.r4 } ≤ l.incoming := k.incoming
  refine ⟨.of_idle h.sound.setting hidle hc hb.r4 (RingBuffer.stored_of_empty hb.r4 k.rd_eq_wr rfl), ?_⟩
  unfold Line.unread
  omega

end

section
variable {m : Interleave} {l : Line} (h : l.SoundRing m)
include h

/-- Between operations of context K, `r4` of a sound ring buffer leaves one: a flag it clears was of a full buffer. -/
theorem Line.SoundRing.r4 : Line.SoundRing m { l with rb := l.rb.r4 } ∧ Line.unread { l with rb := l.rb.r4 } ≤ l.unread := by
  cases hf : l.rb.full with
  | false =>
    have e : l.rb.r4 = l.rb := by simp [RingBuffer.r4, ← hf]
    rw [e]
    exact ⟨h, le_rfl⟩
  | true =>
    have hidle := h.idle_of_full hf
    have hheld : Line.held { l with rb := l.rb.r4 } ≤ l.held := by
      simpa [Line.held, Line.flagged, hidle] using RingBuffer.count_r4_le h.bounded
    exact ⟨.of_idle h.sound.setting hidle h.configured h.bounded.r4 h.stored.reachable.r4,
      Nat.add_le_add_right hheld _⟩

/-- `r3` of any other buffer leaves one that is sound already before `r4`, with one byte less. -/
theorem Line.SoundRing.r3 (hpos : 0 < l.held) (hf : l.rb.full = false) (ht : takesUnflagged l = false) :
    Line.SoundRing m { l with rb := l.rb.r3 } ∧ Line.held { l with rb := l.rb.r3 } + 1 = l.held := by
  have hnext : l.FlagDue → l.rb.wr ≠ advance l.rb.rd l.rb.cap := fun hdue he => by
    simp [takesUnflagged, show l.p.busy.map (·.next) = some .w4 from hdue, he] at ht
  have hflag : Line.flagged { l with rb := l.rb.r3 } = l.flagged.r3.r4 := by
    by_cases hdue : l.FlagDue
    · rw [Line.flagged_of_due hdue, Line.flagged_of_due (l := { l with rb := l.rb.r3 }) hdue]
      simp [RingBuffer.w4, RingBuffer.r3, RingBuffer.r4, RingBuffer.fullAfterWrite, hf, hnext hdue]
    · rw [Line.flagged_of_not_due hdue, Line.flagged_of_not_due (l := { l with rb := l.rb.r3 }) hdue]
      simp [RingBuffer.r3, RingBuffer.r4, hf]
  have hstored := h.flagged_stored.r3_r4 h.flagged_bounded (h.flagged_not_empty hpos)
  rw [← hflag] at hstored
  refine ⟨⟨h.configured, h.bounded.r3, h.sound.setting, h.sound.busy_concurrent, fun _ => ?_, ?_⟩,
    by rw [Line.held, hflag, h.count_flagged_r3_r4 hpos]⟩
  · exact Line.stored_of_flagged hstored hf
  · exact ⟨h.sound.writing.not_full, h.sound.writing.byte_stored, fun hdue he => absurd he (hnext hdue)⟩

/-! The rest of a read, from `r3` on, whatever context P does before `r4`: of a full buffer, of one whose byte is not the
only one or is flagged, of one whose only byte is not. -/

theorem Line.SoundRing.consumes_full (hpos : 0 < l.held) (hf : l.rb.full = true) {l' : Line}
    (e : l' = settle m (takesUnflagged l) (gap m { l with rb := l.rb.r3 })) :
    Consumes m l { l' with rb := l'.rb.r4 } := by
  have k := gap_refuses (m := m) (l := { l with rb := l.rb.r3 }) hf (h.idle_of_full hf)
  rw [settle_idle k.idle] at e
  exact Refuses.consumes h hpos hf (e ▸ k)

theorem Line.SoundRing.consumes_flagged (hpos : 0 < l.held) (hf : l.rb.full = false) (ht : takesUnflagged l = false)
    {l' : Line} (e : l' = settle m (takesUnflagged l) (gap m { l with rb := l.rb.r3 })) :
    Consumes m l { l' with rb := l'.rb.r4 } := by
  rw [ht, settle_false] at e
  obtain ⟨hr3, hheld⟩ := h.r3 hpos hf ht
  have k : Produces m { l with rb := l.rb.r3 } l' := e ▸ gap_produces hr3
  obtain ⟨hring, hunread⟩ := k.ring.r4
  have htotal : l'.unread ≤ Line.held { l with rb := l.rb.r3 } + l.incoming := k.total
  refine ⟨hring, hunread.trans_lt ?_⟩
  unfold Line.unread at htotal ⊢
  omega

theorem Line.SoundRing.consumes_unflagged (hpos : 0 < l.held) (ht : takesUnflagged l = true) {l' : Line}
    (e : l' = settle m (takesUnflagged l) (gap m { l with rb := l.rb.r3 })) :
    Consumes m l { l' with rb := l'.rb.r4 } := by
  obtain ⟨hdue, hnext⟩ : l.FlagDue ∧ advance l.rb.rd l.rb.cap = l.rb.wr := by simpa [takesUnflagged] using ht
  have hbusy : l.p.busy ≠ none := by rintro hidle; simp [Line.FlagDue, hidle] at hdue
  obtain rfl : m = .concurrent := by
    by_contra hm
    exact hbusy (h.sound.busy_concurrent hm)
  have htook : TookUnflagged l (gap .concurrent { l with rb := l.rb.r3 }) :=
    gap_keeps (m := .concurrent) (I := TookUnflagged l) (fun _ _ k => ⟨k.rd_eq_wr, k.due_or_full, k.incoming⟩)
      (fun _ k => k.after_pMicro) ⟨hnext, .inl hdue, le_rfl⟩
  obtain ⟨hidle, hsettled⟩ := htook.after_settle
  have hkept := (gap_producerOnly .concurrent { l with rb := l.rb.r3 }).trans (settle_producerOnly .concurrent true _)
  have hbounded := settle_bounded .concurrent true
    (gap_bounded .concurrent (l := { l with rb := l.rb.r3 }) h.bounded.r3)
  rw [ht] at e
  subst e
  exact TookUnflagged.consumes h hpos (hkept.rb_configured.trans h.configured) hbounded hidle hsettled

theorem Line.SoundRing.consumes (hpos : 0 < l.held) {l' : Line}
    (e : l' = settle m (takesUnflagged l) (gap m { l with rb := l.rb.r3 })) :
    Consumes m l { l' with rb := l'.rb.r4 } := by
  cases hf : l.rb.full with
  | true => exact h.consumes_full hpos hf e
  | false =>
    cases ht : takesUnflagged l with
    | false => exact h.consumes_flagged hpos hf ht e
    | true => exact h.consumes_unflagged hpos ht e

/-- 70_reset_and_hazards.md R173 (a): whatever context P does inside it, RB.READ of a sound ring buffer completes, leaves
one, and takes a byte from those left to read when it answers one. -/
theorem Line.SoundRing.rbRead_completes :
    ∃ l' o, rbRead m l = .next (l', o) ∧ l'.SoundRing m ∧ (o.isSome = true → l'.unread < l.unread) := by
  have k1 := gap_produces h
  cases he : (gap m l).rb.isEmptyForRead with
  | true => exact ⟨gap m l, none, by simp [rbRead, h.configured, he], k1.ring, by simp⟩
  | false =>
    have hpos : 0 < (gap m l).held := by
      refine lt_of_lt_of_le (Nat.pos_of_ne_zero fun hz => ?_) k1.ring.count_le_held
      simp [(RingBuffer.isEmptyForRead_iff_count k1.ring.bounded).mpr hz] at he
    have k2 := gap_produces k1.ring
    have k3 := gap_produces k2.ring
    obtain ⟨b, hb⟩ := k2.ring.exists_read (hpos.trans_le k2.held)
    obtain ⟨hring, hlt⟩ := k3.ring.consumes (hpos.trans_le (k2.held.trans k3.held)) rfl
    refine ⟨_, some b, by simp only [rbRead, h.configured, he, hb]; rfl, hring, fun _ => ?_⟩
    exact hlt.trans_le (k3.total.trans (k2.total.trans k1.total))

end

end Sys2Proof.Machine
end

section
/-! The transitions of the assembler on a line that meets the invariants (42_assembler.md R103, R117, 70_reset_and_hazards.md
R173 (a)): each completes but for the fault of R107, keeps the invariants, and takes a byte or moves on without one. -/

namespace Sys2Proof.Machine

/-! ## What a transition leaves alone -/

/-- What the assembler never writes: set-up, capacities, sentinels, the queue's read index. -/
structure AsmKept (l l' : Line) : Prop where
  configured : l'.configured = l.configured
  rb_configured : l'.rb.configured = l.rb.configured
  rb_cap : l'.rb.cap = l.rb.cap
  ackPkt : l'.ackPkt = l.ackPkt
  retxPkt : l'.retxPkt = l.retxPkt
  pq_cap : l'.pq.cap = l.pq.cap
  pq_rd : l'.pq.rd = l.pq.rd

theorem AsmKept.refl (l : Line) : AsmKept l l := ⟨rfl, rfl, rfl, rfl, rfl, rfl, rfl⟩

theorem AsmKept.trans {a b c : Line} (h : AsmKept a b) (k : AsmKept b c) : AsmKept a c where
  configured := k.configured.trans h.configured
  rb_configured := k.rb_configured.trans h.rb_configured
  rb_cap := k.rb_cap.trans h.rb_cap
  ackPkt := k.ackPkt.trans h.ackPkt
  retxPkt := k.retxPkt.trans h.retxPkt
  pq_cap := k.pq_cap.trans h.pq_cap
  pq_rd := k.pq_rd.trans h.pq_rd

theorem ReadOnly.asmKept {l l' : Line} (h : ReadOnly l l') : AsmKept l l' :=
  ⟨h.configured, h.rb_configured, h.rb_cap, h.ackPkt, h.retxPkt, congrArg _ h.pq, congrArg _ h.pq⟩

theorem AsmKept.withAsm {l l' : Line} (h : AsmKept l l') (a : Assembler) : AsmKept l { l' with asm := a } :=
  ⟨h.configured, h.rb_configured, h.rb_cap, h.ackPkt, h.retxPkt, h.pq_cap, h.pq_rd⟩

theorem AsmKept.raise {l l' : Line} (h : AsmKept l l') (c : Condition) : AsmKept l (l'.raise c) :=
  ⟨h.configured, h.rb_configured, h.rb_cap, h.ackPkt, h.retxPkt, h.pq_cap, h.pq_rd⟩

/-- The ring buffer and context P are as they were. -/
structure SameRing (l l' : Line) : Prop where
  rb : l'.rb = l.rb
  p : l'.p = l.p

theorem SameRing.refl (l : Line) : SameRing l l := ⟨rfl, rfl⟩

theorem SameRing.trans {a b c : Line} (h : SameRing a b) (k : SameRing b c) : SameRing a c :=
  ⟨k.rb.trans h.rb, k.p.trans h.p⟩

theorem txFrame_kept {cfg : Config} {p : Image} {l l' : Line} (h : txFrame cfg p l = .next l') :
    AsmKept l l' ∧ SameRing l l' := by
  obtain ⟨-, rfl⟩ := txFrame_next h
  exact ⟨⟨rfl, rfl, rfl, rfl, rfl, rfl, rfl⟩, rfl, rfl⟩

theorem pqEnq_kept (p : Image) (l : Line) : AsmKept l (pqEnq p l).1 ∧ SameRing l (pqEnq p l).1 := by
  cases h : l.pq.isFull with
  | true => rw [pqEnq_full h]; exact ⟨.refl l, .refl l⟩
  | false => rw [pqEnq_room h]; exact ⟨⟨rfl, rfl, rfl, rfl, rfl, rfl, rfl⟩, rfl, rfl⟩

theorem completeFrame_kept {cfg : Config} {l l' : Line} (h : completeFrame cfg l = .next l') :
    AsmKept l l' ∧ SameRing l l' := by
  obtain ⟨-, ht⟩ | ⟨-, ht⟩ | ⟨-, rfl⟩ | ⟨-, ⟨-, ht⟩ | ⟨-, rfl⟩⟩ := completeFrame_next h
  · obtain ⟨hkept, hring⟩ := txFrame_kept ht
    exact ⟨((AsmKept.refl l).raise _).trans hkept, hring.rb, hring.p⟩
  · exact txFrame_kept ht
  · exact ⟨.refl l', .refl l'⟩
  · obtain ⟨hkept, hring⟩ := pqEnq_kept l.asm.pkt l
    obtain ⟨hkept', hring'⟩ := txFrame_kept ht
    exact ⟨hkept.trans hkept', hring.trans hring'⟩
  · exact ⟨(AsmKept.refl l).raise _, rfl, rfl⟩

theorem asmStep_kept {cfg : Config} {l : Line} {r : Line × Mark} (h : asmStep cfg l = .next r) : AsmKept l r.1 := by
  obtain ⟨l', hr, rfl⟩ | ⟨l', b, -, hr, rfl⟩ | ⟨l', b, -, -, -, hr, rfl⟩ | ⟨-, -, rfl⟩ | ⟨l', l'', b, -, hr, hf, rfl⟩ |
    ⟨-, rfl⟩ := asmStep_next h
  · exact (rbRead_readOnly hr).asmKept
  · exact (rbRead_readOnly hr).asmKept.withAsm _
  · exact (rbRead_readOnly hr).asmKept.withAsm _
  · exact (AsmKept.refl l).withAsm _
  · exact (((rbRead_readOnly hr).asmKept.withAsm _).trans (completeFrame_kept hf).1).withAsm _
  · exact ((AsmKept.refl l).raise _).withAsm _

/-! ## What a transition does to the ring buffer -/

/-- How many transitions in a row may take no byte: one, out of `AwaitingData` (R106) or an unrecognised phase (R115). -/
def Assembler.bytelessSteps (a : Assembler) : Nat :=
  match a.phase with
  | .awaitingLength => 0
  | .awaitingData => 1
  | .awaitingCrc => 0
  | .unrecognised => 1

theorem Assembler.bytelessSteps_le_one (a : Assembler) : a.bytelessSteps ≤ 1 := by
  unfold Assembler.bytelessSteps
  split <;> decide

/-- 42_assembler.md R103: a transition contains one RB.READ, idle exactly when it finds no byte, or none at all. -/
theorem asmStep_ring {cfg : Config} {l : Line} {r : Line × Mark} (h : asmStep cfg l = .next r) :
    (∃ l' o, rbRead cfg.INTERLEAVE l = .next (l', o) ∧ SameRing l' r.1 ∧ (r.2 = .progress ↔ o.isSome = true)) ∨
    (SameRing l r.1 ∧ r.2 = .progress ∧ r.1.asm.bytelessSteps < l.asm.bytelessSteps) := by
  obtain ⟨l', hr, rfl⟩ | ⟨l', b, -, hr, rfl⟩ | ⟨l', b, -, -, -, hr, rfl⟩ | ⟨hp, -, rfl⟩ | ⟨l', l'', b, -, hr, hf, rfl⟩ |
    ⟨hp, rfl⟩ := asmStep_next h
  · exact .inl ⟨l', none, hr, ⟨rfl, rfl⟩, by simp⟩
  · exact .inl ⟨l', some b, hr, ⟨rfl, rfl⟩, by simp⟩
  · exact .inl ⟨l', some b, hr, ⟨rfl, rfl⟩, by simp⟩
  · exact .inr ⟨⟨rfl, rfl⟩, rfl, by simp [Assembler.bytelessSteps, hp]⟩
  · obtain ⟨-, hring⟩ := completeFrame_kept hf
    exact .inl ⟨l', some b, hr, ⟨hring.rb, hring.p⟩, by simp⟩
  · exact .inr ⟨⟨rfl, rfl⟩, rfl, by simp [Assembler.bytelessSteps, hp]⟩

/-! ## On a line that meets the invariants -/

/-- What ASM.STEP and ASM.POLL start from: parameters that make sense together, a configured line, both
invariants. -/
structure AsmReady (cfg : Config) (l : Line) : Prop where
  valid : cfg.Valid
  configured : l.configured = true
  inv : l.Inv cfg
  sound : l.Sound cfg.INTERLEAVE

theorem BetweenFrames.asmReady {cfg : Config} {l : Line} (h : BetweenFrames cfg l) : AsmReady cfg l :=
  ⟨h.valid, h.configured, h.inv, h.sound⟩

section
variable {cfg : Config} {l : Line} (h : AsmReady cfg l)
include h

theorem AsmReady.soundRing : l.SoundRing cfg.INTERLEAVE :=
  have hc := h.inv.rb_configured h.configured
  ⟨hc, h.inv.rb_bounded hc, h.sound⟩

theorem AsmReady.rbRead_sound {l' : Line} {o : Option Byte} (hr : rbRead cfg.INTERLEAVE l = .next (l', o)) :
    l'.SoundRing cfg.INTERLEAVE ∧ (o.isSome = true → l'.unread < l.unread) := by
  obtain ⟨l1, o1, hr1, hring, hlt⟩ := h.soundRing.rbRead_completes
  obtain ⟨rfl, rfl⟩ : l1 = l' ∧ o1 = o := by simpa [hr1] using hr
  exact ⟨hring, hlt⟩

theorem AsmReady.after_asmStep {r : Line × Mark} (hs : asmStep cfg l = .next r) : AsmReady cfg r.1 := by
  refine ⟨h.valid, (asmStep_kept hs).configured.trans h.configured, (asmStep_keepsInv h.valid h.inv h.configured hs).inv, ?_⟩
  obtain ⟨l', o, hr, ⟨hrb, hp⟩, -⟩ | ⟨⟨hrb, hp⟩, -⟩ := asmStep_ring hs
  · exact (h.rbRead_sound hr).1.sound.of_rb_busy hrb (congrArg _ hp)
  · exact h.sound.of_rb_busy hrb (congrArg _ hp)

/-- 42_assembler.md R107 is the one reason for which a transition does not complete. -/
theorem AsmReady.asmStep_completes (hlen : ¬ (l.asm.phase = .awaitingData ∧ l.asm.cnt.toNat < l.asm.pkt.length.toNat ∧
    cfg.MAX_PAYLOAD ≤ l.asm.cnt.toNat)) : ∃ l' m, asmStep cfg l = .next (l', m) := by
  obtain ⟨l', o, hr, -, -⟩ := h.soundRing.rbRead_completes
  cases hp : l.asm.phase with
  | awaitingLength =>
    cases o with
    | none => exact ⟨_, _, asmStep_of_none (Assembler.wantsByte_awaitingLength hp) hr⟩
    | some b => exact ⟨_, _, asmStep_of_length hp hr⟩
  | awaitingData =>
    by_cases hdone : l.asm.pkt.length.toNat ≤ l.asm.cnt.toNat
    case pos => exact ⟨_, _, asmStep_of_data_complete hp hdone⟩
    rw [Nat.not_le] at hdone
    have hmax : l.asm.cnt.toNat < cfg.MAX_PAYLOAD := by
      by_contra hge
      exact hlen ⟨hp, hdone, Nat.not_lt.mp hge⟩
    cases o with
    | none => exact ⟨_, _, asmStep_of_none (Assembler.wantsByte_awaitingData hp hdone hmax) hr⟩
    | some b => exact ⟨_, _, asmStep_of_data hp hdone hmax hr⟩
  | awaitingCrc =>
    cases o with
    | none => exact ⟨_, _, asmStep_of_none (Assembler.wantsByte_awaitingCrc hp) hr⟩
    | some b =>
      obtain ⟨hack, hretx⟩ := h.inv.sentinels h.configured
      have hread := rbRead_readOnly hr
      obtain ⟨l'', hf⟩ := completeFrame_completes (l := { l' with asm := l.asm.takeCrc b }) h.valid
        (hread.ackPkt.trans hack) (hread.retxPkt.trans hretx)
      exact ⟨_, _, asmStep_of_crc hp hr hf⟩
  | unrecognised => exact ⟨_, _, asmStep_of_unrecognised hp⟩

theorem AsmReady.asmStep_ends :
    (∃ l' m, asmStep cfg l = .next (l', m)) ∨ asmStep cfg l = .fault .lengthOutOfRange := by
  by_cases hlen : l.asm.phase = .awaitingData ∧ l.asm.cnt.toNat < l.asm.pkt.length.toNat ∧
      cfg.MAX_PAYLOAD ≤ l.asm.cnt.toNat
  · exact .inr (asmStep_of_out_of_range hlen.1 hlen.2.1 hlen.2.2)
  · exact .inl (h.asmStep_completes hlen)

end

/-- Settles O31: a read of a sound ring buffer completes, and a sentinel can be sent. -/
theorem asmStepCompletesUnlessALengthIsOutOfRange : Obligations.AsmStepCompletesUnlessALengthIsOutOfRange := by
  intro s n l hs hv hc hinv hsound hlen
  obtain ⟨l', m, hstep⟩ := (AsmReady.mk hv hc hinv hsound).asmStep_completes hlen
  have hk := asmStep_kept hstep
  exact ⟨l', m, exec_asmStep_next hs hc hstep, hk.configured, hk.rb_configured, hk.rb_cap, hk.ackPkt, hk.retxPkt,
    hk.pq_cap, hk.pq_rd⟩

end Sys2Proof.Machine
end

section
/-! ASM.POLL (42_assembler.md R113, R114): the transitions it is made of, that it ends, and that its bound is never reached
on a line that meets the invariants. -/

namespace Sys2Proof.Machine

section
variable {cfg : Config} {fuel k : Nat} {l l' last : Line}

/-! ## A bounded poll as a run of transitions -/

theorem progressSteps_succ (h : asmStep cfg l = .next (l', .progress)) (k : Nat) :
    progressSteps cfg (k + 1) l = progressSteps cfg k l' := by
  simp [progressSteps, h]

theorem progressSteps_succ_eq_some (h : progressSteps cfg (k + 1) l = some last) :
    ∃ l', asmStep cfg l = .next (l', .progress) ∧ progressSteps cfg k l' = some last := by
  rw [progressSteps] at h
  split at h
  · next l' hl => exact ⟨l', hl, h⟩
  · cases h

theorem asmPollUpTo_of_progress (h : asmStep cfg l = .next (l', .progress)) (fuel : Nat) :
    asmPollUpTo cfg (fuel + 1) l = asmPollUpTo cfg fuel l' := by
  simp [asmPollUpTo, h]

theorem asmPollUpTo_of_idle (h : asmStep cfg l = .next (l', .idle)) (fuel : Nat) :
    asmPollUpTo cfg (fuel + 1) l = .next (l', .idle) := by
  simp [asmPollUpTo, h]

theorem asmPollUpTo_of_fault {e : Fault} (h : asmStep cfg l = .fault e) (fuel : Nat) :
    asmPollUpTo cfg (fuel + 1) l = .fault e := by
  simp [asmPollUpTo, h]

/-- What a bounded poll answers: the mark of its last transition, after those that answered `Progress`. -/
theorem asmPollUpTo_next {m : Mark} (h : asmPollUpTo cfg fuel l = .next (l', m)) :
    ∃ last k, progressSteps cfg k l = some last ∧
      ((m = .idle ∧ asmStep cfg last = .next (l', .idle)) ∨ (m = .progress ∧ l' = last)) := by
  induction fuel generalizing l with
  | zero => cases h; exact ⟨_, 0, rfl, .inr ⟨rfl, rfl⟩⟩
  | succ fuel ih =>
    rw [asmPollUpTo] at h
    split at h
    · next hl => cases h; exact ⟨l, 0, rfl, .inl ⟨rfl, hl⟩⟩
    · next l1 hl =>
      obtain ⟨last, k, hk, hend⟩ := ih h
      exact ⟨last, k + 1, (progressSteps_succ hl k).trans hk, hend⟩
    · cases h
    · cases h

theorem asmPollUpTo_fault {e : Fault} (h : asmPollUpTo cfg fuel l = .fault e) :
    ∃ last k, progressSteps cfg k l = some last ∧ asmStep cfg last = .fault e := by
  induction fuel generalizing l with
  | zero => cases h
  | succ fuel ih =>
    rw [asmPollUpTo] at h
    split at h
    · cases h
    · next l1 hl =>
      obtain ⟨last, k, hk, hend⟩ := ih h
      exact ⟨last, k + 1, (progressSteps_succ hl k).trans hk, hend⟩
    · next hl => cases h; exact ⟨l, 0, rfl, hl⟩
    · cases h

/-- Transitions up to one that does not answer `Progress`: a poll answers as that one does, if it is not cut before. -/
theorem asmPollUpTo_of_progressSteps (hk : progressSteps cfg k l = some last)
    (hend : ∀ x, asmStep cfg last ≠ .next (x, .progress)) (fuel : Nat) :
    asmPollUpTo cfg fuel l = asmPollUpTo cfg 1 last ∨ ∃ x, asmPollUpTo cfg fuel l = .next (x, .progress) := by
  induction fuel generalizing k l with
  | zero => exact .inr ⟨l, rfl⟩
  | succ fuel ih =>
    cases k with
    | zero =>
      cases hk
      left
      rw [asmPollUpTo, asmPollUpTo]
      split
      · rfl
      · next x hx => exact absurd hx (hend x)
      · rfl
      · rfl
    | succ k =>
      obtain ⟨l1, hl, hk⟩ := progressSteps_succ_eq_some hk
      rw [asmPollUpTo_of_progress hl]
      exact ih hk

/-! ## A poll ends -/

/-- A poll from a line of `I` with more transitions than `ν` counts ends: each keeps `I` and counts down. -/
theorem asmPollUpTo_ends {I : Line → Prop} {ν : Line → Nat} (hI : ∀ l, I l → AsmReady cfg l)
    (hstep : ∀ l l', I l → asmStep cfg l = .next (l', .progress) → I l' ∧ ν l' < ν l) (h : I l) (hν : ν l < fuel) :
    (∃ l', asmPollUpTo cfg fuel l = .next (l', .idle)) ∨ asmPollUpTo cfg fuel l = .fault .lengthOutOfRange := by
  induction fuel generalizing l with
  | zero => omega
  | succ fuel ih =>
    obtain ⟨l', m, hs⟩ | hs := (hI l h).asmStep_ends
    · cases m with
      | idle => exact .inl ⟨l', asmPollUpTo_of_idle hs fuel⟩
      | progress =>
        obtain ⟨h', hlt⟩ := hstep l l' h hs
        rw [asmPollUpTo_of_progress hs]
        exact ih h' (by omega)
    · exact .inr (asmPollUpTo_of_fault hs fuel)

/-- With `μ` bytes to read: a transition that takes a byte may be followed by one that takes none. -/
def stepsLeft (μ : Line → Nat) (l : Line) : Nat := 2 * μ l + l.asm.bytelessSteps

theorem stepsLeft_le (μ : Line → Nat) (l : Line) : stepsLeft μ l ≤ 2 * μ l + 1 :=
  Nat.add_le_add_left l.asm.bytelessSteps_le_one _

theorem stepsLeft_lt_of_byte {μ : Line → Nat} (h : μ l' < μ l) : stepsLeft μ l' < stepsLeft μ l := by
  have hle := stepsLeft_le μ l'
  unfold stepsLeft at hle ⊢
  omega

theorem SameRing.unread {l l' : Line} (h : SameRing l l') : l'.unread = l.unread := by
  obtain ⟨hrb, hp⟩ := h
  simp only [Line.unread, Line.held, Line.flagged, Line.incoming, Line.FlagDue, hrb, hp]

/-- A transition that answers `Progress` has taken a byte, or is one that takes none. -/
theorem AsmReady.stepsLeft_lt (h : AsmReady cfg l) (hs : asmStep cfg l = .next (l', .progress)) :
    stepsLeft Line.unread l' < stepsLeft Line.unread l := by
  obtain ⟨l1, o, hr, hsame, hmark⟩ | ⟨hsame, -, hlt⟩ := asmStep_ring hs
  · apply stepsLeft_lt_of_byte
    rw [hsame.unread]
    exact (h.rbRead_sound hr).2 (hmark.mp rfl)
  · have hunread : l'.unread = l.unread := hsame.unread
    rw [stepsLeft, stepsLeft, hunread]
    exact Nat.add_lt_add_left hlt _

/-! ## With no step of context P inside -/

theorem rbRead_quiet {m : Interleave} {o : Option Byte} (hq : Quiet m l) (hr : rbRead m l = .next (l', o)) :
    l'.p = l.p := by
  obtain ⟨-, ⟨l1, rfl, -, e⟩ | ⟨l2, l3, l4, b, -, rfl, -, rfl, rfl, e⟩⟩ := rbRead_next hr
  · cases e
    rw [gap_quiet hq]
  · cases e
    rw [gap_quiet hq, gap_quiet hq, gap_quiet hq, takesUnflagged_idle hq.1, settle_false,
      gap_quiet (l := { l with rb := l.rb.r3 }) hq]

theorem asmStep_quiet {r : Line × Mark} (hq : Quiet cfg.INTERLEAVE l) (hs : asmStep cfg l = .next r) :
    r.1.p = l.p := by
  obtain ⟨l1, o, hr, hsame, -⟩ | ⟨hsame, -⟩ := asmStep_ring hs
  · exact hsame.p.trans (rbRead_quiet hq hr)
  · exact hsame.p

/-- What is left to read is in the buffer, or waits outside it for good. -/
theorem Quiet.unread {m : Interleave} (hq : Quiet m l) : l.unread = l.rb.count + l.p.rx.length := by
  simp [Line.unread, Line.held, Line.flagged_of_idle hq.1, Line.incoming, hq.1]

theorem AsmReady.stepsLeft_lt_quiet (h : AsmReady cfg l) (hq : Quiet cfg.INTERLEAVE l)
    (hs : asmStep cfg l = .next (l', .progress)) :
    Quiet cfg.INTERLEAVE l' ∧ stepsLeft (fun l => l.rb.count) l' < stepsLeft (fun l => l.rb.count) l := by
  have hp : l'.p = l.p := asmStep_quiet hq hs
  have hq' : Quiet cfg.INTERLEAVE l' := by rwa [Quiet, hp]
  have hlt := h.stepsLeft_lt hs
  simp only [stepsLeft, hq.unread, hq'.unread, hp] at hlt ⊢
  exact ⟨hq', by omega⟩

/-! ## The bounds of the model -/

theorem AsmReady.asmPollUpTo_quiet_ends (h : AsmReady cfg l) (hq : Quiet cfg.INTERLEAVE l) :
    (∃ l', asmPollUpTo cfg (2 * l.rb.count + 2) l = .next (l', .idle)) ∨
      asmPollUpTo cfg (2 * l.rb.count + 2) l = .fault .lengthOutOfRange := by
  refine asmPollUpTo_ends (I := fun l => AsmReady cfg l ∧ Quiet cfg.INTERLEAVE l) (ν := stepsLeft fun l => l.rb.count)
    (fun _ h => h.1) (fun l l' h hs => ?_) ⟨h, hq⟩ (Nat.lt_succ_of_le (stepsLeft_le _ l))
  obtain ⟨hq', hlt⟩ := h.1.stepsLeft_lt_quiet h.2 hs
  exact ⟨⟨h.1.after_asmStep hs, hq'⟩, hlt⟩

theorem AsmReady.stepsLeft_lt_pollFuel (h : AsmReady cfg l) : stepsLeft Line.unread l < pollFuel l := by
  have hheld := h.soundRing.held_le_cap
  have hinc : l.incoming ≤ l.p.rx.length + 1 := by
    unfold Line.incoming
    split_ifs <;> omega
  have hle : stepsLeft Line.unread l ≤ 2 * (l.held + l.incoming) + 1 := stepsLeft_le Line.unread l
  unfold pollFuel
  nlinarith [Nat.zero_le (l.rb.cap * l.p.rx.length)]

theorem AsmReady.asmPoll_ends (h : AsmReady cfg l) :
    (∃ l', asmPoll cfg l = .next (l', .idle)) ∨ asmPoll cfg l = .fault .lengthOutOfRange :=
  asmPollUpTo_ends (I := AsmReady cfg) (ν := stepsLeft Line.unread) (fun _ h => h)
    (fun _ _ h hs => ⟨h.after_asmStep hs, h.stepsLeft_lt hs⟩) h h.stepsLeft_lt_pollFuel

/-- No poll of such a line is cut at its bound. -/
theorem AsmReady.asmPoll_not_cut (h : AsmReady cfg l) (x : Line) : asmPoll cfg l ≠ .next (x, .progress) := by
  intro hx
  obtain ⟨l', hl⟩ | hl := h.asmPoll_ends
  · simp [hx] at hl
  · simp [hx] at hl

/-- So it answers as the first transition that does not answer `Progress`. -/
theorem AsmReady.asmPoll_of_progressSteps (h : AsmReady cfg l) (hk : progressSteps cfg k l = some last)
    (hend : ∀ x, asmStep cfg last ≠ .next (x, .progress)) : asmPoll cfg l = asmPollUpTo cfg 1 last := by
  obtain e | ⟨x, hx⟩ := asmPollUpTo_of_progressSteps hk hend (pollFuel l)
  · exact e
  · exact absurd hx (h.asmPoll_not_cut x)

end

/-! ## ASM.POLL -/

section
variable {s : State} {n k : Nat} {l last l' : Line} (hs : s.IssuesOn .consumer n l) (h : AsmReady s.config l)
include hs h

theorem exec_asmPoll_of_idle (hk : progressSteps s.config k l = some last)
    (hidle : asmStep s.config last = .next (l', .idle)) : exec (.asmPoll n) s = .next (s.after n l' .unit) :=
  consumerOp_answering_of_next (g := pollResponse) hs h.configured
    ((h.asmPoll_of_progressSteps hk (by simp [hidle])).trans (asmPollUpTo_of_idle hidle 0))

theorem exec_asmPoll_of_fault {e : Fault} (hk : progressSteps s.config k l = some last)
    (hfault : asmStep s.config last = .fault e) : exec (.asmPoll n) s = .fault e :=
  consumerOp_answering_of_fault (g := pollResponse) hs h.configured
    ((h.asmPoll_of_progressSteps hk (by simp [hfault])).trans (asmPollUpTo_of_fault hfault 0))

end

/-- Whatever the state, a poll that completes has made transitions up to one that is idle, or is cut. -/
theorem exec_asmPoll_next {s t : State} {n : Nat} (h : exec (.asmPoll n) s = .next t) :
    ∃ l last k, s.lines[n]? = some l ∧ progressSteps s.config k l = some last ∧
      ((∃ l', asmStep s.config last = .next (l', .idle) ∧ t = s.after n l' .unit) ∨
        (asmPoll s.config l = .next (last, .progress) ∧ t = s.after n last (.mark .progress))) := by
  obtain ⟨l, l', m, hl, -, hf, rfl⟩ := consumerOp_answering_next (g := pollResponse) h
  obtain ⟨last, k, hk, ⟨rfl, hidle⟩ | ⟨rfl, rfl⟩⟩ := asmPollUpTo_next hf
  · exact ⟨l, last, k, hl, hk, .inl ⟨l', hidle, rfl⟩⟩
  · exact ⟨l, l', k, hl, hk, .inr ⟨hf, rfl⟩⟩

theorem exec_asmPoll_fault {s : State} {n : Nat} {e : Fault} (h : exec (.asmPoll n) s = .fault e) :
    ∃ l last k, s.lines[n]? = some l ∧ progressSteps s.config k l = some last ∧ asmStep s.config last = .fault e := by
  obtain ⟨l, hl, -, hf⟩ := consumerOp_answering_fault (g := pollResponse) h
  obtain ⟨last, k, hk, hfault⟩ := asmPollUpTo_fault hf
  exact ⟨l, last, k, hl, hk, hfault⟩

/-- Settles O33: a transition takes a byte of those left to read, or is the one between two that do. -/
theorem asmPollEnds : Obligations.AsmPollEnds := by
  intro cfg l hv hc hinv hsound
  have h : AsmReady cfg l := ⟨hv, hc, hinv, hsound⟩
  exact ⟨h.asmPollUpTo_quiet_ends, h.asmPoll_ends⟩

/-- Settles O32: a poll is its transitions; from the invariants it is not cut, so it is all of them. -/
theorem asmPollRepeatsStepsUntilIdle : Obligations.AsmPollRepeatsStepsUntilIdle := by
  refine ⟨fun s n l hs hv hc hinv hsound => ?_, fun s t n h => ?_, fun s n e h => exec_asmPoll_fault h, fun _ _ => rfl⟩
  · have h : AsmReady s.config l := ⟨hv, hc, hinv, hsound⟩
    have hline {m : Line} (hm : s.lines[n]? = some m) : m = l := by simpa [hs.2] using hm.symm
    refine ⟨fun t => ⟨fun ht => ?_, ?_⟩, fun e => ⟨fun he => ?_, ?_⟩⟩
    · obtain ⟨m, last, k, hm, hk, ⟨l', hidle, rfl⟩ | ⟨hcut, -⟩⟩ := exec_asmPoll_next ht
      · exact ⟨last, l', k, hline hm ▸ hk, hidle, rfl⟩
      · exact absurd (hline hm ▸ hcut) (h.asmPoll_not_cut last)
    · rintro ⟨last, l', k, hk, hidle, rfl⟩
      exact exec_asmPoll_of_idle hs h hk hidle
    · obtain ⟨m, last, k, hm, hk, hfault⟩ := exec_asmPoll_fault he
      exact ⟨last, k, hline hm ▸ hk, hfault⟩
    · rintro ⟨last, k, hk, hfault⟩
      exact exec_asmPoll_of_fault hs h hk hfault
  · obtain ⟨l, last, k, hl, hk, hidle | ⟨-, ht⟩⟩ := exec_asmPoll_next h
    · exact ⟨l, last, k, hl, hk, .inl hidle⟩
    · exact ⟨l, last, k, hl, hk, .inr ht⟩

end Sys2Proof.Machine
end

section
/-! The packets queued, oldest first (10_state.md R28), and what PQ.ENQ makes of them (43_packet_queue.md R121, R124). -/

namespace Sys2Proof.Machine

section
variable {q : PacketQueue} (h : q.Inv)
include h

theorem PacketQueue.Inv.length_live : q.live.length = q.count := Memory.length_ring h.live_filled

theorem PacketQueue.Inv.count_eq : q.count = if q.rd ≤ q.wr then q.wr - q.rd else q.wr + q.cap - q.rd :=
  ahead_eq h.cap_pow2 h.wr_lt h.rd_lt

/-- R28: one slot stays free. -/
theorem PacketQueue.Inv.isFull_eq_false_iff_count : q.isFull = false ↔ q.count < q.cap - 1 := by
  have hw := h.wr_lt
  have hr := h.rd_lt
  have hadv := advance_eq h.cap_pow2 hw
  rw [PacketQueue.isFull, beq_eq_false_iff_ne, h.count_eq]
  split_ifs at hadv ⊢ <;> omega

theorem PacketQueue.Inv.count_put (hq : q.isFull = false) (p : Image) : (q.put p).count = q.count + 1 := by
  have hw := h.wr_lt
  have hr := h.rd_lt
  have hadv := advance_eq h.cap_pow2 hw
  have hne : advance q.wr q.cap ≠ q.rd := beq_eq_false_iff_ne.mp hq
  rw [(h.put p).count_eq, h.count_eq, put_wr, put_rd, put_cap]
  split_ifs at hadv ⊢ <;> omega

theorem PacketQueue.Inv.live_put (hq : q.isFull = false) (p : Image) : (q.put p).live = q.live ++ [p] := by
  have hlt : q.count < q.cap := ((h.isFull_eq_false_iff_count).mp hq).trans_le (Nat.sub_le _ _)
  have hwr : (q.rd + q.count) &&& (q.cap - 1) = q.wr := index_ahead h.cap_pow2 h.wr_lt h.rd_lt
  have hring := Memory.ring_write h.cap_pow2 h.rd_lt hlt q.slot p
  rw [hwr, ← h.count_put hq p] at hring
  exact hring

end

end Sys2Proof.Machine
end

section
/-! A whole frame received (42_assembler.md R104 to R112): the transitions from its length byte to its CRC byte, with no
step of context P inside, and what they make of the line. -/

namespace Sys2Proof.Machine

/-- 30_encoding.md R71, R75: the CRC a receiver computes is the one the sender of the payload does. -/
theorem computedCrc_fromWire {cfg : Config} {P : List Byte} (hv : cfg.Valid) (h : P.length ≤ cfg.MAX_PAYLOAD) (c : Byte) :
    (fromWire cfg P c).computedCrc cfg = (mkpkt cfg P).crc :=
  (computedCrc_setCrc (p := mkpkt cfg P) hv (mkpkt_sized h) c).trans (mkpkt_crc hv h).symm

/-! ## Transitions in a row -/

/-- One transition that answers `Progress`. -/
def Advances (cfg : Config) (l l' : Line) : Prop := asmStep cfg l = .next (l', .progress)

section
variable {cfg : Config} {l l' : Line}

theorem exists_progressSteps (h : Relation.ReflTransGen (Advances cfg) l l') : ∃ k, progressSteps cfg k l = some l' := by
  induction h using Relation.ReflTransGen.head_induction_on with
  | refl => exact ⟨0, rfl⟩
  | head hstep _ ih =>
    obtain ⟨k, hk⟩ := ih
    exact ⟨k + 1, (progressSteps_succ hstep k).trans hk⟩

/-- Between transitions a line that meets the invariants, with no step of context P inside them, stays one. -/
theorem AsmReady.of_advances (h : Relation.ReflTransGen (Advances cfg) l l') (hl : AsmReady cfg l)
    (hq : Quiet cfg.INTERLEAVE l) : AsmReady cfg l' ∧ Quiet cfg.INTERLEAVE l' := by
  induction h with
  | refl => exact ⟨hl, hq⟩
  | tail _ hstep ih => exact ⟨ih.1.after_asmStep hstep, (ih.1.stepsLeft_lt_quiet ih.2 hstep).1⟩

theorem BetweenFrames.of_advances (hl : BetweenFrames cfg l) (h : Relation.ReflTransGen (Advances cfg) l l')
    (hp : l'.asm.phase = .awaitingLength) : BetweenFrames cfg l' := by
  obtain ⟨h', hq⟩ := hl.asmReady.of_advances h hl.quiet
  exact ⟨h'.valid, h'.configured, hp, h'.inv, h'.sound, hq⟩

theorem BetweenFrames.quietRing (h : BetweenFrames cfg l) : l.QuietRing cfg.INTERLEAVE :=
  .of_inv (h.inv.rb_configured h.configured) h.inv h.sound h.quiet

/-- 42_assembler.md R113: a poll that has got to a line between frames with an empty buffer ends there. -/
theorem exec_asmPoll_of_advances {s : State} {n : Nat} (hs : s.IssuesOn .consumer n l) (h : BetweenFrames s.config l)
    (hsteps : Relation.ReflTransGen (Advances s.config) l l') (h' : BetweenFrames s.config l') (hlive : l'.rb.live = []) :
    exec (.asmPoll n) s = .next (s.after n l' .unit) := by
  obtain ⟨k, hk⟩ := exists_progressSteps hsteps
  exact exec_asmPoll_of_idle hs h.asmReady hk
    (asmStep_of_none (Assembler.wantsByte_awaitingLength h'.phase) (h'.quietRing.rbRead_of_empty hlive))

end

/-! ## From the length byte to the CRC byte -/

/-- The line is `l₀` but for the ring buffer, in which `waiting` waits, and the assembler, which is inside a frame of
`length` data bytes of which `got` have come. -/
structure InData (cfg : Config) (l₀ : Line) (length : Byte) (got waiting : List Byte) (l : Line) : Prop where
  same : ∀ rb a, ({ l with rb := rb, asm := a } : Line) = { l₀ with rb := rb, asm := a }
  ring : l.QuietRing cfg.INTERLEAVE
  live : l.rb.live = waiting
  phase : l.asm.phase = .awaitingData
  length : l.asm.pkt.length = length
  data : l.asm.pkt.data = padded cfg got
  cnt : l.asm.cnt.toNat = got.length

section
variable {cfg : Config} {l₀ l : Line} {L b : Byte} {got todo rest : List Byte}

theorem BetweenFrames.advances_length (h : BetweenFrames cfg l) (hlive : l.rb.live = L :: rest) :
    ∃ l', Advances cfg l l' ∧ InData cfg l L [] rest l' := by
  obtain ⟨hread, hrest, hring⟩ := h.quietRing.rbRead_of_live hlive
  exact ⟨_, asmStep_of_length h.phase hread, fun _ _ => rfl, ⟨hring.configured, hring.bounded, hring.stored, hring.quiet⟩, hrest, rfl,
    rfl, by simp [Assembler.takeLength, padded], rfl⟩

theorem InData.advances_byte (h : InData cfg l₀ L got (b :: rest) l) (hv : cfg.Valid) (hlen : got.length < L.toNat)
    (hmax : got.length < cfg.MAX_PAYLOAD) : ∃ l', Advances cfg l l' ∧ InData cfg l₀ L (got ++ [b]) rest l' := by
  obtain ⟨hread, hrest, hring⟩ := h.ring.rbRead_of_live h.live
  have hstep := asmStep_of_data h.phase (h.length ▸ h.cnt ▸ hlen) (h.cnt ▸ hmax) hread
  have hdata : (l.asm.takeData b).pkt.data = padded cfg (got ++ [b]) := by
    rw [← set_padded hmax, ← h.data, ← h.cnt]
    rfl
  have hcnt : (l.asm.takeData b).cnt.toNat = (got ++ [b]).length := by
    have := h.cnt
    have := hv.payload_le
    rw [takeData_cnt, List.length_append, List.length_singleton]
    bv_omega
  exact ⟨_, hstep, h.same, ⟨hring.configured, hring.bounded, hring.stored, hring.quiet⟩, hrest, h.phase, h.length, hdata,
    hcnt⟩

theorem InData.advances_data (h : InData cfg l₀ L got (todo ++ rest) l) (hv : cfg.Valid)
    (hlen : got.length + todo.length = L.toNat) (hmax : L.toNat ≤ cfg.MAX_PAYLOAD) :
    ∃ l', Relation.ReflTransGen (Advances cfg) l l' ∧ InData cfg l₀ L (got ++ todo) rest l' := by
  induction todo generalizing l got with
  | nil => exact ⟨l, .refl, by simpa using h⟩
  | cons b todo ih =>
    rw [List.length_cons] at hlen
    obtain ⟨l1, hstep, h1⟩ := h.advances_byte hv (by omega) (by omega)
    obtain ⟨l', hsteps, h'⟩ := ih h1 (by rw [List.length_append, List.length_singleton]; omega)
    rw [List.append_assoc] at h'
    exact ⟨l', .head hstep hsteps, h'⟩

/-- R106, R108: once all data bytes have come, the CRC byte is taken and the frame is completed. -/
theorem InData.advances_crc (h : InData cfg l₀ L got (b :: rest) l) (hlen : got.length = L.toNat) :
    ∃ rb a, rb.live = rest ∧ a.pkt = { length := L, data := padded cfg got, crc := b } ∧
      ∀ l', completeFrame cfg { l₀ with rb := rb, asm := a } = .next l' →
        Relation.ReflTransGen (Advances cfg) l l'.restartAsm := by
  obtain ⟨hread, hrest, -⟩ := Line.QuietRing.rbRead_of_live (l := { l with asm := l.asm.toPhase .awaitingCrc })
    ⟨h.ring.configured, h.ring.bounded, h.ring.stored, h.ring.quiet⟩ h.live
  refine ⟨_, (l.asm.toPhase .awaitingCrc).takeCrc b, hrest, ?_, fun l' hf => ?_⟩
  · rw [← h.length, ← h.data]
    rfl
  · have hmove : Advances cfg l _ := asmStep_of_data_complete h.phase (by rw [h.length, h.cnt, hlen])
    rw [← h.same] at hf
    exact .head hmove (.single (asmStep_of_crc rfl hread hf))

end

/-! ## A frame completed, by its bytes on the wire -/

/-- 42_assembler.md R109 to R112: what completing the frame of the data bytes `P` and the CRC byte `c` makes of the line. -/
def Line.received (cfg : Config) (P : List Byte) (c : Byte) (l : Line) : Line :=
  if c ≠ (mkpkt cfg P).crc then (l.raise .frameCorruption).sent (retxImage cfg)
  else if P = [cfg.RETX_MARK] then l.sent (retxImage cfg)
  else if P = [cfg.ACK_MARK] then l
  else if l.pq.isFull then l.raise .queueFull
  else Line.sent (ackImage cfg) { l with pq := l.pq.put (mkpkt cfg P) }

section
variable {cfg : Config} {P : List Byte} {c : Byte} {l : Line}

theorem received_corrupt (h : c ≠ (mkpkt cfg P).crc) :
    l.received cfg P c = (l.raise .frameCorruption).sent (retxImage cfg) := if_pos h

theorem received_retx (h : c = (mkpkt cfg P).crc) (hr : P = [cfg.RETX_MARK]) :
    l.received cfg P c = l.sent (retxImage cfg) := by
  rw [Line.received, if_neg (not_not_intro h), if_pos hr]

theorem received_ack (h : c = (mkpkt cfg P).crc) (hr : P ≠ [cfg.RETX_MARK]) (ha : P = [cfg.ACK_MARK]) :
    l.received cfg P c = l := by
  rw [Line.received, if_neg (not_not_intro h), if_neg hr, if_pos ha]

theorem received_dropped (h : c = (mkpkt cfg P).crc) (hr : P ≠ [cfg.RETX_MARK]) (ha : P ≠ [cfg.ACK_MARK])
    (hq : l.pq.isFull = true) : l.received cfg P c = l.raise .queueFull := by
  rw [Line.received, if_neg (not_not_intro h), if_neg hr, if_neg ha, if_pos hq]

theorem received_queued (h : c = (mkpkt cfg P).crc) (hr : P ≠ [cfg.RETX_MARK]) (ha : P ≠ [cfg.ACK_MARK])
    (hq : l.pq.isFull = false) :
    l.received cfg P c = Line.sent (ackImage cfg) { l with pq := l.pq.put (mkpkt cfg P) } := by
  rw [Line.received, if_neg (not_not_intro h), if_neg hr, if_neg ha, if_neg (Bool.eq_false_iff.mp hq)]

theorem completeFrame_eq_received (hv : cfg.Valid) (hack : l.ackPkt = ackImage cfg) (hretx : l.retxPkt = retxImage cfg)
    (hlen : P.length ≤ cfg.MAX_PAYLOAD) (hpkt : l.asm.pkt = fromWire cfg P c) :
    completeFrame cfg l = .next (l.received cfg P c) := by
  have hcomputed : l.asm.pkt.computedCrc cfg = (mkpkt cfg P).crc := by rw [hpkt, computedCrc_fromWire hv hlen]
  have hcrc : l.asm.pkt.crc = c := congrArg Image.crc hpkt
  by_cases hc : c = (mkpkt cfg P).crc
  case neg =>
    rw [received_corrupt hc]
    exact completeFrame_corrupt hv hretx (by rw [hcomputed, hcrc]; exact Ne.symm hc)
  have hright : l.asm.pkt.computedCrc cfg = l.asm.pkt.crc := by rw [hcomputed, hcrc, hc]
  have himage : l.asm.pkt = mkpkt cfg P := hpkt.trans (by rw [hc]; rfl)
  have hmark (b : Byte) : l.asm.pkt = mkpkt cfg [b] ↔ P = [b] := by
    rw [himage]
    exact mkpkt_inj hv hlen hv.payload_pos
  by_cases hr : P = [cfg.RETX_MARK]
  case pos =>
    rw [received_retx hc hr]
    exact completeFrame_retx hv hretx hright ((hmark _).mpr hr)
  have hr' : l.asm.pkt ≠ retxImage cfg := mt (hmark _).mp hr
  by_cases ha : P = [cfg.ACK_MARK]
  case pos =>
    rw [received_ack hc hr ha]
    exact completeFrame_ack hv hack hretx hright ((hmark _).mpr ha)
  have ha' : l.asm.pkt ≠ ackImage cfg := mt (hmark _).mp ha
  cases hq : l.pq.isFull with
  | true =>
    rw [received_dropped hc hr ha hq]
    exact completeFrame_dropped hack hretx hright hr' ha' hq
  | false =>
    rw [received_queued hc hr ha hq, ← himage]
    exact completeFrame_queued hv hack hretx hright hr' ha' hq

/-- On a line between frames, a frame at the front of the buffer is taken out of it and received, and the line is between
frames again. -/
theorem BetweenFrames.receives {rest : List Byte} (h : BetweenFrames cfg l) (hlen : P.length ≤ cfg.MAX_PAYLOAD)
    (hlive : l.rb.live = frameBytes P c ++ rest) :
    ∃ rb a, let l' := (Line.received cfg P c { l with rb := rb, asm := a }).restartAsm
      Relation.ReflTransGen (Advances cfg) l l' ∧ BetweenFrames cfg l' ∧ l'.rb.live = rest ∧ l'.pq.cap = l.pq.cap := by
  have hL : (BitVec.ofNat 8 P.length : Byte).toNat = P.length := by
    have := h.valid.payload_le
    simp; omega
  have hbytes : frameBytes P c ++ rest = BitVec.ofNat 8 P.length :: (P ++ c :: rest) := by simp [frameBytes]
  obtain ⟨l1, hfirst, h1⟩ := h.advances_length (hlive.trans hbytes)
  obtain ⟨l2, hdata, h2⟩ := h1.advances_data h.valid (by simp [hL]) (by omega)
  obtain ⟨rb, a, hrest, hpkt, hcrc⟩ := h2.advances_crc (by simp [hL])
  obtain ⟨hack, hretx⟩ := h.inv.sentinels h.configured
  have hdone := completeFrame_eq_received (l := { l with rb := rb, asm := a }) h.valid hack hretx hlen hpkt
  obtain ⟨hkept, hring⟩ := completeFrame_kept hdone
  have hsteps := Relation.ReflTransGen.head hfirst (hdata.trans (hcrc _ hdone))
  exact ⟨rb, a, hsteps, h.of_advances hsteps rfl, (congrArg RingBuffer.live hring.rb).trans hrest, hkept.pq_cap⟩

/-- The per-frame rule on the line is the one on what the peer and the application see of it. -/
theorem view_received (hv : cfg.Valid) (hlen : P.length ≤ cfg.MAX_PAYLOAD) (hq : l.pq.Inv) :
    (l.received cfg P c).view = LinkView.receive cfg l.pq.cap l.view (P, c) := by
  have hcomputed := computedCrc_fromWire hv hlen c
  by_cases hc : c = (mkpkt cfg P).crc
  case neg =>
    rw [received_corrupt hc, LinkView.receive, if_pos (by rw [hcomputed]; exact Ne.symm hc)]
    rfl
  have hright : ¬ (fromWire cfg P c).computedCrc cfg ≠ c := not_not_intro (hcomputed.trans hc.symm)
  by_cases hr : P = [cfg.RETX_MARK]
  case pos =>
    rw [received_retx hc hr, LinkView.receive, if_neg hright, if_pos hr]
    rfl
  by_cases ha : P = [cfg.ACK_MARK]
  case pos => rw [received_ack hc hr ha, LinkView.receive, if_neg hright, if_neg hr, if_pos ha]
  have hroom : l.pq.isFull = false ↔ l.view.queue.length < l.pq.cap - 1 := by
    rw [hq.isFull_eq_false_iff_count, ← hq.length_live]
    rfl
  cases hf : l.pq.isFull with
  | true =>
    rw [received_dropped hc hr ha hf, LinkView.receive, if_neg hright, if_neg hr, if_neg ha,
      if_neg (by rw [← hroom, hf]; decide)]
    rfl
  | false =>
    have himage : fromWire cfg P c = mkpkt cfg P := by rw [hc]; rfl
    rw [received_queued hc hr ha hf, LinkView.receive, if_neg hright, if_neg hr, if_neg ha, if_pos (hroom.mp hf), himage]
    simp only [Line.view, Line.sent, byteSend_tx, byteSend_pq, hq.live_put hf]
    rfl

end

/-! ## The obligations -/

/-- By induction over the frames, each of which leaves the line between frames. -/
theorem BetweenFrames.receives_all {cfg : Config} {l : Line} (h : BetweenFrames cfg l)
    {frames : List (List Byte × Byte)} (hlen : ∀ f ∈ frames, f.1.length ≤ cfg.MAX_PAYLOAD)
    (hlive : l.rb.live = frames.flatMap fun f => frameBytes f.1 f.2) :
    ∃ l', Relation.ReflTransGen (Advances cfg) l l' ∧ BetweenFrames cfg l' ∧ l'.rb.live = [] ∧
      l'.view = frames.foldl (LinkView.receive cfg l.pq.cap) l.view := by
  induction frames generalizing l with
  | nil => exact ⟨l, .refl, h, hlive, rfl⟩
  | cons f frames ih =>
    obtain ⟨hf, hlen⟩ := List.forall_mem_cons.mp hlen
    rw [List.flatMap_cons] at hlive
    obtain ⟨rb, a, hsteps, h1, hrest, hcap⟩ := h.receives hf hlive
    obtain ⟨l', hsteps', h', hempty, hview⟩ := ih h1 hlen hrest
    refine ⟨l', hsteps.trans hsteps', h', hempty, ?_⟩
    rw [hview, hcap, List.foldl_cons]
    congr 1
    exact view_received (l := { l with rb := rb, asm := a }) h.valid hf (h.inv.queue h.configured)

/-- Settles O34: the transitions of each frame in turn, then one that finds no byte. -/
theorem asmPollReceivesEveryWholeFrame : Obligations.AsmPollReceivesEveryWholeFrame := by
  intro s n l frames hs h hlen hlive
  obtain ⟨l', hsteps, h', hempty, hview⟩ := h.receives_all hlen hlive
  exact ⟨l', exec_asmPoll_of_advances hs h hsteps h' hempty, h', hempty, hview⟩

/-- Settles O35: the one frame is received by its class. -/
theorem asmRoundTripCorruptionSentinelsAndBackpressure : Obligations.AsmRoundTripCorruptionSentinelsAndBackpressure := by
  intro s n l P c hs h hlen hlive
  obtain ⟨rb, a, hsteps, h', hempty, -⟩ := h.receives (rest := []) hlen (hlive.trans (List.append_nil _).symm)
  have hexec := exec_asmPoll_of_advances hs h hsteps h' hempty
  refine ⟨fun hr ha hc hroom => ⟨_, hexec, ?_⟩, fun hc => ⟨_, hexec, ?_⟩, fun hmark => ⟨_, hexec, ?_⟩,
    fun hr ha hc hfull => ⟨_, hexec, ?_⟩⟩
  · rw [received_queued (l := { l with rb := rb, asm := a }) hc hr ha hroom]
    exact ⟨(h.inv.queue h.configured).live_put hroom _, rfl, rfl⟩
  · rw [received_corrupt hc]
    exact ⟨rfl, rfl, rfl, rfl⟩
  · by_cases hc : c = (mkpkt s.config P).crc
    case neg => rw [received_corrupt hc]; rfl
    by_cases hr : P = [s.config.RETX_MARK]
    case pos => rw [received_retx hc hr]; rfl
    rw [received_ack hc hr (hmark.resolve_left hr)]
    rfl
  · rw [received_dropped (l := { l with rb := rb, asm := a }) hc hr ha hfull]
    exact ⟨rfl, rfl, rfl, rfl⟩

end Sys2Proof.Machine
end

section
/-! PQ.ENQ, PQ.DEQ and PQ.AVAIL on the line they name (43_packet_queue.md R121 to R123), and the packet queue as a bounded
queue of packets (R124, R125, 10_state.md R28). -/

namespace Sys2Proof.Machine

/-! ## The queue: its count, and its oldest packet -/

theorem PacketQueue.isEmpty_iff {q : PacketQueue} : q.isEmpty = true ↔ q.rd = q.wr := beq_iff_eq

theorem PacketQueue.isEmpty_eq_false_iff {q : PacketQueue} : q.isEmpty = false ↔ q.rd ≠ q.wr := beq_eq_false_iff_ne

/-- R124: the mask bounds the number of queued packets by `Q - 1`. -/
theorem PacketQueue.count_le (q : PacketQueue) : q.count ≤ q.cap - 1 := Nat.and_le_right

section
variable {q : PacketQueue} (h : q.Inv)
include h

/-- R28: the indices are equal when no packet is queued. -/
theorem PacketQueue.Inv.isEmpty_iff_count : q.isEmpty = true ↔ q.count = 0 := by
  have hw := h.wr_lt
  have hr := h.rd_lt
  rw [PacketQueue.isEmpty_iff, h.count_eq]
  split_ifs <;> omega

theorem PacketQueue.Inv.isEmpty_eq_false_iff_count : q.isEmpty = false ↔ 0 < q.count := by
  rw [← Bool.not_eq_true, h.isEmpty_iff_count, Nat.pos_iff_ne_zero]

theorem PacketQueue.Inv.isFull_iff_count : q.isFull = true ↔ q.count = q.cap - 1 := by
  rw [← Bool.not_eq_false, h.isFull_eq_false_iff_count, Nat.not_lt]
  exact ⟨q.count_le.antisymm, Eq.ge⟩

theorem PacketQueue.Inv.count_drop (hne : q.isEmpty = false) : q.drop.count + 1 = q.count :=
  ahead_advance_read h.cap_pow2 h.wr_lt h.rd_lt (PacketQueue.isEmpty_eq_false_iff.mp hne)

/-- The oldest packet is the one at the read index, and PQ.DEQ leaves the others. -/
theorem PacketQueue.Inv.exists_live_eq_cons (hne : q.isEmpty = false) :
    ∃ p, q.slot.read q.rd = some p ∧ q.live = p :: q.drop.live := by
  have hfirst := h.live_filled 0 (h.isEmpty_eq_false_iff_count.mp hne)
  rw [mask_eq_mod h.cap_pow2, Nat.add_zero, Nat.mod_eq_of_lt h.rd_lt] at hfirst
  obtain ⟨p, hread⟩ := Option.ne_none_iff_exists'.mp hfirst
  have hring := Memory.ring_succ h.cap_pow2 h.rd_lt hread q.drop.count
  rw [h.count_drop hne] at hring
  exact ⟨p, hread, hring⟩

end

/-! ## On the line they name -/

theorem pqDeq_empty {l : Line} (h : l.pq.isEmpty = true) : pqDeq l = .next (l, none) := if_pos h

theorem pqDeq_oldest {l : Line} {p : Image} (h : l.pq.isEmpty = false) (hp : l.pq.slot.read l.pq.rd = some p) :
    pqDeq l = .next ({ l with pq := l.pq.drop }, some p) := by
  simp [pqDeq, h, hp]

section
variable {s : State} {n : Nat} {l : Line} (hs : s.IssuesOn .consumer n l) (hc : l.configured = true)
include hs hc

theorem exec_pqEnq (p : Image) : exec (.pqEnq n p) s = .next (s.after n (pqEnq p l).1 (.bool (pqEnq p l).2)) :=
  consumerOp_of_next hs hc rfl

theorem exec_pqEnq_full (h : l.pq.isFull = true) (p : Image) :
    exec (.pqEnq n p) s = .next (s.after n l (.bool false)) := by
  rw [exec_pqEnq hs hc, pqEnq_full h]

theorem exec_pqEnq_room (h : l.pq.isFull = false) (p : Image) :
    exec (.pqEnq n p) s = .next (s.after n { l with pq := l.pq.put p } (.bool true)) := by
  rw [exec_pqEnq hs hc, pqEnq_room h]

theorem exec_pqDeq_empty (h : l.pq.isEmpty = true) : exec (.pqDeq n) s = .next (s.after n l (.optPacket none)) :=
  consumerOp_answering_of_next hs hc (pqDeq_empty h)

theorem exec_pqDeq_oldest {p : Image} (h : l.pq.isEmpty = false) (hp : l.pq.slot.read l.pq.rd = some p) :
    exec (.pqDeq n) s = .next (s.after n { l with pq := l.pq.drop } (.optPacket (some p))) :=
  consumerOp_answering_of_next hs hc (pqDeq_oldest h hp)

theorem exec_pqAvail : exec (.pqAvail n) s = .next (s.after n l (.bool !l.pq.isEmpty)) :=
  consumerOp_of_next hs hc rfl

end

/-! ## The obligations -/

/-- Settles O39: the queued packets are the queue; PQ.ENQ appends to them until they are `Q - 1`, PQ.DEQ takes the first,
and PQ.AVAIL says whether there is one. -/
theorem packetQueueIsABoundedQueue : Obligations.PacketQueueIsABoundedQueue := by
  intro s n l hs hc h
  refine ⟨h.length_live, l.pq.count_le, fun p hroom => ?_, fun p hfull => ?_, fun hpos => ?_, fun hzero => ?_⟩
  · have hf := h.isFull_eq_false_iff_count.mpr hroom
    exact ⟨_, exec_pqEnq_room hs hc hf p, h.live_put hf p, h.put p⟩
  · exact exec_pqEnq_full hs hc (h.isFull_iff_count.mpr hfull) p
  · have hne := h.isEmpty_eq_false_iff_count.mpr hpos
    obtain ⟨p, hread, hlive⟩ := h.exists_live_eq_cons hne
    refine ⟨?_, p, _, exec_pqDeq_oldest hs hc hne hread, hlive, h.drop hne⟩
    rw [exec_pqAvail hs hc, hne, Bool.not_false]
  · have he := h.isEmpty_iff_count.mpr hzero
    refine ⟨?_, exec_pqDeq_empty hs hc he⟩
    rw [exec_pqAvail hs hc, he, Bool.not_true]

/-- Settles O36: by whether the next write index is the read index. -/
theorem pqEnqStoresOrRefuses : Obligations.PqEnqStoresOrRefuses := by
  intro s n p l hs hc
  exact ⟨fun hfull => exec_pqEnq_full hs hc (PacketQueue.isFull_iff.mpr hfull) p,
    fun hroom => exec_pqEnq_room hs hc (PacketQueue.isFull_eq_false_iff.mpr hroom) p, rfl⟩

/-- Settles O37: by whether the indices are equal. -/
theorem pqDeqReturnsTheOldestPacket : Obligations.PqDeqReturnsTheOldestPacket := by
  intro s n l hs hc
  exact ⟨fun he => exec_pqDeq_empty hs hc (PacketQueue.isEmpty_iff.mpr he),
    fun hne _ hp => exec_pqDeq_oldest hs hc (PacketQueue.isEmpty_eq_false_iff.mpr hne) hp, rfl⟩

/-- Settles O38: PQ.AVAIL's test is that PQ.DEQ's emptiness test fails. -/
theorem pqAvailComparesTheIndices : Obligations.PqAvailComparesTheIndices := by
  intro s n l hs hc
  have havail : (!l.pq.isEmpty) = decide (l.pq.rd ≠ l.pq.wr) := by rw [decide_not]; rfl
  exact ⟨havail ▸ exec_pqAvail hs hc, rfl⟩

end Sys2Proof.Machine
end

section
/-! The frame of a payload (44_frame_tx.md R128, 30_encoding.md R72, R74): the pads of its image are not sent, and the
receiver puts them back. -/

namespace Sys2Proof

theorem length_frameBytes (data : List Byte) (crc : Byte) : (frameBytes data crc).length = data.length + 2 := by
  simp [frameBytes]

section
variable {cfg : Config} {P : List Byte} (hv : cfg.Valid) (h : P.length ≤ cfg.MAX_PAYLOAD)
include hv h

/-- R7, R69: one byte is enough to count a payload. -/
theorem mkpkt_length_toNat : (mkpkt cfg P).length.toNat = P.length := by
  have hmax := hv.payload_le
  exact Nat.mod_eq_of_lt (by omega)

/-- R128: the count stops the frame before the pads. -/
theorem wire_mkpkt : wire (mkpkt cfg P) = frameBytes P (mkpkt cfg P).crc := by
  have hdata : (padded cfg P).take P.length = P := List.take_left
  rw [wire, mkpkt_length_toNat hv h]
  exact congrArg (fun data => (mkpkt cfg P).length :: (data ++ [(mkpkt cfg P).crc])) hdata

theorem length_wire_mkpkt : (wire (mkpkt cfg P)).length = P.length + 2 := by
  rw [wire_mkpkt hv h, length_frameBytes]

end

/-- Settles O23: the frame is cut off by its count; the rebuilt image has the payload's count and data field, so with
the payload's CRC byte it is its image. -/
theorem frameCarriesAPayloadWithoutItsPads : Obligations.FrameCarriesAPayloadWithoutItsPads := by
  intro cfg P c hv h
  refine ⟨?_, length_wire_mkpkt hv h, rfl, rfl⟩
  rw [wire_mkpkt hv h, mkpkt_crc hv h]
  rfl

end Sys2Proof
end

section
/-! The chunks of a payload (44_frame_tx.md R130, R131): one at the front of those of the rest, and what follows from
that by induction. -/

namespace Sys2Proof.Machine

/-- One more group of up to `M` for the first `M` of `L` things. -/
theorem ceil_div_eq_succ {L M : Nat} (hM : 1 ≤ M) (hL : 0 < L) :
    (L + (M - 1)) / M = (L - M + (M - 1)) / M + 1 := by
  have hsucc : (L + (M - 1)) / M = (L - 1) / M + 1 := by
    rw [show L + (M - 1) = L - 1 + M by omega, Nat.add_div_right _ hM]
  have hrest : (L - M + (M - 1)) / M = (L - 1) / M := by
    rcases Nat.le_total M L with hle | hle
    · rw [show L - M + (M - 1) = L - 1 by omega]
    · rw [Nat.div_eq_of_lt (by omega), Nat.div_eq_of_lt (by omega)]
  rw [hsucc, hrest]

theorem length_chunks (cfg : Config) (P : List Byte) :
    (chunks cfg P).length = (P.length + (cfg.MAX_PAYLOAD - 1)) / cfg.MAX_PAYLOAD := by
  simp [chunks]

section
variable {cfg : Config} (hv : cfg.Valid)
include hv

theorem chunks_nil : chunks cfg [] = [] := by
  have hpos := hv.payload_pos
  rw [← List.length_eq_zero_iff, length_chunks, List.length_nil]
  exact Nat.div_eq_of_lt (by omega)

theorem chunks_of_ne_nil {P : List Byte} (hP : P ≠ []) :
    chunks cfg P = P.take cfg.MAX_PAYLOAD :: chunks cfg (P.drop cfg.MAX_PAYLOAD) := by
  simp only [chunks, ceil_div_eq_succ hv.payload_pos (List.length_pos_iff.mpr hP), List.length_drop,
    List.range_succ_eq_map, List.map_cons, List.map_map, Nat.mul_zero, List.drop_zero]
  congr 1
  refine List.map_congr_left fun i _ => ?_
  simp [List.drop_drop, Nat.mul_succ, Nat.add_comm]

/-- Induction on a payload by its chunks, as TX.SEND takes them. -/
theorem chunks_induction {motive : List Byte → Prop} (nil : motive [])
    (chunk : ∀ P, P ≠ [] → motive (P.drop cfg.MAX_PAYLOAD) → motive P) (P : List Byte) : motive P := by
  induction hL : P.length using Nat.strong_induction_on generalizing P with
  | h L ih =>
    by_cases hP : P = []
    · exact hP ▸ nil
    · have hpos := hv.payload_pos
      have hlen := List.length_pos_iff.mpr hP
      exact chunk P hP (ih _ (by rw [List.length_drop]; omega) _ rfl)

theorem flatten_chunks (P : List Byte) : (chunks cfg P).flatten = P := by
  induction P using chunks_induction hv with
  | nil => rw [chunks_nil hv, List.flatten_nil]
  | chunk P hP ih => rw [chunks_of_ne_nil hv hP, List.flatten_cons, ih, List.take_append_drop]

theorem length_of_mem_chunks (P : List Byte) : ∀ c ∈ chunks cfg P, 1 ≤ c.length ∧ c.length ≤ cfg.MAX_PAYLOAD := by
  induction P using chunks_induction hv with
  | nil => simp [chunks_nil hv]
  | chunk P hP ih =>
    have hpos := hv.payload_pos
    have hlen := List.length_pos_iff.mpr hP
    rw [chunks_of_ne_nil hv hP]
    refine List.forall_mem_cons.mpr ⟨?_, ih⟩
    rw [List.length_take]
    omega

/-- R130: a chunk that another follows is a whole one. -/
theorem length_of_mem_dropLast_chunks (P : List Byte) : ∀ c ∈ (chunks cfg P).dropLast, c.length = cfg.MAX_PAYLOAD := by
  induction P using chunks_induction hv with
  | nil => simp [chunks_nil hv]
  | chunk P hP ih =>
    rw [chunks_of_ne_nil hv hP]
    by_cases hrest : P.drop cfg.MAX_PAYLOAD = []
    · simp [hrest, chunks_nil hv]
    · have hmore : chunks cfg (P.drop cfg.MAX_PAYLOAD) ≠ [] := by simp [chunks_of_ne_nil hv hrest]
      have hlen := List.length_pos_iff.mpr hrest
      rw [List.dropLast_cons_of_ne_nil hmore]
      refine List.forall_mem_cons.mpr ⟨?_, ih⟩
      rw [List.length_drop] at hlen
      rw [List.length_take]
      omega

/-- R131: each frame sends two bytes besides its chunk. -/
theorem length_frames_chunks (P : List Byte) :
    ((chunks cfg P).flatMap fun c => wire (mkpkt cfg c)).length = P.length + 2 * (chunks cfg P).length := by
  induction P using chunks_induction hv with
  | nil => simp [chunks_nil hv]
  | chunk P hP ih =>
    rw [chunks_of_ne_nil hv hP, List.flatMap_cons, List.length_append, ih,
      length_wire_mkpkt hv (List.length_take_le _ _), List.length_take, List.length_drop, List.length_cons]
    omega

end

end Sys2Proof.Machine
end

section
/-! TX.FRAME and TX.SEND (44_frame_tx.md R129 to R131): on the line alone, and on the line they name. -/

namespace Sys2Proof.Machine

/-! ## Operations of context K that answer nothing -/

theorem noResponse_of_refused {f : Line → Host.Outcome Line Fault Refusal} {l : Line} {e : Refusal}
    (h : f l = .refused e) : noResponse f l = .refused e := by simp [noResponse, h]

theorem consumerOp_of_refused {n : Nat} {f : Line → LineResult} {s : State} {l : Line} {e : Refusal}
    (hs : s.IssuesOn .consumer n l) (hc : l.configured = true) (hf : f l = .refused e) :
    consumerOp n f s = .refused e := by
  rw [consumerOp, requireContext_pass hs.1]
  exact onLine_of_refused hs.2 (by rw [whenConfigured, if_pos hc, hf])

/-! ## The packets of a payload -/

/-- The line after the packets `ps` have been sent in order: their frames are in `tx`, and the last one is cached. -/
def Line.sentAll (ps : List Image) (l : Line) : Line :=
  { l with tx := l.tx ++ ps.flatMap wire, lastTx := ps.getLast?.or l.lastTx }

theorem Line.sentAll_nil (l : Line) : l.sentAll [] = l := by simp [Line.sentAll]

theorem Line.sentAll_cons (p : Image) (ps : List Image) (l : Line) : l.sentAll (p :: ps) = (l.sent p).sentAll ps := by
  have hlast : (p :: ps).getLast?.or l.lastTx = ps.getLast?.or (some p) := by
    cases h : ps.getLast? <;> simp [List.getLast?_cons, h]
  simp [Line.sentAll, Line.sent, hlast]

section
variable {cfg : Config} (hv : cfg.Valid)
include hv

/-- R128, R129: the image of a payload that fits is sent. -/
theorem txFrame_mkpkt {P : List Byte} (h : P.length ≤ cfg.MAX_PAYLOAD) (l : Line) :
    txFrame cfg (mkpkt cfg P) l = .next (l.sent (mkpkt cfg P)) :=
  txFrame_of_le l (by rwa [mkpkt_length_toNat hv h])

/-- R130: with a chunk's turn for every byte, the loop sends the image of every chunk. -/
theorem txSendUpTo_eq_sentAll {fuel : Nat} {P : List Byte} (hfuel : P.length ≤ fuel) (l : Line) :
    txSendUpTo cfg fuel P l = .next (l.sentAll ((chunks cfg P).map (mkpkt cfg))) := by
  induction fuel generalizing P l with
  | zero =>
    obtain rfl : P = [] := List.length_eq_zero_iff.mp (Nat.le_zero.mp hfuel)
    simp [txSendUpTo, chunks_nil hv, Line.sentAll_nil]
  | succ fuel ih =>
    by_cases hP : P = []
    · simp [txSendUpTo, hP, chunks_nil hv, Line.sentAll_nil]
    · have hpos := hv.payload_pos
      have hrest : (P.drop cfg.MAX_PAYLOAD).length ≤ fuel := by rw [List.length_drop]; omega
      rw [chunks_of_ne_nil hv hP, List.map_cons, Line.sentAll_cons, ← ih hrest]
      simp [txSendUpTo, hP, txFrame_mkpkt hv (List.length_take_le _ _)]

/-- R130: what TX.SEND leaves, with its two cases of `last_tx` apart. -/
theorem sentAll_chunks (P : List Byte) (l : Line) :
    l.sentAll ((chunks cfg P).map (mkpkt cfg)) =
      { l with
        tx := l.tx ++ (chunks cfg P).flatMap fun c => wire (mkpkt cfg c)
        lastTx := if P = [] then l.lastTx else ((chunks cfg P).map (mkpkt cfg)).getLast? } := by
  have hlast : ((chunks cfg P).map (mkpkt cfg)).getLast?.or l.lastTx =
      if P = [] then l.lastTx else ((chunks cfg P).map (mkpkt cfg)).getLast? := by
    split_ifs with hP
    · simp [hP, chunks_nil hv]
    · simp [chunks_of_ne_nil hv hP, List.getLast?_cons]
  rw [Line.sentAll, List.flatMap_map, hlast]

end

/-! ## On the line they name -/

section
variable {s : State} {n : Nat} {l : Line} (hs : s.IssuesOn .consumer n l) (hc : l.configured = true)
include hs hc

theorem exec_txFrame_of_le {p : Image} (h : p.length.toNat ≤ s.config.MAX_PAYLOAD) :
    exec (.txFrame n p) s = .next (s.after n (l.sent p) .unit) :=
  consumerOp_of_next hs hc (noResponse_of_next (txFrame_of_le l h))

theorem exec_txFrame_tooLong {p : Image} (h : s.config.MAX_PAYLOAD < p.length.toNat) :
    exec (.txFrame n p) s = .refused .frameTooLong :=
  consumerOp_of_refused hs hc (noResponse_of_refused (if_pos h))

theorem exec_txSend (hv : s.config.Valid) (P : List Byte) :
    exec (.txSend n P) s = .next (s.after n (l.sentAll ((chunks s.config P).map (mkpkt s.config))) .unit) :=
  consumerOp_of_next hs hc (noResponse_of_next (txSendUpTo_eq_sentAll hv le_rfl l))

end

/-! ## The obligations -/

/-- Settles O41: TX.SEND's loop sends the chunks of the payload, whose laws follow by induction on them; the case of
thirty bytes by its three chunks. -/
theorem txSendSplitsAPayload : Obligations.TxSendSplitsAPayload := by
  refine ⟨fun s n P l hs hv hc => ⟨?_, rfl⟩, fun cfg P hv => ?_, fun P hP => ?_⟩
  · rw [exec_txSend hs hc hv, sentAll_chunks hv]
  · have hbytes := length_frames_chunks hv P
    rw [length_chunks] at hbytes
    exact ⟨flatten_chunks hv P, length_chunks cfg P, length_of_mem_dropLast_chunks hv P,
      length_of_mem_chunks hv P, hbytes⟩
  · simp [chunks, Config.default, hP, List.range_succ]

/-- Settles O40: by whether the packet's `length` is one a frame can count. -/
theorem txFrameSendsAndRemembers : Obligations.TxFrameSendsAndRemembers := by
  intro s n p l hs hc
  refine ⟨exec_txFrame_tooLong hs hc, fun h => ?_, rfl⟩
  exact exec_txFrame_of_le hs hc h

end Sys2Proof.Machine
end

section
/-! LINE.INIT on the line it names (45_line_api.md R135): its checks in order, and what it leaves. -/

namespace Sys2Proof.Machine

theorem exec_lineInit_invalidLine {s : State} {n c : Nat} {a : Bool} (hx : s.ctx = .init) (hl : s.lines[n]? = none) :
    exec (.lineInit n c a) s = .next (s.configError .invalidLine) := by
  simp [exec, execLineInit, requireContext_pass hx, hl]

section
variable {s : State} {n c : Nat} {a : Bool} {l : Line} (hs : s.IssuesOn .init n l)
include hs

theorem exec_lineInit_alreadyConfigured (h : l.configured = true ∨ l.rb.configured = true) :
    exec (.lineInit n c a) s = .refused .alreadyConfigured := by
  simp [exec, execLineInit, requireContext_pass hs.1, hs.2, h]

variable (hc : l.configured = false) (hrb : l.rb.configured = false)
include hc hrb

theorem exec_lineInit_invalidCapacity (hp : isPow2 c = false) :
    exec (.lineInit n c a) s = .next (s.configError .invalidCapacity) := by
  simp [exec, execLineInit, requireContext_pass hs.1, hs.2, hc, hrb, hp]

theorem exec_lineInit_allocationFailure (hp : isPow2 c = true) (ha : a = false) :
    exec (.lineInit n c a) s = .next (s.configError .allocationFailure) := by
  simp [exec, execLineInit, requireContext_pass hs.1, hs.2, hc, hrb, hp, ha]

theorem exec_lineInit_ok (hp : isPow2 c = true) (ha : a = true) :
    exec (.lineInit n c a) s = .next (s.after n (initLine s.config c l) .ok) := by
  simp [exec, execLineInit, requireContext_pass hs.1, hs.2, hc, hrb, hp, ha, State.after]

end

/-- Settles O43: by the line number, whether the line is set up, the capacity and the allocation, in this order. -/
theorem lineInitInitialisesOrFails : Obligations.LineInitInitialisesOrFails := by
  intro s n c a hx
  refine ⟨exec_lineInit_invalidLine hx, fun l hl => exec_lineInit_alreadyConfigured ⟨hx, hl⟩,
    fun l hl hc hrb => ⟨?_, ?_, ?_⟩, rfl⟩
  · exact exec_lineInit_invalidCapacity ⟨hx, hl⟩ hc hrb
  · exact exec_lineInit_allocationFailure ⟨hx, hl⟩ hc hrb
  · exact exec_lineInit_ok ⟨hx, hl⟩ hc hrb

end Sys2Proof.Machine
end

section
/-! What an instruction runs on the line it names (45_line_api.md R136, R137, R143): the checks of its kind, then a
function of that line and of the parameters. From it, what is refused for its line, what an instruction leaves alone and
what it depends on. -/

namespace Sys2Proof.Machine

/-- The kinds of instruction that name line `n`: the two set-up operations, the two that need a ring buffer only, and
those of each context that run some `f` behind that context's checks. -/
inductive ActsOnLine (n : Nat) : Instr → Prop
  | rbSetup (c : Nat) : ActsOnLine n (.rbSetup n c)
  | lineInit (c : Nat) (a : Bool) : ActsOnLine n (.lineInit n c a)
  | rbRead : ActsOnLine n (.rbRead n)
  | rbIsEmpty : ActsOnLine n (.rbIsEmpty n)
  | producer {i : Instr} (f : Config → Line → LineResult) (hctx : i.context? = some .producer)
      (hexec : ∀ s, exec i s = producerOp n (f s.config) s) : ActsOnLine n i
  | consumer {i : Instr} (f : Config → Line → LineResult) (hctx : i.context? = some .consumer)
      (hexec : ∀ s, exec i s = consumerOp n (f s.config) s) : ActsOnLine n i

theorem actsOnLine_arrival {i : Instr} {n : Nat} (bs : Config → List Byte) (hctx : i.context? = some .producer)
    (hexec : ∀ s, exec i s = arrival n (bs s.config) s) : ActsOnLine n i :=
  .producer (fun cfg l => .next ((deliver (bs cfg) l).1, .bools (deliver (bs cfg) l).2)) hctx hexec

theorem actsOnLine_of_line {i : Instr} {n : Nat} (h : i.line? = some n) : ActsOnLine n i := by
  cases i with
  | rbSetup m c => cases h; exact .rbSetup c
  | rbWrite m b =>
    cases h; exact .producer (fun _ l => .next ((rbWrite b l).1, .bool (rbWrite b l).2)) rfl fun _ => rfl
  | rbRead m => cases h; exact .rbRead
  | rbIsEmpty m => cases h; exact .rbIsEmpty
  | crc8 bs k => cases h
  | asmStep m => cases h; exact .consumer (fun cfg l => answering .mark (asmStep cfg l)) rfl fun _ => rfl
  | asmPoll m => cases h; exact .consumer (fun cfg l => answering pollResponse (asmPoll cfg l)) rfl fun _ => rfl
  | pqEnq m p => cases h; exact .consumer (fun _ l => .next ((pqEnq p l).1, .bool (pqEnq p l).2)) rfl fun _ => rfl
  | pqDeq m => cases h; exact .consumer (fun _ l => answering .optPacket (pqDeq l)) rfl fun _ => rfl
  | pqAvail m => cases h; exact .consumer (fun _ l => .next (l, .bool (pqAvail l))) rfl fun _ => rfl
  | txFrame m p => cases h; exact .consumer (fun cfg => noResponse (txFrame cfg p)) rfl fun _ => rfl
  | txSend m bs => cases h; exact .consumer (fun cfg => noResponse (txSend cfg bs)) rfl fun _ => rfl
  | lineInit m c a => cases h; exact .lineInit c a
  | frameData m data crc => cases h; exact actsOnLine_arrival (fun _ => frameBytes data crc) rfl fun _ => rfl
  | frameAck m => cases h; exact actsOnLine_arrival ackFrame rfl fun _ => rfl
  | frameRetx m => cases h; exact actsOnLine_arrival retxFrame rfl fun _ => rfl
  | packetImage p => cases h

/-! ## Refusals for the line (R136, R137) -/

section
variable {s : State} {n : Nat} {i : Instr}

theorem exec_noSuchLine (hx : i.context? = some s.ctx) (hn : i.line? = some n) (hl : s.lines[n]? = none)
    (hi : ∀ c a, i ≠ .lineInit n c a) : exec i s = .refused .noSuchLine := by
  cases actsOnLine_of_line hn with
  | rbSetup c =>
    have hinit : s.ctx = .init := (Option.some.inj hx).symm
    simp [exec, execRbSetup, requireContext_pass hinit, hl]
  | lineInit c a => exact absurd rfl (hi c a)
  | rbRead => exact (requireContext_pass (Option.some.inj hx).symm).trans (onLine_noSuchLine hl _)
  | rbIsEmpty => exact (requireContext_pass (Option.some.inj hx).symm).trans (onLine_noSuchLine hl _)
  | producer f hctx hexec =>
    rw [hexec, producerOp, requireContext_pass (Option.some.inj (hx.symm.trans hctx)), onLine_noSuchLine hl]
  | consumer f hctx hexec =>
    rw [hexec, consumerOp, requireContext_pass (Option.some.inj (hx.symm.trans hctx)), onLine_noSuchLine hl]

variable {l : Line}

/-- R137: the operations of context K but RB.READ and RB.ISEMPTY need LINE.INIT. -/
theorem exec_consumer_notConfigured (hs : s.IssuesOn .consumer n l) (hctx : i.context? = some .consumer)
    (hn : i.line? = some n) (hc : l.configured = false) (hread : i ≠ .rbRead n) (hempty : i ≠ .rbIsEmpty n) :
    exec i s = .refused .notConfigured := by
  cases actsOnLine_of_line hn with
  | rbSetup c => cases hctx
  | lineInit c a => cases hctx
  | rbRead => exact absurd rfl hread
  | rbIsEmpty => exact absurd rfl hempty
  | producer f hp => cases hp.symm.trans hctx
  | consumer f _ hexec =>
    rw [hexec, consumerOp, requireContext_pass hs.1]
    exact onLine_of_refused hs.2 (by simp [whenConfigured, hc])

/-- R137: the operations of context P need a ring buffer that is set up. -/
theorem exec_producer_notConfigured (hs : s.IssuesOn .producer n l) (hctx : i.context? = some .producer)
    (hn : i.line? = some n) (hc : l.rb.configured = false) : exec i s = .refused .notConfigured := by
  cases actsOnLine_of_line hn with
  | rbSetup c => cases hctx
  | lineInit c a => cases hctx
  | rbRead => cases hctx
  | rbIsEmpty => cases hctx
  | producer f _ hexec =>
    rw [hexec, producerOp, requireContext_pass hs.1]
    exact onLine_of_refused hs.2 (by simp [hc])
  | consumer f hk => cases hk.symm.trans hctx

theorem exec_rbRead_notConfigured (hs : s.IssuesOn .consumer n l) (hc : l.rb.configured = false) :
    exec (.rbRead n) s = .refused .notConfigured :=
  (requireContext_pass hs.1).trans (onLine_of_refused hs.2 (by simp [answering, rbRead, hc]))

theorem exec_rbIsEmpty_notConfigured (hs : s.IssuesOn .consumer n l) (hc : l.rb.configured = false) :
    exec (.rbIsEmpty n) s = .refused .notConfigured :=
  (requireContext_pass hs.1).trans (onLine_of_refused hs.2 (by simp [rbIsEmpty, hc]))

end

/-- Settles O47: by the kind of the instruction, whose check of the line comes before what it runs on it. -/
theorem unknownAndUnconfiguredLinesAreRefused : Obligations.UnknownAndUnconfiguredLinesAreRefused := by
  intro i s c n hctx hx hn
  refine ⟨exec_noSuchLine (hx ▸ hctx) hn, fun l hl hc hk hread hempty => ?_, fun l hl hc hneeds => ?_⟩
  · subst hk
    exact exec_consumer_notConfigured ⟨hx, hl⟩ hctx hn hc hread hempty
  · obtain rfl | rfl | rfl := hneeds
    · exact exec_producer_notConfigured ⟨hx, hl⟩ hctx hn hc
    · exact exec_rbRead_notConfigured ⟨hx.trans (Option.some.inj hctx).symm, hl⟩ hc
    · exact exec_rbIsEmpty_notConfigured ⟨hx.trans (Option.some.inj hctx).symm, hl⟩ hc

/-! ## What an instruction leaves alone (R143, R8) -/

/-- Settles O48: an instruction that completes answers, fails as a set-up operation, or writes the one line it names. -/
theorem instructionsChangeOnlyTheirLine : Obligations.InstructionsChangeOnlyTheirLine := by
  intro i s t h
  obtain ⟨r, rfl⟩ | ⟨c, rfl⟩ | ⟨n, l, l', r, hn, -, -, rfl⟩ := exec_next h
  · exact ⟨fun _ _ => rfl, rfl, rfl, rfl, rfl⟩
  · exact ⟨fun _ _ => rfl, rfl, rfl, rfl, rfl⟩
  · refine ⟨fun k hk => List.getElem?_set_ne ?_, List.length_set, rfl, rfl, rfl⟩
    rintro rfl
    exact hk hn

/-! ## What an instruction depends on (R143) -/

/-- The two states agree on line `n`, the issuing context and the parameters. -/
structure SameView (n : Nat) (s s' : State) : Prop where
  line : s'.lines[n]? = s.lines[n]?
  ctx : s'.ctx = s.ctx
  config : s'.config = s.config

/-- `o` completes, leaves line `n` as it is in `t`, and answers as `t` does. -/
def EndsAs (n : Nat) (t : State) (o : Host.Outcome State Fault Refusal) : Prop :=
  ∃ t' : State, o = .next t' ∧ t'.lines[n]? = t.lines[n]? ∧ t'.resp = t.resp

section
variable {s s' t : State} {n : Nat} (hv : SameView n s s')
include hv

theorem SameView.endsAs_configError (c : ConfigCause) : EndsAs n (s.configError c) (.next (s'.configError c)) :=
  ⟨_, rfl, hv.line, rfl⟩

theorem SameView.endsAs_after {l : Line} (hl : s.lines[n]? = some l) (l' : Line) (r : Response) :
    EndsAs n (s.after n l' r) (.next (s'.after n l' r)) :=
  ⟨_, rfl, (after_lines_self (hv.line.trans hl) l' r).trans (after_lines_self hl l' r).symm, rfl⟩

theorem SameView.endsAs_onLine {f : Line → LineResult} (h : onLine n f s = .next t) : EndsAs n t (onLine n f s') := by
  obtain ⟨l, l', r, hl, hf, rfl⟩ := onLine_next h
  rw [onLine_of_next (hv.line.trans hl) hf]
  exact hv.endsAs_after hl l' r

/-- Whatever is run on line `n` by an issuing context sees that line only. -/
theorem SameView.endsAs_requireContext {c : Context} {f : Line → LineResult}
    (h : requireContext c s (onLine n f s) = .next t) : EndsAs n t (requireContext c s' (onLine n f s')) := by
  obtain ⟨hx, h⟩ := requireContext_next h
  rw [requireContext_pass (hv.ctx.trans hx)]
  exact hv.endsAs_onLine h

theorem SameView.endsAs_rbSetup {c : Nat} (h : exec (.rbSetup n c) s = .next t) :
    EndsAs n t (exec (.rbSetup n c) s') := by
  obtain ⟨hx, h⟩ := requireContext_next h
  simp only [exec, execRbSetup, requireContext_pass (hv.ctx.trans hx), hv.line]
  cases hl : s.lines[n]? with
  | none => simp [hl] at h
  | some l =>
    simp only [hl] at h ⊢
    split_ifs at h ⊢
    · cases h; exact hv.endsAs_configError _
    · cases h; exact hv.endsAs_after hl _ _

theorem SameView.endsAs_lineInit {c : Nat} {a : Bool} (h : exec (.lineInit n c a) s = .next t) :
    EndsAs n t (exec (.lineInit n c a) s') := by
  obtain ⟨hx, h⟩ := requireContext_next h
  simp only [exec, execLineInit, requireContext_pass (hv.ctx.trans hx), hv.line, hv.config]
  cases hl : s.lines[n]? with
  | none => simp only [hl] at h ⊢; cases h; exact hv.endsAs_configError _
  | some l =>
    simp only [hl] at h ⊢
    split_ifs at h ⊢
    · cases h; exact hv.endsAs_configError _
    · cases h; exact hv.endsAs_configError _
    · cases h; exact hv.endsAs_after hl _ _

end

/-- Settles O49: a set-up operation looks up its line only, and any other instruction runs a function of it. -/
theorem instructionsReadOnlyTheirLine : Obligations.InstructionsReadOnlyTheirLine := by
  intro i s s' t n hn hline hctx hconfig h
  have hv : SameView n s s' := ⟨hline, hctx, hconfig⟩
  change EndsAs n t (exec i s')
  cases actsOnLine_of_line hn with
  | rbSetup c => exact hv.endsAs_rbSetup h
  | lineInit c a => exact hv.endsAs_lineInit h
  | rbRead =>
    simp only [exec, execRbRead, hconfig]
    exact hv.endsAs_requireContext h
  | rbIsEmpty =>
    simp only [exec, execRbIsEmpty, hconfig]
    exact hv.endsAs_requireContext h
  | producer f _ hexec =>
    rw [hexec, hconfig]
    exact hv.endsAs_requireContext ((hexec s).symm.trans h)
  | consumer f _ hexec =>
    rw [hexec, hconfig]
    exact hv.endsAs_requireContext ((hexec s).symm.trans h)

end Sys2Proof.Machine
end

section
/-! An instruction issued by a context that may not issue it, or by a second producer (60_exceptions.md R157, R158). -/

namespace Sys2Proof.Machine

/-- Behind every context of R157's table stands its check, the first of the instruction. -/
theorem exec_wrongContext {i : Instr} {s : State} {c : Context} (h : i.context? = some c) (hx : s.ctx ≠ c) :
    exec i s = .refused .wrongContext := by
  cases i with
  | crc8 bs k => cases h
  | packetImage p => cases h
  | _ => cases h; exact requireContext_refuse hx

/-- R158: whatever context P issues while an RB.WRITE is in progress. -/
theorem exec_producer_busy {i : Instr} {s : State} {n : Nat} {l : Line} (hs : s.IssuesOn .producer n l)
    (hctx : i.context? = some .producer) (hn : i.line? = some n) (hc : l.rb.configured = true) (hb : l.p.busy ≠ none) :
    exec i s = .refused .wrongContext := by
  cases actsOnLine_of_line hn with
  | rbSetup c => cases hctx
  | lineInit c a => cases hctx
  | rbRead => cases hctx
  | rbIsEmpty => cases hctx
  | producer f _ hexec =>
    rw [hexec, producerOp, requireContext_pass hs.1]
    exact onLine_of_refused hs.2 (by simp [hc, Option.isSome_iff_ne_none, hb])
  | consumer f hk => cases hk.symm.trans hctx

/-- Settles O46: the check of the context comes first, that of a write in progress after the line's. -/
theorem wrongContextIsRefused : Obligations.WrongContextIsRefused :=
  ⟨fun _ _ _ h hx => exec_wrongContext h hx, fun _ _ _ _ hs hc hb => exec_producer_busy hs rfl rfl hc hb⟩

end Sys2Proof.Machine
end

section
/-! How an operation ends (60_exceptions.md R159, R160, 20_memory.md R61, R65): the faults there are, and that an
instruction that is issuable ends in a next state but for `LengthOutOfRange`, and one that is not is refused. -/

namespace Sys2Proof.Machine

/-! ## Faults -/

theorem execRbSetup_no_fault {n c : Nat} {s : State} {e : Fault} : execRbSetup n c s ≠ .fault e := by
  intro h
  obtain ⟨-, h⟩ := requireContext_fault h
  split at h
  · cases h
  · split_ifs at h

theorem execLineInit_no_fault {n c : Nat} {a : Bool} {s : State} {e : Fault} : execLineInit n c a s ≠ .fault e := by
  intro h
  obtain ⟨-, h⟩ := requireContext_fault h
  split at h
  · cases h
  · split_ifs at h

/-- An operation of context P that completes on every line faults on none. -/
theorem producerOp_no_fault {n : Nat} {f : Line → Line × Response} {s : State} {e : Fault} :
    producerOp n (fun l => .next (f l)) s ≠ .fault e := by
  intro h
  obtain ⟨l, -, hf⟩ := producerOp_fault h
  cases hf

/-- Nor does such an operation of context K. -/
theorem consumerOp_no_fault {n : Nat} {f : Line → Line × Response} {s : State} {e : Fault} :
    consumerOp n (fun l => .next (f l)) s ≠ .fault e := by
  intro h
  obtain ⟨l, -, -, hf⟩ := consumerOp_fault h
  cases hf

theorem consumerOp_noResponse_no_fault {n : Nat} {f : Line → Host.Outcome Line Fault Refusal} {s : State} {e : Fault}
    (hf : ∀ l, f l ≠ .fault e) : consumerOp n (noResponse f) s ≠ .fault e := by
  intro h
  obtain ⟨l, -, -, h⟩ := consumerOp_fault h
  exact hf l (noResponse_fault h)

theorem execRbRead_fault {n : Nat} {s : State} {e : Fault} (h : execRbRead n s = .fault e) : e = .readOfNoValue := by
  obtain ⟨-, h⟩ := requireContext_fault h
  obtain ⟨l, -, h⟩ := onLine_fault h
  exact (rbRead_fault (answering_fault h)).1

/-- A transition faults for its own reason or for that of the RB.READ inside it. -/
theorem asmStep_fault_reason {cfg : Config} {l : Line} {e : Fault} (h : asmStep cfg l = .fault e) :
    e = .lengthOutOfRange ∨ e = .readOfNoValue := by
  obtain hr | ⟨he, -⟩ := asmStep_fault h
  · exact .inr (rbRead_fault hr).1
  · exact .inl he

/-- R159: the operations that fault, and for which reasons, whatever the state. -/
theorem exec_fault {i : Instr} {s : State} {e : Fault} (h : exec i s = .fault e) :
    (e = .lengthOutOfRange ∧ ∃ n, i = .asmStep n ∨ i = .asmPoll n) ∨
    (e = .readOfNoValue ∧ ∃ n, i = .rbRead n ∨ i = .asmStep n ∨ i = .asmPoll n ∨ i = .pqDeq n) := by
  cases i with
  | rbSetup n c => exact absurd h execRbSetup_no_fault
  | rbWrite n b => exact absurd h producerOp_no_fault
  | rbRead n => exact .inr ⟨execRbRead_fault h, n, .inl rfl⟩
  | rbIsEmpty n =>
    obtain ⟨-, h⟩ := requireContext_fault h
    obtain ⟨l, -, h⟩ := onLine_fault h
    unfold rbIsEmpty at h
    split_ifs at h
  | crc8 bs k =>
    simp only [exec, execCrc8] at h
    split_ifs at h
  | asmStep n =>
    obtain ⟨l, -, -, hf⟩ := consumerOp_answering_fault h
    exact (asmStep_fault_reason hf).imp (fun he => ⟨he, n, .inl rfl⟩) fun he => ⟨he, n, .inr (.inl rfl)⟩
  | asmPoll n =>
    obtain ⟨-, last, -, -, -, hf⟩ := exec_asmPoll_fault h
    exact (asmStep_fault_reason hf).imp (fun he => ⟨he, n, .inr rfl⟩) fun he => ⟨he, n, .inr (.inr (.inl rfl))⟩
  | pqEnq n p => exact absurd h consumerOp_no_fault
  | pqDeq n =>
    obtain ⟨l, -, -, hf⟩ := consumerOp_answering_fault h
    exact .inr ⟨(pqDeq_fault hf).1, n, .inr (.inr (.inr rfl))⟩
  | pqAvail n => exact absurd h consumerOp_no_fault
  | txFrame n p => exact absurd h (consumerOp_noResponse_no_fault fun _ => txFrame_no_fault)
  | txSend n bs => exact absurd h (consumerOp_noResponse_no_fault fun _ => txSendUpTo_no_fault)
  | lineInit n c a => exact absurd h execLineInit_no_fault
  | frameData n data crc => exact absurd h producerOp_no_fault
  | frameAck n => exact absurd h producerOp_no_fault
  | frameRetx n => exact absurd h producerOp_no_fault
  | packetImage p => cases h

/-! ## An instruction that is issuable ends -/

section
variable {s : State} {n : Nat} {l : Line}

theorem exec_rbSetup_completes (hs : s.IssuesOn .init n l) (hc : l.rb.configured = false) (c : Nat) :
    ∃ t, exec (.rbSetup n c) s = .next t := by
  cases hp : isPow2 c with
  | false => exact ⟨_, exec_rbSetup_configError hs hc hp⟩
  | true => exact ⟨_, exec_rbSetup_ok hs hc hp⟩

theorem exec_lineInit_completes (hx : s.ctx = .init)
    (h : ∀ l, s.lines[n]? = some l → l.configured = false ∧ l.rb.configured = false) (c : Nat) (a : Bool) :
    ∃ t, exec (.lineInit n c a) s = .next t := by
  cases hl : s.lines[n]? with
  | none => exact ⟨_, exec_lineInit_invalidLine hx hl⟩
  | some l =>
    obtain ⟨hc, hrb⟩ := h l hl
    cases hp : isPow2 c with
    | false => exact ⟨_, exec_lineInit_invalidCapacity ⟨hx, hl⟩ hc hrb hp⟩
    | true =>
      cases ha : a with
      | false => exact ⟨_, exec_lineInit_allocationFailure ⟨hx, hl⟩ hc hrb hp rfl⟩
      | true => exact ⟨_, exec_lineInit_ok ⟨hx, hl⟩ hc hrb hp rfl⟩

theorem exec_rbRead_completes (hs : s.IssuesOn .consumer n l) (h : l.SoundRing s.config.INTERLEAVE) :
    ∃ t, exec (.rbRead n) s = .next t := by
  obtain ⟨l', o, hr, -⟩ := h.rbRead_completes
  exact ⟨_, exec_rbRead_next hs hr⟩

theorem exec_pqDeq_completes (hs : s.IssuesOn .consumer n l) (hc : l.configured = true) (hq : l.pq.Inv) :
    ∃ t, exec (.pqDeq n) s = .next t := by
  cases he : l.pq.isEmpty with
  | true => exact ⟨_, exec_pqDeq_empty hs hc he⟩
  | false =>
    obtain ⟨p, hp, -⟩ := hq.exists_live_eq_cons he
    exact ⟨_, exec_pqDeq_oldest hs hc he hp⟩

theorem exec_asmStep_ends (hs : s.IssuesOn .consumer n l) (h : AsmReady s.config l) :
    (∃ t, exec (.asmStep n) s = .next t) ∨ exec (.asmStep n) s = .fault .lengthOutOfRange := by
  obtain ⟨l', m, hl⟩ | hl := h.asmStep_ends
  · exact .inl ⟨_, exec_asmStep_next hs h.configured hl⟩
  · exact .inr (exec_asmStep_fault hs h.configured hl)

theorem exec_asmPoll_ends (hs : s.IssuesOn .consumer n l) (h : AsmReady s.config l) :
    (∃ t, exec (.asmPoll n) s = .next t) ∨ exec (.asmPoll n) s = .fault .lengthOutOfRange := by
  obtain ⟨l', hl⟩ | hl := h.asmPoll_ends
  · exact .inl ⟨_, consumerOp_answering_of_next (g := pollResponse) hs h.configured hl⟩
  · exact .inr (consumerOp_answering_of_fault (g := pollResponse) hs h.configured hl)

end

/-- The instruction ends at once: in a next state, or, of ASM.STEP and ASM.POLL, in the fault of R107. -/
def EndsAtOnce (i : Instr) (s : State) : Prop :=
  (∃ t : State, exec i s = .next t) ∨ (exec i s = .fault .lengthOutOfRange ∧ ∃ n, i = .asmStep n ∨ i = .asmPoll n)

theorem State.Inv.line {s : State} {n : Nat} {l : Line} (h : s.Inv) (hl : s.lines[n]? = some l) : l.Inv s.config :=
  h.lines l (List.mem_of_getElem? hl)

theorem State.Sound.line {s : State} {n : Nat} {l : Line} (h : s.Sound) (hl : s.lines[n]? = some l) :
    l.Sound s.config.INTERLEAVE :=
  h l (List.mem_of_getElem? hl)

theorem Issuable.endsAtOnce {i : Instr} {s : State} (h : Issuable i s) (hinv : s.Inv) (hsound : s.Sound) :
    EndsAtOnce i s := by
  obtain ⟨hctx, hneeds⟩ := h
  cases i with
  | rbSetup n c =>
    obtain ⟨l, hl, hc⟩ := hneeds
    exact .inl (exec_rbSetup_completes ⟨hctx _ rfl, hl⟩ hc c)
  | rbWrite n b =>
    obtain ⟨l, hl, hc, hb⟩ := hneeds
    exact .inl ⟨_, exec_rbWrite_of_issuesOn ⟨hctx _ rfl, hl⟩ hc hb⟩
  | rbRead n =>
    obtain ⟨l, hl, hc⟩ := hneeds
    exact .inl (exec_rbRead_completes ⟨hctx _ rfl, hl⟩ ⟨hc, (hinv.line hl).rb_bounded hc, hsound.line hl⟩)
  | rbIsEmpty n =>
    obtain ⟨l, hl, hc⟩ := hneeds
    exact .inl ⟨_, exec_rbIsEmpty ⟨hctx _ rfl, hl⟩ hc⟩
  | crc8 bs k => exact .inl ⟨_, if_pos hneeds⟩
  | asmStep n =>
    obtain ⟨l, hl, hc⟩ := hneeds
    exact (exec_asmStep_ends ⟨hctx _ rfl, hl⟩ ⟨hinv.valid, hc, hinv.line hl, hsound.line hl⟩).imp_right
      fun hf => ⟨hf, n, .inl rfl⟩
  | asmPoll n =>
    obtain ⟨l, hl, hc⟩ := hneeds
    exact (exec_asmPoll_ends ⟨hctx _ rfl, hl⟩ ⟨hinv.valid, hc, hinv.line hl, hsound.line hl⟩).imp_right
      fun hf => ⟨hf, n, .inr rfl⟩
  | pqEnq n p =>
    obtain ⟨l, hl, hc⟩ := hneeds
    exact .inl ⟨_, exec_pqEnq ⟨hctx _ rfl, hl⟩ hc p⟩
  | pqDeq n =>
    obtain ⟨l, hl, hc⟩ := hneeds
    exact .inl (exec_pqDeq_completes ⟨hctx _ rfl, hl⟩ hc ((hinv.line hl).queue hc))
  | pqAvail n =>
    obtain ⟨l, hl, hc⟩ := hneeds
    exact .inl ⟨_, exec_pqAvail ⟨hctx _ rfl, hl⟩ hc⟩
  | txFrame n p =>
    obtain ⟨l, hl, hc, hlen⟩ := hneeds
    exact .inl ⟨_, exec_txFrame_of_le ⟨hctx _ rfl, hl⟩ hc hlen⟩
  | txSend n bs =>
    obtain ⟨l, hl, hc⟩ := hneeds
    exact .inl ⟨_, exec_txSend ⟨hctx _ rfl, hl⟩ hc hinv.valid bs⟩
  | lineInit n c a => exact .inl (exec_lineInit_completes (hctx _ rfl) hneeds c a)
  | frameData n data crc =>
    obtain ⟨l, hl, hc, hb⟩ := hneeds
    exact .inl ⟨_, arrival_of_issuesOn ⟨hctx _ rfl, hl⟩ hc hb⟩
  | frameAck n =>
    obtain ⟨l, hl, hc, hb⟩ := hneeds
    exact .inl ⟨_, arrival_of_issuesOn ⟨hctx _ rfl, hl⟩ hc hb⟩
  | frameRetx n =>
    obtain ⟨l, hl, hc, hb⟩ := hneeds
    exact .inl ⟨_, arrival_of_issuesOn ⟨hctx _ rfl, hl⟩ hc hb⟩
  | packetImage p => exact .inl ⟨_, rfl⟩

/-! ## An instruction that is not issuable is refused -/

section
variable {i : Instr} {s : State} {n : Nat}

/-- What an operation requires of its line is missing because the line is, or because the line does not have it. -/
theorem exec_refused_of_not_lineIs {P : Line → Prop} (hx : i.context? = some s.ctx) (hn : i.line? = some n)
    (hi : ∀ c a, i ≠ .lineInit n c a) (h : ¬ s.LineIs n P)
    (hline : ∀ l, s.lines[n]? = some l → ¬ P l → ∃ e, exec i s = .refused e) : ∃ e, exec i s = .refused e := by
  cases hl : s.lines[n]? with
  | none => exact ⟨_, exec_noSuchLine hx hn hl hi⟩
  | some l => exact hline l hl fun hP => h ⟨l, hl, hP⟩

theorem exec_consumer_refused (hx : s.ctx = .consumer) (hctx : i.context? = some .consumer) (hn : i.line? = some n)
    (hread : i ≠ .rbRead n) (hempty : i ≠ .rbIsEmpty n) (h : ¬ s.LineIs n fun l => l.configured = true) :
    ∃ e, exec i s = .refused e :=
  exec_refused_of_not_lineIs (hx ▸ hctx) hn (by rintro c a rfl; cases hctx) h fun _ hl hc =>
    ⟨_, exec_consumer_notConfigured ⟨hx, hl⟩ hctx hn (Bool.eq_false_iff.mpr hc) hread hempty⟩

theorem exec_producer_refused (hx : s.ctx = .producer) (hctx : i.context? = some .producer) (hn : i.line? = some n)
    (h : ¬ s.LineIs n fun l => l.rb.configured = true ∧ l.p.busy = none) : ∃ e, exec i s = .refused e := by
  refine exec_refused_of_not_lineIs (hx ▸ hctx) hn (by rintro c a rfl; cases hctx) h fun l hl hneeds => ?_
  cases hc : l.rb.configured with
  | false => exact ⟨_, exec_producer_notConfigured ⟨hx, hl⟩ hctx hn hc⟩
  | true => exact ⟨_, exec_producer_busy ⟨hx, hl⟩ hctx hn hc fun hb => hneeds ⟨hc, hb⟩⟩

theorem exec_txFrame_refused {p : Image} (hx : s.ctx = .consumer)
    (h : ¬ s.LineIs n fun l => l.configured = true ∧ p.length.toNat ≤ s.config.MAX_PAYLOAD) :
    ∃ e, exec (.txFrame n p) s = .refused e := by
  refine exec_refused_of_not_lineIs (congrArg some hx.symm) rfl nofun h fun l hl hneeds => ?_
  cases hc : l.configured with
  | false => exact ⟨_, exec_consumer_notConfigured ⟨hx, hl⟩ rfl rfl hc nofun nofun⟩
  | true => exact ⟨_, exec_txFrame_tooLong ⟨hx, hl⟩ hc (Nat.lt_of_not_le fun hlen => hneeds ⟨hc, hlen⟩)⟩

theorem exec_lineInit_refused {c : Nat} {a : Bool} (hx : s.ctx = .init)
    (h : ¬ ∀ l, s.lines[n]? = some l → l.configured = false ∧ l.rb.configured = false) :
    ∃ e, exec (.lineInit n c a) s = .refused e := by
  push Not at h
  obtain ⟨l, hl, hc⟩ := h
  refine ⟨_, exec_lineInit_alreadyConfigured ⟨hx, hl⟩ ?_⟩
  cases hconf : l.configured with
  | true => exact .inl rfl
  | false => exact .inr (Bool.ne_false_iff.mp (hc hconf))

end

/-- With the context right, it is for its line or for its operands. -/
theorem exec_refused_of_not_issuable {i : Instr} {s : State} (h : ¬ Issuable i s) : ∃ e, exec i s = .refused e := by
  by_cases hctx : ∀ c, i.context? = some c → s.ctx = c
  case neg =>
    push Not at hctx
    obtain ⟨c, hc, hx⟩ := hctx
    exact ⟨_, exec_wrongContext hc hx⟩
  replace h := fun hneeds => h ⟨hctx, hneeds⟩
  cases i with
  | rbSetup n c =>
    have hx : s.ctx = .init := hctx _ rfl
    exact exec_refused_of_not_lineIs (congrArg some hx.symm) rfl nofun h fun l hl hc =>
      ⟨_, exec_rbSetup_alreadyConfigured ⟨hx, hl⟩ (Bool.ne_false_iff.mp hc)⟩
  | rbWrite n b => exact exec_producer_refused (hctx _ rfl) rfl rfl h
  | rbRead n =>
    have hx : s.ctx = .consumer := hctx _ rfl
    exact exec_refused_of_not_lineIs (congrArg some hx.symm) rfl nofun h fun l hl hc =>
      ⟨_, exec_rbRead_notConfigured ⟨hx, hl⟩ (Bool.eq_false_iff.mpr hc)⟩
  | rbIsEmpty n =>
    have hx : s.ctx = .consumer := hctx _ rfl
    exact exec_refused_of_not_lineIs (congrArg some hx.symm) rfl nofun h fun l hl hc =>
      ⟨_, exec_rbIsEmpty_notConfigured ⟨hx, hl⟩ (Bool.eq_false_iff.mpr hc)⟩
  | crc8 bs k => exact ⟨_, if_neg h⟩
  | asmStep n => exact exec_consumer_refused (hctx _ rfl) rfl rfl nofun nofun h
  | asmPoll n => exact exec_consumer_refused (hctx _ rfl) rfl rfl nofun nofun h
  | pqEnq n p => exact exec_consumer_refused (hctx _ rfl) rfl rfl nofun nofun h
  | pqDeq n => exact exec_consumer_refused (hctx _ rfl) rfl rfl nofun nofun h
  | pqAvail n => exact exec_consumer_refused (hctx _ rfl) rfl rfl nofun nofun h
  | txFrame n p => exact exec_txFrame_refused (hctx _ rfl) h
  | txSend n bs => exact exec_consumer_refused (hctx _ rfl) rfl rfl nofun nofun h
  | lineInit n c a => exact exec_lineInit_refused (hctx _ rfl) h
  | frameData n data crc => exact exec_producer_refused (hctx _ rfl) rfl rfl h
  | frameAck n => exact exec_producer_refused (hctx _ rfl) rfl rfl h
  | frameRetx n => exact exec_producer_refused (hctx _ rfl) rfl rfl h
  | packetImage p => exact absurd trivial h

/-- From the invariants the fault of R107 is the only one: an instruction that faults is not refused, so it was issuable. -/
theorem exec_fault_of_inv {i : Instr} {s : State} {e : Fault} (hinv : s.Inv) (hsound : s.Sound)
    (h : exec i s = .fault e) : e = .lengthOutOfRange ∧ ∃ n, i = .asmStep n ∨ i = .asmPoll n := by
  by_cases hi : Issuable i s
  · obtain ⟨t, ht⟩ | ⟨hf, hn⟩ := hi.endsAtOnce hinv hsound
    · cases ht.symm.trans h
    · cases hf.symm.trans h
      exact ⟨rfl, hn⟩
  · obtain ⟨r, hr⟩ := exec_refused_of_not_issuable hi
    cases hr.symm.trans h

/-- Settles O56: by the kind of the instruction, and for the faults by what it does on its line. -/
theorem operationsEndAtOnceAndOnlyALengthOutOfRangeFaults :
    Obligations.OperationsEndAtOnceAndOnlyALengthOutOfRangeFaults :=
  ⟨fun _ _ _ hinv hsound h => exec_fault_of_inv hinv hsound h, fun _ _ _ h => exec_fault h,
    fun _ _ hinv hsound => ⟨fun hi => hi.endsAtOnce hinv hsound, exec_refused_of_not_issuable⟩⟩

end Sys2Proof.Machine
end

section
/-! Which columns of R157's table (60_exceptions.md) an operation of each context writes: context P's the write side of the
ring buffer, context K's, with no step of context P inside, only the read side. -/

namespace Sys2Proof.Machine

/-! ## Context P -/

theorem deliver_rb_of_full (bs : List Byte) {l : Line} (h : l.rb.full = true) : (deliver bs l).1.rb = l.rb := by
  induction bs generalizing l with
  | nil => rfl
  | cons b bs ih =>
    have hrb := rbWrite_rb_of_full b h
    exact (ih (hrb ▸ h)).trans hrb

/-- R18: RB.WRITEs never clear the flag. -/
theorem deliver_full_kept_or_set (bs : List Byte) (l : Line) :
    (deliver bs l).1.rb.full = l.rb.full ∨ (deliver bs l).1.rb.full = true := by
  induction bs generalizing l with
  | nil => exact .inl rfl
  | cons b bs ih =>
    obtain h | h := ih (rbWrite b l).1
    · exact (rbWrite_full_kept_or_set b l).imp h.trans h.trans
    · exact .inr h

theorem rbWrite_wr_of_room (b : Byte) {l : Line} (h : l.rb.full = false) :
    (rbWrite b l).1.rb.wr = advance l.rb.wr l.rb.cap := by
  rw [rbWrite_room h]
  rfl

/-- The elements that `bs` is stored to are at most as many as its bytes, from the write cursor on. -/
theorem deliver_read_other (bs : List Byte) {l : Line} {x : Nat}
    (hx : ∀ j, j < bs.length → x ≠ (fun w => advance w l.rb.cap)^[j] l.rb.wr) :
    (deliver bs l).1.rb.buf.read x = l.rb.buf.read x := by
  induction bs generalizing l with
  | nil => rfl
  | cons b bs ih =>
    cases hf : l.rb.full with
    | true => rw [deliver_rb_of_full _ hf]
    | false =>
      have hfirst : (rbWrite b l).1.rb.buf.read x = l.rb.buf.read x :=
        rbWrite_read_other b (.inr (hx 0 (Nat.succ_pos _)))
      refine (ih fun j hj => ?_).trans hfirst
      rw [(rbWrite_producerOnly b l).rb_cap, rbWrite_wr_of_room b hf]
      exact hx (j + 1) (Nat.succ_lt_succ hj)

/-- A frame row writes the bytes that encode it. -/
theorem LineEffect.eq_deliver_encode {cfg : Config} {i : Instr} {n : Nat} {l l' : Line} (he : LineEffect cfg i l l')
    (hspace : i.space = .wire n) : l' = (deliver (encode cfg i) l).1 := by
  cases i with
  | frameData m data crc => exact he.2.2
  | frameAck m => exact he.2.2
  | frameRetx m => exact he.2.2
  | _ => cases hspace

/-- Settles O50: such an operation is the RB.WRITE of one byte, or of each byte of its frame. -/
theorem producerOperationsTouchOnlyTheWriteSide : Obligations.ProducerOperationsTouchOnlyTheWriteSide := by
  intro i s t n count l l' _ _ hcount h hl hl'
  obtain ⟨bs, hlen, rfl⟩ : ∃ bs : List Byte, bs.length ≤ count ∧ l' = (deliver bs l).1 := by
    obtain rfl | ⟨-, he⟩ := exec_line_of h hl hl'
    · exact ⟨[], Nat.zero_le _, rfl⟩
    · obtain ⟨⟨b, rfl⟩, rfl⟩ | ⟨hspace, rfl⟩ := hcount
      · exact ⟨[b], le_rfl, he.2.2⟩
      · exact ⟨_, le_rfl, he.eq_deliver_encode hspace⟩
  have hkept := deliver_producerOnly bs l
  exact ⟨hkept.configured, hkept.rb_configured, hkept.rb_cap, hkept.rb_rd, deliver_full_kept_or_set bs l, hkept.ackPkt,
    hkept.retxPkt, hkept.asm, hkept.pq, hkept.lastTx, hkept.tx,
    fun x hx => deliver_read_other bs fun j hj => hx j (hj.trans_le hlen), deliver_rb_of_full bs⟩

/-! ## Context K -/

/-- Of the ring buffer only the read cursor and the flag are written, the flag to false; context P's own state is not. -/
structure ReadSideOnly (l l' : Line) : Prop where
  buf : l'.rb.buf = l.rb.buf
  wr : l'.rb.wr = l.rb.wr
  full : l'.rb.full = l.rb.full ∨ l'.rb.full = false
  p : l'.p = l.p

theorem ReadSideOnly.refl (l : Line) : ReadSideOnly l l := ⟨rfl, rfl, .inl rfl, rfl⟩

theorem ReadSideOnly.trans {a b c : Line} (h : ReadSideOnly a b) (k : ReadSideOnly b c) : ReadSideOnly a c where
  buf := k.buf.trans h.buf
  wr := k.wr.trans h.wr
  full := k.full.elim (fun e => h.full.imp e.trans e.trans) .inr
  p := k.p.trans h.p

theorem SameRing.readSideOnly {l l' : Line} (h : SameRing l l') : ReadSideOnly l l' :=
  ⟨congrArg _ h.rb, congrArg _ h.rb, .inl (congrArg _ h.rb), h.p⟩

/-- With no step of context P inside it RB.READ is its `r1` to `r4`. -/
theorem rbRead_quiet_readSideOnly {m : Interleave} {l l' : Line} {o : Option Byte} (hq : Quiet m l)
    (hr : rbRead m l = .next (l', o)) : ReadSideOnly l l' := by
  have hq' : Quiet m { l with rb := l.rb.r3 } := hq
  obtain ⟨-, ⟨l1, rfl, -, e⟩ | ⟨l2, l3, l4, b, -, rfl, -, rfl, rfl, e⟩⟩ := rbRead_next hr
  · cases e
    rw [gap_quiet hq]
    exact .refl l
  · cases e
    simp only [gap_quiet hq, takesUnflagged_idle hq.1, settle_false, gap_quiet hq']
    exact ⟨rfl, rfl, .inr rfl, rfl⟩

theorem asmStep_quiet_readSideOnly {cfg : Config} {l : Line} {r : Line × Mark} (hq : Quiet cfg.INTERLEAVE l)
    (hs : asmStep cfg l = .next r) : ReadSideOnly l r.1 := by
  obtain ⟨l1, o, hr, hsame, -⟩ | ⟨hsame, -⟩ := asmStep_ring hs
  · exact (rbRead_quiet_readSideOnly hq hr).trans hsame.readSideOnly
  · exact hsame.readSideOnly

/-- What an operation of context K leaves alone when no step of context P falls inside it: set-up, the capacity, the
sentinels and the write side. -/
structure ConsumerOnly (l l' : Line) : Prop extends ReadSideOnly l l' where
  configured : l'.configured = l.configured
  rb_cap : l'.rb.cap = l.rb.cap
  ackPkt : l'.ackPkt = l.ackPkt
  retxPkt : l'.retxPkt = l.retxPkt

theorem ReadSideOnly.consumerOnly {l l' : Line} (h : ReadSideOnly l l') (k : AsmKept l l') : ConsumerOnly l l' :=
  ⟨h, k.configured, k.rb_cap, k.ackPkt, k.retxPkt⟩

theorem ConsumerOnly.refl (l : Line) : ConsumerOnly l l := (ReadSideOnly.refl l).consumerOnly (.refl l)

theorem ConsumerOnly.trans {a b c : Line} (h : ConsumerOnly a b) (k : ConsumerOnly b c) : ConsumerOnly a c where
  toReadSideOnly := h.toReadSideOnly.trans k.toReadSideOnly
  configured := k.configured.trans h.configured
  rb_cap := k.rb_cap.trans h.rb_cap
  ackPkt := k.ackPkt.trans h.ackPkt
  retxPkt := k.retxPkt.trans h.retxPkt

theorem asmStep_quiet_consumerOnly {cfg : Config} {l : Line} {r : Line × Mark} (hq : Quiet cfg.INTERLEAVE l)
    (hs : asmStep cfg l = .next r) : ConsumerOnly l r.1 :=
  (asmStep_quiet_readSideOnly hq hs).consumerOnly (asmStep_kept hs)

/-- Context P's own state stays from transition to transition, so each of them is quiet. -/
theorem asmPoll_quiet_consumerOnly {cfg : Config} {l : Line} {r : Line × Mark} (hq : Quiet cfg.INTERLEAVE l)
    (hs : asmPoll cfg l = .next r) : ConsumerOnly l r.1 := by
  refine asmPollUpTo_keeps (I := ConsumerOnly l) (fun l1 r1 k h => ?_) (.refl l) hs
  have hq1 : Quiet cfg.INTERLEAVE l1 := by rwa [Quiet, k.p]
  exact k.trans (asmStep_quiet_consumerOnly hq1 h)

theorem txFrame_consumerOnly {cfg : Config} {p : Image} {l l' : Line} (h : txFrame cfg p l = .next l') :
    ConsumerOnly l l' :=
  (txFrame_kept h).2.readSideOnly.consumerOnly (txFrame_kept h).1

theorem txSend_consumerOnly {cfg : Config} {bs : List Byte} {l l' : Line} (h : txSend cfg bs l = .next l') :
    ConsumerOnly l l' :=
  txSendUpTo_keeps (I := ConsumerOnly l) (fun _ _ _ k hframe => k.trans (txFrame_consumerOnly hframe)) (.refl l) h

theorem pqDeq_consumerOnly {l l' : Line} {p : Option Image} (h : pqDeq l = .next (l', p)) : ConsumerOnly l l' := by
  obtain ⟨-, e⟩ | ⟨q, -, -, e⟩ := pqDeq_next h
  · cases e; exact .refl l
  · cases e; exact ⟨⟨rfl, rfl, .inl rfl, rfl⟩, rfl, rfl, rfl, rfl⟩

theorem LineEffect.consumerOnly {cfg : Config} {i : Instr} {l l' : Line} (he : LineEffect cfg i l l')
    (hctx : i.context? = some .consumer) (hq : Quiet cfg.INTERLEAVE l) : ConsumerOnly l l' := by
  cases i with
  | rbRead n =>
    obtain ⟨b, hr⟩ := he
    exact (rbRead_quiet_readSideOnly hq hr).consumerOnly (rbRead_readOnly hr).asmKept
  | rbIsEmpty n =>
    obtain ⟨-, rfl⟩ := he
    rw [gap_quiet hq]
    exact .refl l
  | asmStep n => obtain ⟨-, m, hs⟩ := he; exact asmStep_quiet_consumerOnly hq hs
  | asmPoll n => obtain ⟨-, m, hs⟩ := he; exact asmPoll_quiet_consumerOnly hq hs
  | pqEnq n p =>
    obtain ⟨-, rfl⟩ := he
    exact (pqEnq_kept p l).2.readSideOnly.consumerOnly (pqEnq_kept p l).1
  | pqDeq n => obtain ⟨-, p, hd⟩ := he; exact pqDeq_consumerOnly hd
  | pqAvail n => obtain ⟨-, rfl⟩ := he; exact .refl l'
  | txFrame n p => exact txFrame_consumerOnly he.2
  | txSend n bs => exact txSend_consumerOnly he.2
  | _ => cases hctx

/-- Settles O51: from what each operation of context K does to its line. -/
theorem consumerOperationsNeverWriteTheWriteSide : Obligations.ConsumerOperationsNeverWriteTheWriteSide := by
  intro i s t n l l' hctx _ h hl hl' hq
  have k : ConsumerOnly l l' := by
    obtain rfl | ⟨-, he⟩ := exec_line_of h hl hl'
    · exact .refl l'
    · exact he.consumerOnly hctx hq
  exact ⟨fun x => by rw [k.buf], k.wr, k.rb_cap, k.full, k.ackPkt, k.retxPkt, k.configured, k.p⟩

end Sys2Proof.Machine
end

section
/-! What an instruction and a step keep of a line's soundness (70_reset_and_hazards.md R173 (a)): the elements a read
can reach stay stored under each of the three settings of R57, whatever the contexts do. -/

namespace Sys2Proof.Machine

/-! ## The units besides the ring buffer -/

/-- Soundness speaks of the ring buffer and context P alone. -/
theorem SameRing.sound {m : Interleave} {l l' : Line} (h : SameRing l l') (hs : l.Sound m) : l'.Sound m :=
  hs.of_rb_busy h.rb (congrArg _ h.p)

theorem txSend_sameRing {cfg : Config} {bs : List Byte} {l l' : Line} (h : txSend cfg bs l = .next l') :
    SameRing l l' :=
  txSendUpTo_keeps (I := SameRing l) (fun _ _ _ k hframe => k.trans (txFrame_kept hframe).2) (.refl l) h

theorem pqDeq_sameRing {l l' : Line} {p : Option Image} (h : pqDeq l = .next (l', p)) : SameRing l l' := by
  obtain ⟨-, e⟩ | ⟨q, -, -, e⟩ := pqDeq_next h <;> cases e <;> exact ⟨rfl, rfl⟩

/-! ## The ring buffer -/

section
variable {m : Interleave} {l : Line}

/-- A ring buffer just set up is sound when no RB.WRITE is in progress. -/
theorem Line.SoundRing.of_setup {c : Nat} (hm : m ≠ .anyOrder) (hbusy : l.p.busy = none)
    (hrb : l.rb = RingBuffer.setup c) (hp : isPow2 c = true) : l.SoundRing m :=
  .of_idle hm hbusy (by rw [hrb]; rfl) (hrb ▸ RingBuffer.bounded_setup hp) (hrb ▸ RingBuffer.stored_setup hp)

theorem Line.SoundRing.rbWrite (h : l.SoundRing m) (hbusy : l.p.busy = none) (b : Byte) :
    (rbWrite b l).1.SoundRing m := by
  cases hf : l.rb.full with
  | true => rw [rbWrite_full hf]; exact h.of_rb_busy rfl rfl
  | false =>
    rw [rbWrite_room hf]
    exact .of_idle h.sound.setting hbusy h.configured (h.bounded.store b) (h.stored.store h.bounded hf b)

theorem Line.SoundRing.deliver (h : l.SoundRing m) (hbusy : l.p.busy = none) (bs : List Byte) :
    (deliver bs l).1.SoundRing m := by
  induction bs generalizing l with
  | nil => exact h
  | cons b bs ih => exact ih (h.rbWrite hbusy b) ((rbWrite_p_busy b l).trans hbusy)

theorem Line.SoundRing.of_rbRead {l' : Line} {o : Option Byte} (h : l.SoundRing m) (hr : rbRead m l = .next (l', o)) :
    l'.SoundRing m := by
  obtain ⟨l1, o1, hr1, hring, -⟩ := h.rbRead_completes
  cases hr1.symm.trans hr
  exact hring

end

theorem AsmReady.after_asmPoll {cfg : Config} {l : Line} {r : Line × Mark} (h : AsmReady cfg l)
    (hs : asmPoll cfg l = .next r) : AsmReady cfg r.1 :=
  asmPollUpTo_keeps (I := AsmReady cfg) (fun _ _ k hstep => k.after_asmStep hstep) h hs

/-! ## Instructions and steps -/

/-- Before set-up no RB.WRITE can be in progress. -/
theorem Line.Inv.idle_of_not_configured {cfg : Config} {l : Line} (h : l.Inv cfg) (hc : l.rb.configured = false) :
    l.p.busy = none := by
  by_contra hbusy
  simp [h.busy_configured hbusy] at hc

theorem LineEffect.sound {cfg : Config} {i : Instr} {l l' : Line} (he : LineEffect cfg i l l') (hv : cfg.Valid)
    (h : l.Inv cfg) (hs : l.Sound cfg.INTERLEAVE) : l'.Sound cfg.INTERLEAVE := by
  have hring (hc : l.rb.configured = true) : l.SoundRing cfg.INTERLEAVE := ⟨hc, h.rb_bounded hc, hs⟩
  cases i with
  | rbSetup n c =>
    obtain ⟨hc, hp, rfl⟩ := he
    have hidle := h.idle_of_not_configured hc
    exact (Line.SoundRing.of_setup (l := { l with rb := RingBuffer.setup c }) hs.setting hidle rfl hp).sound
  | rbWrite n b =>
    obtain ⟨hc, hbusy, rfl⟩ := he
    exact ((hring hc).rbWrite hbusy b).sound
  | rbRead n =>
    obtain ⟨b, hr⟩ := he
    exact ((hring (rbRead_next hr).1).of_rbRead hr).sound
  | rbIsEmpty n =>
    obtain ⟨hc, rfl⟩ := he
    exact (gap_produces (hring hc)).ring.sound
  | crc8 bs k => cases he
  | asmStep n =>
    obtain ⟨hc, m, hstep⟩ := he
    exact (AsmReady.after_asmStep ⟨hv, hc, h, hs⟩ hstep).sound
  | asmPoll n =>
    obtain ⟨hc, m, hpoll⟩ := he
    exact (AsmReady.after_asmPoll ⟨hv, hc, h, hs⟩ hpoll).sound
  | pqEnq n p =>
    obtain ⟨-, rfl⟩ := he
    exact (pqEnq_kept p l).2.sound hs
  | pqDeq n =>
    obtain ⟨-, p, hd⟩ := he
    exact (pqDeq_sameRing hd).sound hs
  | pqAvail n =>
    obtain ⟨-, rfl⟩ := he
    exact hs
  | txFrame n p => exact (txFrame_kept he.2).2.sound hs
  | txSend n bs => exact (txSend_sameRing he.2).sound hs
  | lineInit n c a =>
    obtain ⟨-, hc, hp, rfl⟩ := he
    have hidle := h.idle_of_not_configured hc
    exact (Line.SoundRing.of_setup (l := initLine cfg c l) hs.setting hidle rfl hp).sound
  | frameData n data crc =>
    obtain ⟨hc, hbusy, rfl⟩ := he
    exact ((hring hc).deliver hbusy _).sound
  | frameAck n =>
    obtain ⟨hc, hbusy, rfl⟩ := he
    exact ((hring hc).deliver hbusy _).sound
  | frameRetx n =>
    obtain ⟨hc, hbusy, rfl⟩ := he
    exact ((hring hc).deliver hbusy _).sound
  | packetImage p => cases he

theorem exec_keepsSound {i : Instr} {s t : State} (hinv : s.Inv) (hs : s.Sound) (h : exec i s = .next t) : t.Sound := by
  intro l' hl'
  rw [exec_config h]
  obtain ⟨k, hk⟩ := List.mem_iff_getElem?.1 hl'
  obtain ⟨l, hl, rfl | ⟨-, he⟩⟩ := exec_line h hk
  · exact hs.line hl
  · exact he.sound hinv.valid (hinv.line hl) (hs.line hl)

theorem arrive_keepsSound {n : Nat} {s t : State} (hinv : s.Inv) (hs : s.Sound) (h : arrive n s = .next t) :
    t.Sound := by
  obtain ⟨l, hl, hc, rfl⟩ := arrive_next h
  intro l' hl'
  obtain hmem | rfl := List.mem_or_eq_of_mem_set hl'
  · exact hs l' hmem
  · exact (pStep_produces ⟨hc, (hinv.line hl).rb_bounded hc, hs.line hl⟩).ring.sound

/-- Settles O55: an idle step, an arrival and a decoded instruction each keep every line sound. -/
theorem stepKeepsReachableElementsStored : Obligations.StepKeepsReachableElementsStored := by
  intro s t hinv hs h
  obtain rfl | ⟨n, rest, ha⟩ | ⟨c, sp, bytes, rest, r, -, he⟩ := step_next h
  · exact hs
  · exact arrive_keepsSound (hinv.fetched .producer rest) hs ha
  · exact exec_keepsSound (hinv.fetched c rest) hs he

/-- Settles O14: a read of a sound ring buffer completes, and no read touches the other units. -/
theorem rbReadCompletesWhateverTheProducerDoes : Obligations.RbReadCompletesWhateverTheProducerDoes := by
  intro s n l hs hc hinv hsound
  obtain ⟨l', o, hr, -, -⟩ := (Line.SoundRing.mk hc (hinv.rb_bounded hc) hsound).rbRead_completes
  have k := rbRead_readOnly hr
  exact ⟨l', o, exec_rbRead_next hs hr, k.configured, k.rb_configured, k.rb_cap, k.ackPkt, k.retxPkt, k.asm, k.pq,
    k.lastTx, k.tx⟩

end Sys2Proof.Machine
end

section
/-! Which payload bytes the CRC covers (70_reset_and_hazards.md R176, 90_conflicts.md C1). -/

namespace Sys2Proof

/-- R68: the data byte at `i` is the image byte at offset `i + 1`. -/
theorem bytes_setData {p : Image} {i : Nat} (h : i < p.data.length) (b : Byte) :
    ({ p with data := p.data.set i b } : Image).bytes = p.bytes.set (i + 1) b := by
  simp only [Image.bytes, List.set_cons_succ, List.set_append_left _ _ h]

/-- R71: bytes from offset `PACKET_LENGTH` on do not matter. -/
theorem computedCrc_setData_uncovered {cfg : Config} {p : Image} {i : Nat} (h : i < p.data.length)
    (hi : cfg.PACKET_LENGTH ≤ i + 1) (b : Byte) :
    ({ p with data := p.data.set i b } : Image).computedCrc cfg = p.computedCrc cfg := by
  rw [Image.computedCrc, bytes_setData h, crc8, List.take_set_of_le hi, ← crc8, Image.computedCrc]

/-- Any other value of a data byte before it gives another CRC, when the polynomial has a constant term. -/
theorem computedCrc_setData_covered {cfg : Config} {p : Image} {i : Nat} (hodd : cfg.CRC_POLY.getLsbD 0 = true)
    (h : i < p.data.length) (hi : i + 1 < cfg.PACKET_LENGTH) {b : Byte} (hb : b ≠ p.data[i]) :
    ({ p with data := p.data.set i b } : Image).computedCrc cfg ≠ p.computedCrc cfg := by
  have hlt : i + 1 < p.bytes.length := by simp only [Image.bytes, List.length_cons, List.length_append]; omega
  have hbyte : p.bytes[i + 1] = p.data[i] := by simp [Image.bytes, h]
  rw [Image.computedCrc, bytes_setData h]
  exact crc8_set_ne hodd hi hlt (hbyte ▸ hb)

/-- Settles O26: with the defaults the CRC covers the offsets below 14, and `data[13]` is at offset 14. -/
theorem onlyTheFourteenthPayloadByteIsUncovered : Obligations.OnlyTheFourteenthPayloadByteIsUncovered := by
  intro p hsized
  refine ⟨fun b => computedCrc_setData_uncovered (by rw [hsized]; decide) le_rfl b, fun i bit h hi hbit => ?_⟩
  exact computedCrc_setData_covered (by decide) h (Nat.succ_lt_succ hi) (xor_twoPow_ne hbit _)

end Sys2Proof
end

section
/-! The first operations on a line after LINE.INIT (70_reset_and_hazards.md R166): each finds nothing, and leaves the
line as it is. -/

namespace Sys2Proof.Machine

/-! ## Operations of context K that leave their line as it is -/

/-- Under the parameters `cfg`, context K's operation `i` on line `n`, whose state is `l`, leaves it so and answers
`r`. -/
def AnswersInPlace (cfg : Config) (n : Nat) (l : Line) (i : Instr) (r : Response) : Prop :=
  ∀ s : State, s.config = cfg → s.IssuesOn .consumer n l → exec i s = .next (s.after n l r)

theorem runProgram_answersInPlace {cfg : Config} {n : Nat} {l : Line} {ops : List (Instr × Response)}
    (h : ∀ op ∈ ops, AnswersInPlace cfg n l op.1 op.2) {s : State} (hcfg : s.config = cfg) (hl : s.lines[n]? = some l) :
    ∃ t : State, runProgram (allIn .consumer (ops.map Prod.fst)) s = .next (t, ops.map Prod.snd) ∧
      t.lines[n]? = some l := by
  induction ops generalizing s with
  | nil => exact ⟨s, rfl, hl⟩
  | cons op ops ih =>
    obtain ⟨hop, hops⟩ := List.forall_mem_cons.mp h
    have hexec := hop { s with ctx := .consumer } hcfg ⟨rfl, hl⟩
    have hafter := after_lines_self (s := { s with ctx := .consumer }) hl l op.2
    obtain ⟨t, hrun, ht⟩ := ih hops (s := State.after { s with ctx := .consumer } n l op.2) hcfg hafter
    exact ⟨t, runProgram_cons_of_next hexec hrun, ht⟩

/-! ## On a line that holds nothing -/

/-- A line that is set up and holds nothing: no byte in the ring buffer, no packet queued, no frame begun, and no step
of context P inside an operation of context K. -/
structure Line.Blank (m : Interleave) (l : Line) : Prop where
  configured : l.configured = true
  ring : l.QuietRing m
  no_byte : l.rb.live = []
  no_packet : l.pq.isEmpty = true
  phase : l.asm.phase = .awaitingLength

/-- 45_line_api.md R135. -/
theorem Line.Blank.initLine {cfg : Config} {m : Interleave} {l : Line} {c : Nat} (hq : Quiet m l)
    (hp : isPow2 c = true) : (initLine cfg c l).Blank m where
  configured := rfl
  ring := ⟨rfl, RingBuffer.bounded_setup hp, RingBuffer.stored_setup hp, hq⟩
  no_byte := RingBuffer.live_setup hp
  no_packet := rfl
  phase := rfl

section
variable {cfg : Config} {l : Line} (h : l.Blank cfg.INTERLEAVE) (n : Nat)
include h

theorem Line.Blank.asmStep_idle : asmStep cfg l = .next (l, .idle) :=
  asmStep_of_none (Assembler.wantsByte_awaitingLength h.phase) (h.ring.rbRead_of_empty h.no_byte)

theorem Line.Blank.rbRead : AnswersInPlace cfg n l (.rbRead n) (.optByte none) := by
  rintro s rfl hs
  exact exec_rbRead_next hs (h.ring.rbRead_of_empty h.no_byte)

theorem Line.Blank.rbIsEmpty : AnswersInPlace cfg n l (.rbIsEmpty n) (.bool true) := by
  rintro s rfl hs
  rw [exec_rbIsEmpty hs h.ring.configured, gap_quiet h.ring.quiet, h.ring.cursorsEqual_of_empty h.no_byte]

theorem Line.Blank.pqAvail : AnswersInPlace cfg n l (.pqAvail n) (.bool false) := by
  rintro s rfl hs
  rw [exec_pqAvail hs h.configured, h.no_packet, Bool.not_true]

theorem Line.Blank.pqDeq : AnswersInPlace cfg n l (.pqDeq n) (.optPacket none) := by
  rintro s rfl hs
  exact exec_pqDeq_empty hs h.configured h.no_packet

theorem Line.Blank.asmStep : AnswersInPlace cfg n l (.asmStep n) (.mark .idle) := by
  rintro s rfl hs
  exact exec_asmStep_next hs h.configured h.asmStep_idle

theorem Line.Blank.asmPoll : AnswersInPlace cfg n l (.asmPoll n) .unit := by
  rintro s rfl hs
  have hpoll : Machine.asmPoll s.config l = .next (l, .idle) := asmPollUpTo_of_idle h.asmStep_idle _
  exact consumerOp_answering_of_next (g := pollResponse) hs h.configured hpoll

end

/-- Settles O44: LINE.INIT leaves a line that holds nothing, and each operation after it finds it so. -/
theorem firstOperationsAfterBringUp : Obligations.FirstOperationsAfterBringUp := by
  intro s n c l hl hc hrb hq hp
  have hinit := exec_lineInit_ok (s := { s with ctx := .init }) (a := true) ⟨rfl, hl⟩ hc hrb hp rfl
  have hline := after_lines_self (s := { s with ctx := .init }) hl (initLine s.config c l) .ok
  have h : (initLine s.config c l).Blank s.config.INTERLEAVE := .initLine hq hp
  obtain ⟨t, hrun, ht⟩ := runProgram_answersInPlace (cfg := s.config)
    (ops := [(.rbRead n, .optByte none), (.rbIsEmpty n, .bool true), (.pqAvail n, .bool false),
      (.pqDeq n, .optPacket none), (.asmStep n, .mark .idle), (.asmPoll n, .unit), (.pqDeq n, .optPacket none)])
    (by simp [h.rbRead, h.rbIsEmpty, h.pqAvail, h.pqDeq, h.asmStep, h.asmPoll])
    (s := State.after { s with ctx := .init } n (initLine s.config c l) .ok) rfl hline
  exact ⟨t, initLine s.config c l, runProgram_cons_of_next hinit hrun, ht, rfl⟩

end Sys2Proof.Machine
end

section
/-! RB.READ with steps of context P at chosen points (20_memory.md R57): none at all, or all of them between `r3` and
`r4`; and what writes at that point do, accepted or refused. -/

namespace Sys2Proof.Machine

/-! ## The points of a read -/

/-- The line when context K has made `r3`, with no step of context P before it and no point of the plan left after the
one before `r4`. -/
def Line.afterR3 (l : Line) : Line := { l with rb := l.rb.r3, p := l.p.withPlan [] }

section
variable {m : Interleave} {l : Line}

/-- Past the end of the plan context P takes no step. -/
theorem gap_of_plan_nil (h : l.p.plan = []) : gap m l = l := by
  cases m <;> simp [gap, h]

/-- The steps the plan gives the point, and the points after it left. -/
theorem gap_of_plan_cons {k : Nat} {ks : List Nat} (hm : m ≠ .atomic) (h : l.p.plan = k :: ks) :
    gap m l = (pStep m)^[k] { l with p := l.p.withPlan ks } := by
  cases m with
  | atomic => exact absurd rfl hm
  | _ => simp [gap, h]

theorem rbRead_none_of_plan_nil (hc : l.rb.configured = true) (he : l.rb.isEmptyForRead = true) (hp : l.p.plan = []) :
    rbRead m l = .next (l, none) := by
  simp [rbRead, hc, gap_of_plan_nil hp, he]

variable {b : Byte} (hc : l.rb.configured = true) (he : l.rb.isEmptyForRead = false)
  (hb : l.rb.buf.read l.rb.rd = some b)
include hc he hb

theorem rbRead_of_plan_nil {l' : Line} (hp : l.p.plan = [])
    (hl' : l' = settle m (takesUnflagged l) { l with rb := l.rb.r3 }) :
    rbRead m l = .next ({ l' with rb := l'.rb.r4 }, some b) := by
  simp only [rbRead, hc, gap_of_plan_nil hp, he, hb, gap_of_plan_nil (l := { l with rb := l.rb.r3 }) hp, hl']
  rfl

/-- All the steps of context P that fall inside the read fall between `r3` and `r4`. -/
theorem rbRead_of_plan_before_r4 {k : Nat} {l' : Line} (hm : m ≠ .atomic) (hp : l.p.plan = [0, 0, 0, k])
    (hl' : l' = settle m (takesUnflagged l) ((pStep m)^[k] l.afterR3)) :
    rbRead m l = .next ({ l' with rb := l'.rb.r4 }, some b) := by
  have h1 : gap m l = { l with p := l.p.withPlan [0, 0, k] } := gap_of_plan_cons hm hp
  have h2 : gap m { l with p := l.p.withPlan [0, 0, k] } = { l with p := l.p.withPlan [0, k] } :=
    gap_of_plan_cons (l := { l with p := l.p.withPlan [0, 0, k] }) hm rfl
  have h3 : gap m { l with p := l.p.withPlan [0, k] } = { l with p := l.p.withPlan [k] } :=
    gap_of_plan_cons (l := { l with p := l.p.withPlan [0, k] }) hm rfl
  have h4 : gap m { l with rb := l.rb.r3, p := l.p.withPlan [k] } = (pStep m)^[k] l.afterR3 :=
    gap_of_plan_cons (l := { l with rb := l.rb.r3, p := l.p.withPlan [k] }) hm rfl
  simp only [rbRead, hc, h1, h2, h3, h4, he, hb, hl']
  rfl

end

/-! ## Writes that are refused -/

/-- Context P has written `bs`, and every write was refused: between `l` and `l'` the ring buffer stays. -/
structure RefusesAll (bs : List Byte) (l l' : Line) : Prop where
  rb : l'.rb = l.rb
  idle : l'.p.busy = none
  rx : l.p.rx = bs ++ l'.p.rx
  replies : l'.p.replies = l.p.replies ++ List.replicate bs.length false
  raised : l'.raised = l.raised ++ bs.map .overrun

/-- On a full buffer a write is one step of context P under every setting. -/
theorem pStep_of_full (m : Interleave) {l : Line} {b : Byte} {rest : List Byte} (hbusy : l.p.busy = none)
    (hx : l.p.rx = b :: rest) (hf : l.rb.full = true) :
    pStep m l = (Line.raise (.overrun b) { l with p := l.p.withRx rest }).reply false := by
  cases m with
  | preempt => exact pWhole_full hbusy hx hf
  | concurrent => exact pMicro_w1_full hbusy hx hf
  | atomic => exact pWhole_full hbusy hx hf
  | anyOrder => exact pMicro_w1_full hbusy hx hf

theorem pStep_iterate_refusesAll (m : Interleave) {l : Line} {bs rest : List Byte} (hbusy : l.p.busy = none)
    (hx : l.p.rx = bs ++ rest) (hf : l.rb.full = true) : RefusesAll bs l ((pStep m)^[bs.length] l) := by
  induction bs generalizing l with
  | nil => exact ⟨rfl, hbusy, rfl, by simp, by simp⟩
  | cons b bs ih =>
    rw [List.cons_append] at hx
    rw [List.length_cons, Function.iterate_succ_apply, pStep_of_full m hbusy hx hf]
    have k := ih (l := (Line.raise (.overrun b) { l with p := l.p.withRx (bs ++ rest) }).reply false) hbusy rfl hf
    refine ⟨k.rb, k.idle, ?_, ?_, ?_⟩
    · rw [hx, List.cons_append, ← k.rx]; rfl
    · rw [k.replies, reply_replies, List.append_assoc]; rfl
    · rw [k.raised, reply_raised, raise_raised, List.append_assoc]; rfl

/-! ## Writes that are accepted -/

/-- Context P has written `bs` in whole operations, and every write was accepted, between `l` and `l'`. -/
structure AcceptsAll (bs : List Byte) (l l' : Line) : Prop where
  ring : l'.SoundRing .preempt
  cap : l'.rb.cap = l.rb.cap
  count : l'.rb.count = l.rb.count + bs.length
  rx : l.p.rx = bs ++ l'.p.rx
  replies : l'.p.replies = l.p.replies ++ List.replicate bs.length true
  raised : l'.raised = l.raised

theorem pWhole_iterate_acceptsAll {l : Line} {bs rest : List Byte} (h : l.SoundRing .preempt) (hx : l.p.rx = bs ++ rest)
    (hroom : l.rb.count + bs.length ≤ l.rb.cap) : AcceptsAll bs l (pWhole^[bs.length] l) := by
  induction bs generalizing l with
  | nil => exact ⟨h, rfl, rfl, rfl, by simp, rfl⟩
  | cons b bs ih =>
    rw [List.length_cons] at hroom
    rw [List.cons_append] at hx
    have hbusy : l.p.busy = none := h.sound.busy_concurrent (by decide)
    have hf : l.rb.full = false := (RingBuffer.not_full_iff_count h.bounded).mpr (by omega)
    have hcount := RingBuffer.count_store h.bounded hf b
    have hring := (pWhole_produces h (by decide)).ring
    rw [List.length_cons, Function.iterate_succ_apply]
    rw [pWhole_room hbusy hx hf] at hring ⊢
    have hroom' : (l.rb.store b).count + bs.length ≤ l.rb.cap := by omega
    have k := ih hring rfl hroom'
    refine ⟨k.ring, k.cap, ?_, ?_, ?_, k.raised⟩
    · rw [k.count, reply_rb, hcount, List.length_cons, Nat.add_assoc, Nat.add_comm 1]
    · rw [hx, List.cons_append, ← k.rx]; rfl
    · rw [k.replies, reply_replies, List.append_assoc]; rfl

end Sys2Proof.Machine
end

section
/-! The two hazards of `preempt` (70_reset_and_hazards.md R170, R171): writes of context P between `r3` and `r4` of an
RB.READ. -/

namespace Sys2Proof.Machine

theorem RingBuffer.r4_of_not_full {rb : RingBuffer} (h : rb.full = false) : rb.r4 = rb := by
  simp [RingBuffer.r4, ← h]

theorem RingBuffer.live_of_empty {rb : RingBuffer} (hb : rb.Bounded) (h : rb.isEmptyForRead = true) : rb.live = [] := by
  rw [RingBuffer.live_eq_ring, (RingBuffer.isEmptyForRead_iff_count hb).mp h]
  rfl

theorem RingBuffer.count_r3_of_not_full {rb : RingBuffer} (hb : rb.Bounded) (h : rb.Stored)
    (hne : rb.isEmptyForRead = false) (hf : rb.full = false) : rb.r3.count + 1 = rb.count := by
  have hcount := RingBuffer.count_r3_r4 hb h hne
  rwa [RingBuffer.r4_of_not_full (rb := rb.r3) hf] at hcount

theorem Line.SoundRing.afterR3 {l : Line} (h : l.SoundRing .preempt) (hpos : 0 < l.rb.count) (hf : l.rb.full = false) :
    l.afterR3.SoundRing .preempt :=
  have hidle := h.sound.busy_concurrent (by decide)
  (h.r3 (hpos.trans_le h.count_le_held) hf (takesUnflagged_idle hidle)).1.of_rb_busy rfl rfl

/-- Settles O57: the writes fill the buffer, so the cursors meet, and `r4` clears the flag that says so. -/
theorem fullBufferMadeToLookEmpty : Obligations.FullBufferMadeToLookEmpty := by
  intro s k n l bs rest hs hm hc hinv hsound hf hn hpos hlen hrx hplan
  rw [hm] at hsound
  have h : l.SoundRing .preempt := ⟨hc, hinv.rb_bounded hc, hsound⟩
  have he : l.rb.isEmptyForRead = false := by
    rw [← Bool.not_eq_true, RingBuffer.isEmptyForRead_iff_count h.bounded]
    omega
  obtain ⟨b, hb, hlive⟩ := RingBuffer.exists_live_eq_cons h.bounded h.stored he
  -- after `r3` there is room for as many bytes as are written, and no more
  have hfits : l.rb.r3.count + bs.length = l.rb.cap := by
    have hcount := RingBuffer.count_r3_of_not_full h.bounded h.stored he hf
    have hle := RingBuffer.count_le_cap h.bounded
    omega
  obtain ⟨l', hl'⟩ : ∃ l', l' = pWhole^[bs.length] l.afterR3 := ⟨_, rfl⟩
  have hacc : AcceptsAll bs l.afterR3 l' :=
    hl' ▸ pWhole_iterate_acceptsAll (h.afterR3 (hn ▸ hpos) hf) hrx hfits.le
  have hfull : l'.rb.full = true := by
    rw [RingBuffer.full_iff_count hacc.ring.bounded, hacc.count, hacc.cap]
    exact hfits
  have hmeet := hacc.ring.stored.full_equal hfull
  have hread := rbRead_of_plan_before_r4 (m := .preempt) hc he hb (by decide) hplan hl'
  refine ⟨b, { l' with rb := l'.rb.r4 }, exec_rbRead_next hs (hm ▸ hread), by rw [hlive]; rfl, hmeet, rfl, ?_,
    hacc.replies, hacc.raised, ?_⟩
  · exact RingBuffer.live_of_empty hacc.ring.bounded.r4 (RingBuffer.isEmptyForRead_iff.mpr ⟨hmeet.symm, rfl⟩)
  · exact List.append_cancel_left (hacc.rx.symm.trans hrx)

/-- Settles O58: `r3` leaves the flag set, so the write is refused, and `r4` clears it. -/
theorem writeRefusedAlthoughASlotIsFree : Obligations.WriteRefusedAlthoughASlotIsFree := by
  intro s k l e rest hs hm hc hinv hsound hf hrx hplan
  rw [hm] at hsound
  have h : l.SoundRing .preempt := ⟨hc, hinv.rb_bounded hc, hsound⟩
  have he : l.rb.isEmptyForRead = false := by simp [RingBuffer.isEmptyForRead, hf]
  obtain ⟨b, hb, hlive⟩ := RingBuffer.exists_live_eq_cons h.bounded h.stored he
  have hcount : l.rb.r3.r4.count + 1 = l.rb.cap := by
    rw [RingBuffer.count_r3_r4 h.bounded h.stored he, RingBuffer.count_of_full hf]
  obtain ⟨l', hl'⟩ : ∃ l', l' = (pStep .preempt)^[1] l.afterR3 := ⟨_, rfl⟩
  have href : RefusesAll [e] l.afterR3 l' := hl' ▸ pStep_iterate_refusesAll .preempt (h.idle_of_full hf) hrx hf
  have hread := rbRead_of_plan_before_r4 (m := .preempt) hc he hb (by decide) hplan hl'
  have hrb : l'.rb.r4 = l.rb.r3.r4 := congrArg RingBuffer.r4 href.rb
  refine ⟨b, { l' with rb := l'.rb.r4 }, exec_rbRead_next hs (hm ▸ hread), ?_, ?_, rfl, href.replies, href.raised⟩
  · exact hlive.trans (congrArg (fun rb => b :: rb.live) hrb.symm)
  · exact (congrArg RingBuffer.count hrb).trans (Nat.eq_sub_of_add_eq hcount)

end Sys2Proof.Machine
end

section
/-! A read that begins between `w3` and `w4` of an RB.WRITE (70_reset_and_hazards.md R172, R173): what it finds, and
that under the model's own setting `anyOrder` a later `w4` sets the flag of an empty buffer (notes/assumptions/7.md). -/

namespace Sys2Proof.Machine

/-- The second of two operations on a line decides what the line and the answer are. -/
@[simp] theorem after_after (s : State) (n : Nat) (l l' : Line) (r r' : Response) :
    (s.after n l r).after n l' r' = s.after n l' r' := by
  simp [State.after, State.setLine, State.respond]

section
variable {l : Line} {w : Byte} (h : l.SoundRing .concurrent) (hbusy : l.p.busy = some ⟨w, .w4⟩)
include h hbusy

theorem Line.SoundRing.not_full_of_flagDue : l.rb.full = false := h.sound.writing.not_full (by simp [hbusy])

theorem Line.SoundRing.full_w4_iff : l.rb.w4.full = true ↔ l.rb.wr = l.rb.rd := by
  simp [RingBuffer.fullAfterWrite, h.not_full_of_flagDue hbusy]

/-! ## The write has filled the buffer -/

/-- R172: the transient `none`. -/
theorem Line.SoundRing.rbRead_transient_none (hp : l.p.plan = []) (heq : l.rb.wr = l.rb.rd) :
    rbRead .concurrent l = .next (l, none) :=
  rbRead_none_of_plan_nil h.configured
    (RingBuffer.isEmptyForRead_iff.mpr ⟨heq.symm, h.not_full_of_flagDue hbusy⟩) hp

/-- Once the flag is set nothing falls inside the next read. -/
theorem Line.SoundRing.quietRing_after_w4 (hp : l.p.plan = []) : (pMicro l).QuietRing .concurrent := by
  have hring := (pMicro_produces h).ring
  refine ⟨hring.configured, hring.bounded, hring.stored, ?_⟩
  rw [pMicro_w4 hbusy]
  exact ⟨rfl, .inr hp⟩

theorem Line.SoundRing.full_after_w4 (heq : l.rb.wr = l.rb.rd) : (pMicro l).rb.full = true := by
  rw [pMicro_w4 hbusy]
  exact (h.full_w4_iff hbusy).mpr heq

/-- R172: nothing is lost, the read after `w4` returns the oldest of the `C` bytes. -/
theorem Line.SoundRing.rbRead_after_w4 (hp : l.p.plan = []) (heq : l.rb.wr = l.rb.rd) :
    ∃ (b : Byte) (l' : Line), l.rb.buf.read l.rb.rd = some b ∧ rbRead .concurrent (pMicro l) = .next (l', some b) ∧
      (pMicro l).rb.live = b :: l'.rb.live ∧ (pMicro l).rb.live.length = l.rb.cap ∧ l'.rb.full = false := by
  have hq := h.quietRing_after_w4 hbusy hp
  have hfull := h.full_after_w4 hbusy heq
  have he : (pMicro l).rb.isEmptyForRead = false := by simp [RingBuffer.isEmptyForRead, hfull]
  obtain ⟨b, hb, hlive⟩ := RingBuffer.exists_live_eq_cons hq.bounded hq.stored he
  refine ⟨b, _, ?_, (hq.rbRead_of_live hlive).1, hlive, ?_, rfl⟩
  · rwa [pMicro_w4 hbusy] at hb
  · rw [hq.length_live, RingBuffer.count_of_full hfull, (pMicro_producerOnly l).rb_cap]

/-! ## The write has stored the only byte -/

section
variable {b : Byte} (hnext : advance l.rb.rd l.rb.cap = l.rb.wr) (hne : l.rb.rd ≠ l.rb.wr)
  (hb : l.rb.buf.read l.rb.rd = some b)
include hnext hne hb

/-- R173: with no step of context P due the `w4` is waited for, and finds the cursors equal before `r4`. -/
theorem Line.SoundRing.rbRead_waits_for_w4 (hp : l.p.plan = []) :
    ∃ l' : Line, rbRead .concurrent l = .next (l', some b) ∧ l'.rb.rd = l'.rb.wr ∧ l'.rb.full = false ∧
      l'.p.busy = none ∧ l'.p.replies = l.p.replies ++ [true] := by
  have he : l.rb.isEmptyForRead = false := RingBuffer.isEmptyForRead_eq_false_iff.mpr fun hempty => hne hempty.1
  have hunflagged : takesUnflagged l = true := by simp [takesUnflagged, hbusy, hnext]
  have hsettle : settle .concurrent true { l with rb := l.rb.r3 } = pMicro { l with rb := l.rb.r3 } :=
    if_pos ⟨rfl, by simp [hbusy]⟩
  have hread := rbRead_of_plan_nil (m := .concurrent) h.configured he hb hp rfl
  rw [hunflagged, hsettle, pMicro_w4 (l := { l with rb := l.rb.r3 }) hbusy] at hread
  exact ⟨_, hread, hnext, rfl, rfl, rfl⟩

/-- R173: when the `w4` is context P's next step, the flag it sets refuses what context P writes before `r4`. -/
theorem Line.SoundRing.rbRead_w4_before_r4 {es rest : List Byte} (hx : l.p.rx = es ++ rest)
    (hp : l.p.plan = [0, 0, 0, es.length + 1]) :
    ∃ l' : Line, rbRead .concurrent l = .next (l', some b) ∧ l'.rb.rd = l'.rb.wr ∧ l'.rb.wr = l.rb.wr ∧
      l'.rb.full = false ∧ l'.rb.buf = l.rb.buf ∧ l'.p.busy = none ∧ l'.p.rx = rest ∧
      l'.p.replies = l.p.replies ++ [true] ++ List.replicate es.length false ∧
      l'.raised = l.raised ++ es.map .overrun := by
  have he : l.rb.isEmptyForRead = false := RingBuffer.isEmptyForRead_eq_false_iff.mpr fun hempty => hne hempty.1
  -- context P's first step is the `w4`, which sets the flag; the others are refused writes
  have hw4 : pStep .concurrent l.afterR3 =
      Line.reply true { l.afterR3 with rb := l.rb.r3.w4, p := l.afterR3.p.withBusy none } :=
    pMicro_w4 (l := l.afterR3) hbusy
  have hfull : l.rb.r3.w4.full = true := by simp [RingBuffer.fullAfterWrite, hnext]
  obtain ⟨l', hl'⟩ : ∃ l', l' = (pStep .concurrent)^[es.length + 1] l.afterR3 := ⟨_, rfl⟩
  rw [Function.iterate_succ_apply, hw4] at hl'
  have href : RefusesAll es
      (Line.reply true { l.afterR3 with rb := l.rb.r3.w4, p := l.afterR3.p.withBusy none }) l' :=
    hl' ▸ pStep_iterate_refusesAll .concurrent rfl hx hfull
  have hsteps : l' = settle .concurrent (takesUnflagged l) ((pStep .concurrent)^[es.length + 1] l.afterR3) := by
    rw [Function.iterate_succ_apply, hw4, ← hl', settle_idle href.idle]
  have hrb : l'.rb.r4 = l.rb.r3.w4.r4 := congrArg RingBuffer.r4 href.rb
  refine ⟨_, rbRead_of_plan_before_r4 h.configured he hb (by decide) hp hsteps, ?_⟩
  rw [hrb]
  exact ⟨hnext, rfl, rfl, rfl, href.idle, List.append_cancel_left (href.rx.symm.trans hx), href.replies, href.raised⟩

end

end

/-- Settles O60: by what the write has stored; the order left out, by a run under `anyOrder`. -/
theorem concurrentReadBeforeTheFlagIsSet : Obligations.ConcurrentReadBeforeTheFlagIsSet := by
  refine ⟨fun s n l w hs hm hc hinv hsound hbusy => ?_, ⟨_, _, rfl, rfl, rfl, rfl, rfl⟩, rfl⟩
  have h : l.SoundRing .concurrent := ⟨hc, hinv.rb_bounded hc, hsound⟩
  refine ⟨fun hp heq => ?_, fun hnext hne => ?_⟩
  · obtain ⟨b, l', hb, hread, hlive⟩ := h.rbRead_after_w4 hbusy hp heq
    have hs' : (s.after n (pMicro l) .unit).IssuesOn .consumer n (pMicro l) := ⟨hs.1, after_lines_self hs.2 _ _⟩
    refine ⟨exec_rbRead_next hs (hm ▸ h.rbRead_transient_none hbusy hp heq),
      h.sound.writing.filled (by simp [hbusy]) heq, b, l', hb, ?_, hlive⟩
    rw [exec_rbRead_next hs' (by rw [after_config, hm]; exact hread), after_after]
  · have hpos : 0 < l.held := by
      refine lt_of_lt_of_le (Nat.pos_of_ne_zero fun hz => hne ?_) h.count_le_held
      exact (RingBuffer.isEmptyForRead_iff.mp ((RingBuffer.isEmptyForRead_iff_count h.bounded).mpr hz)).1
    obtain ⟨b, hb⟩ := h.exists_read hpos
    refine ⟨b, hb, fun hp => ?_, fun es rest hx hp => ?_⟩
    · obtain ⟨l', hread, hafter⟩ := h.rbRead_waits_for_w4 hbusy hnext hne hb hp
      exact ⟨l', exec_rbRead_next hs (hm ▸ hread), hafter⟩
    · obtain ⟨l', hread, hafter⟩ := h.rbRead_w4_before_r4 hbusy hnext hne hb hx hp
      exact ⟨l', exec_rbRead_next hs (hm ▸ hread), hafter⟩

end Sys2Proof.Machine
end
